-- ==== Sys2Proof/Word.lean ====
section
/-! DEFINITION. The bit-vector types of SMBSEQ (spec/00_scope.md rule R8, spec/10_state.md rule R10). -/

namespace Sys2Proof

/-- One byte: every register of the controller and every data value is 8 bits (R43). -/
abbrev Byte := BitVec 8

/-- A target address on the two-wire bus, 7 bits (R61, R63). -/
abbrev Target := BitVec 7

/-- An offset of the register-access surface, 8 bits (R31, R47). -/
abbrev Offset := BitVec 8

end Sys2Proof
end

