-- ==== Sys2Proof/Syntax.lean ====
section
/-! DEFINITION. The instructions: one constructor for each row of spec/opcode_table.json, with every field the
row's encoding carries. -/

namespace Sys2Proof

/-- The three commands of the command port (format CMD32, R61, R62) and the three micro-operations that SMBSEQ
sends on its register-access and delay ports (formats RA17 and DLY16, R67, R68). Fields that a command ignores are
kept: they are latched (R63, R11). -/
inductive Instr where
  /-- RDREG (R125): read one register of a target; `value` is latched and ignored. -/
  | rdreg (target : Target) (regaddr value : Byte)
  /-- WRREG (R136): write one register of a target. -/
  | wrreg (target : Target) (regaddr value : Byte)
  /-- CHKIDLE (R107): the guard as a command; all three fields are latched and ignored. -/
  | chkidle (target : Target) (regaddr value : Byte)
  /-- REGRD (R90): one read of the register-access surface. -/
  | regrd (off : Offset)
  /-- REGWR (R91): one write of the register-access surface. -/
  | regwr (off : Offset) (v : Byte)
  /-- DELAY (R92): one request of the delay primitive. -/
  | delay (us : BitVec 16)
  deriving DecidableEq, Repr

end Sys2Proof
end

