-- ==== Sys2Proof/Decode.lean ====
section
/-! DEFINITION. Decoding of the words on SMBSEQ's ports, total, rejecting by name, and the encoder beside it
(spec/30_encoding.md rules R60 to R64, R67, R68). -/

namespace Sys2Proof

/-- A word on one of the three ports that carry an instruction, in the format of its port (R60). The format is
known from the port; no bit of a word selects it. -/
inductive PortWord where
  /-- command port, 32 bits -/
  | cmd32 (w : BitVec 32)
  /-- register-access port, 17 bits -/
  | ra17 (w : BitVec 17)
  /-- delay port, 16 bits -/
  | dly16 (w : BitVec 16)
  deriving DecidableEq, Repr

/-- Why a word is no instruction. -/
inductive DecodeError where
  /-- CMD32: `OPCODE` is not 0x01, 0x02 or 0x03 (R64). -/
  | unknownOpcode (opcode : Byte)
  /-- CMD32: bit 23 is 1 (R64). -/
  | reservedBitSet
  /-- RA17: `we` = 0 with `wdata` not 0x00, which SMBSEQ never drives (R67; notes/assumptions/19.md). -/
  | readWithData (wdata : Byte)
  deriving DecidableEq, Repr

/-! ## The fields of a CMD32 word (R61, R63) -/

/-- `OPCODE`, bits 31:24. -/
def cmdOpcode (w : BitVec 32) : Byte := w.extractLsb' 24 8
/-- `Z`, bit 23, must be 0. -/
def cmdZ (w : BitVec 32) : BitVec 1 := w.extractLsb' 23 1
/-- `TARGET`, bits 22:16. -/
def cmdTarget (w : BitVec 32) : Target := w.extractLsb' 16 7
/-- `REGADDR`, bits 15:8. -/
def cmdRegaddr (w : BitVec 32) : Byte := w.extractLsb' 8 8
/-- `VALUE`, bits 7:0. -/
def cmdValue (w : BitVec 32) : Byte := w.extractLsb' 0 8
/-- The two low bits of `OPCODE`, bits 25:24, which `OP` takes (R63). -/
def cmdOp (w : BitVec 32) : BitVec 2 := w.extractLsb' 24 2

/-! ## The fields of an RA17 word (R67) -/

/-- `we`, bit 16: 0 read, 1 write. -/
def raWe (w : BitVec 17) : BitVec 1 := w.extractLsb' 16 1
/-- `offset`, bits 15:8. -/
def raOffset (w : BitVec 17) : Offset := w.extractLsb' 8 8
/-- `wdata`, bits 7:0. -/
def raWdata (w : BitVec 17) : Byte := w.extractLsb' 0 8

/-! ## The decoder -/

/-- A word of the command port (R62, R64). -/
def decodeCmd32 (w : BitVec 32) : Except DecodeError Instr :=
  if cmdZ w ≠ 0#1 then .error .reservedBitSet
  else if cmdOpcode w = 0x01#8 then .ok (.rdreg (cmdTarget w) (cmdRegaddr w) (cmdValue w))
  else if cmdOpcode w = 0x02#8 then .ok (.wrreg (cmdTarget w) (cmdRegaddr w) (cmdValue w))
  else if cmdOpcode w = 0x03#8 then .ok (.chkidle (cmdTarget w) (cmdRegaddr w) (cmdValue w))
  else .error (.unknownOpcode (cmdOpcode w))

/-- A word of the register-access port (R67). -/
def decodeRa17 (w : BitVec 17) : Except DecodeError Instr :=
  if raWe w = 1#1 then .ok (.regwr (raOffset w) (raWdata w))
  else if raWdata w = 0x00#8 then .ok (.regrd (raOffset w))
  else .error (.readWithData (raWdata w))

/-- A word of the delay port: every 16-bit count is a request (R68). -/
def decodeDly16 (w : BitVec 16) : Except DecodeError Instr := .ok (.delay w)

/-- The decoder. -/
def decode : PortWord → Except DecodeError Instr
  | .cmd32 w => decodeCmd32 w
  | .ra17 w => decodeRa17 w
  | .dly16 w => decodeDly16 w

/-! ## The encoder -/

/-- The CMD32 word with these fields and bit 23 = 0 (R61). -/
def cmdWord (opcode : Byte) (target : Target) (regaddr value : Byte) : BitVec 32 :=
  opcode ++ (0#1 ++ (target ++ (regaddr ++ value)))

/-- The RA17 word with these fields (R67). -/
def raWord (we : BitVec 1) (off : Offset) (wdata : Byte) : BitVec 17 :=
  we ++ (off ++ wdata)

/-- The CMD32 word of an RDREG. -/
def rdregWord (target : Target) (regaddr value : Byte) : BitVec 32 := cmdWord 0x01#8 target regaddr value
/-- The CMD32 word of a WRREG. -/
def wrregWord (target : Target) (regaddr value : Byte) : BitVec 32 := cmdWord 0x02#8 target regaddr value
/-- The CMD32 word of a CHKIDLE. -/
def chkidleWord (target : Target) (regaddr value : Byte) : BitVec 32 := cmdWord 0x03#8 target regaddr value

/-- The encoder: the word of an instruction on its port. -/
def encode : Instr → PortWord
  | .rdreg t r v => .cmd32 (rdregWord t r v)
  | .wrreg t r v => .cmd32 (wrregWord t r v)
  | .chkidle t r v => .cmd32 (chkidleWord t r v)
  | .regrd off => .ra17 (raWord 0#1 off 0x00#8)
  | .regwr off v => .ra17 (raWord 1#1 off v)
  | .delay us => .dly16 us

/-! ## Words as spec/opcode_table.json numbers them -/

/-- The port word of a table word: 32 bits for CMD32, 16 for DLY16, 17 (24 in whole bytes) for RA17; `none` where
the word has a bit above the format's width, or no format has that many bits. -/
def tablePortWord (nbits w : Nat) : Option PortWord :=
  if nbits = 32 then (if w < 2 ^ 32 then some (.cmd32 (BitVec.ofNat 32 w)) else none)
  else if nbits = 16 then (if w < 2 ^ 16 then some (.dly16 (BitVec.ofNat 16 w)) else none)
  else if 17 ≤ nbits ∧ nbits ≤ 24 then (if w < 2 ^ 17 then some (.ra17 (BitVec.ofNat 17 w)) else none)
  else none

/-- The instruction the decoder reads from a word of `nbits` bits, `none` where it refuses it. -/
def decodeTableWord (nbits w : Nat) : Option Instr :=
  match tablePortWord nbits w with
  | none => none
  | some p =>
    match decode p with
    | .ok i => some i
    | .error _ => none

end Sys2Proof
end

