-- ==== Sys2Proof/Config.lean ====
section
/-! DEFINITION. The parameters of the block, one configuration record (spec/00_scope.md rule R6).
Nothing here is a free value: the spec leaves open only what the outside agents answer, and that is held as
input data in `Machine.State` (notes/assumptions/5.md, 6.md). -/

namespace Sys2Proof

/-- The parameters of rule R6, each with the width the table of R6 gives. -/
structure Config where
  /-- `POLL_MAX`: largest number of poll iterations. -/
  pollMax : BitVec 9
  /-- `POLL_INTERVAL_US`: delay before each status re-read. -/
  pollIntervalUs : BitVec 16
  /-- `RESERVED_LEN`: size of the reserved target window. -/
  reservedLen : BitVec 4
  /-- `RESERVED_BASE`: lowest target address of the reserved window. -/
  reservedBase : Target
  /-- `OFF_STS` -/
  offSts : Offset
  /-- `OFF_CNT` -/
  offCnt : Offset
  /-- `OFF_CMD` -/
  offCmd : Offset
  /-- `OFF_ADDR` -/
  offAddr : Offset
  /-- `OFF_DATA0` -/
  offData0 : Offset
  /-- `OFF_AUXCTL` -/
  offAuxctl : Offset
  /-- `STS_BUSY` -/
  stsBusy : Byte
  /-- `STS_INTR` -/
  stsIntr : Byte
  /-- `STS_DEV_ERR` -/
  stsDevErr : Byte
  /-- `STS_BUS_ERR` -/
  stsBusErr : Byte
  /-- `STS_FAILED` -/
  stsFailed : Byte
  /-- `STS_BYTE_DONE` -/
  stsByteDone : Byte
  /-- `CNT_BYTE_DATA` -/
  cntByteData : Byte
  /-- `CNT_START` -/
  cntStart : Byte
  /-- `CNT_LAST_BYTE` -/
  cntLastByte : Byte
  /-- `AUX_EXT_MASK` -/
  auxExtMask : Byte
  /-- `AUX_SQ_MASK` -/
  auxSqMask : Byte
  deriving DecidableEq, Repr

/-- The default value of every parameter (column "value" of the table of R6). The 400, 400 and 8 are the source's;
the other numbers are the spec's defaults from general knowledge or its own choice (notes/assumptions/2.md). -/
def Config.default : Config where
  pollMax := 400#9
  pollIntervalUs := 400#16
  reservedLen := 8#4
  reservedBase := 0x50#7
  offSts := 0x00#8
  offCnt := 0x02#8
  offCmd := 0x03#8
  offAddr := 0x04#8
  offData0 := 0x05#8
  offAuxctl := 0x0D#8
  stsBusy := 0x01#8
  stsIntr := 0x02#8
  stsDevErr := 0x04#8
  stsBusErr := 0x08#8
  stsFailed := 0x10#8
  stsByteDone := 0x80#8
  cntByteData := 0x08#8
  cntStart := 0x40#8
  cntLastByte := 0x20#8
  auxExtMask := 0x03#8
  auxSqMask := 0x04#8

end Sys2Proof
end

