-- ==== Sys2Proof/Machine/State.lean ====
section
/-! DEFINITION. The state of the machine as plain data: the twelve registers of SMBSEQ (spec/10_state.md rule R10),
the configuration, the input pin, and the model's own records of what the outside does and of what happened at the
ports. -/

namespace Sys2Proof.Machine

/-- The 21 micro-states, the values of `SEQ` that rule R69 lists. -/
inductive MicroState where
  | sIdle
  | sRAux1Rd | sRAux1Wr | sRAddrWr | sRCmdWr | sRAux2Rd | sRAux2Wr
  | sWAddrWr | sWCmdWr | sWDataWr | sWAuxRd | sWAuxWr
  | sGStsRd1 | sGStsClr | sGStsRd2
  | sStartWr | sPDelay | sPStsRd | sAckWr | sDataRd
  | sResult
  deriving DecidableEq, Repr

/-- The seven outcomes of rule R165. -/
inductive TxnOutcome where
  | success | busy | timeout | deviceError | configurationError | accessDenied | illegalCommand
  deriving DecidableEq, Repr

/-- What an agent outside SMBSEQ does (R145): one of these is used up by each step (notes/assumptions/5.md). An answer
belongs to one request, and which one is part of what comes in: `answer`, `written` and `delayDone` answer the request
that is outstanding when they come, `late` answers one that a reset has made SMBSEQ forget (R193;
notes/assumptions/25.md). -/
inductive EnvEvent where
  /-- nothing happens outside -/
  | quiet
  /-- the host presents a word on the command port (R146) -/
  | present (w : BitVec 32)
  /-- the surface answers the outstanding read with a byte (R40); the byte is an unconstrained input (R30) -/
  | answer (b : Byte)
  /-- the surface reports the completion of the outstanding write (R40) -/
  | written
  /-- the timer ends the outstanding delay (R50) -/
  | delayDone
  /-- the answer to the forgotten request `i` comes late (R193), with the byte `b` where `i` was a read -/
  | late (i : Instr) (b : Byte)
  /-- the host takes the word on the result port (R154) -/
  | take
  /-- the input `mapped` changes to `b` (R187) -/
  | mapPin (b : Bool)
  /-- the reset input is applied (R190) -/
  | reset
  deriving DecidableEq, Repr

/-- A port event of SMBSEQ (R145). -/
inductive PortEvent where
  /-- `Accept(w)` -/
  | accept (w : BitVec 32)
  /-- `Read(off) -> b` -/
  | read (off : Offset) (b : Byte)
  /-- `Write(off, b)` -/
  | write (off : Offset) (b : Byte)
  /-- `DelayDone(us)` -/
  | delay (us : BitVec 16)
  /-- `Deliver(res_word)` -/
  | deliver (res : BitVec 11)
  deriving DecidableEq, Repr

/-- A byte for each listed offset, offsets strictly rising; an offset that is not listed reads as no value
(Machine/Memory.lean). -/
abbrev Memory := List Host.Cell

/-- The state of the machine. -/
structure State where
  /-- `SEQ`, the micro-state (R13); 6 bits, of which R69 lists 21 values -/
  seq : BitVec 6
  /-- `OP`, the accepted command: 1 RDREG, 2 WRREG, 3 CHKIDLE (R10, R11) -/
  op : BitVec 2
  /-- `TGT` (R10, R11) -/
  tgt : Target
  /-- `REG` (R10, R11) -/
  reg : Byte
  /-- `VAL` (R10, R11) -/
  val : Byte
  /-- `AUXTMP` (R10, R12) -/
  auxtmp : Byte
  /-- `STS_CAP`, the captured status, which holds the six status flags (R10, R12, R15) -/
  stsCap : Byte
  /-- `POLLCNT` (R10, R14) -/
  pollcnt : BitVec 9
  /-- `TIMEDOUT` (R10, R15) -/
  timedout : Bool
  /-- `OUTCOME` (R10, R16) -/
  outcome : BitVec 3
  /-- `DATA` (R10, R16) -/
  data : Byte
  /-- `RES_VALID` (R10, R16) -/
  resValid : Bool
  /-- the parameters (R6); no step changes them -/
  cfg : Config
  /-- the input `mapped` (R187) -/
  mapped : Bool
  /-- the words waiting at the command port, the first one presented now (R146); the host's, not SMBSEQ's -/
  cmds : List (BitVec 32)
  /-- what the outside agents do, oldest first; nothing when it is empty (R145, R160) -/
  inputs : List EnvEvent
  /-- the port events made, newest first (R145) -/
  trace : List PortEvent
  /-- the byte SMBSEQ last wrote at each offset of the register-offset space (R31, R176) -/
  surface : Memory
  /-- the accesses and delays that resets made SMBSEQ forget while they were outstanding, newest first: the requests
  whose answers may still come late (R193) -/
  forgotten : List Instr
  deriving DecidableEq, Repr

/-- Why the machine stops with a fault. -/
inductive Fault where
  /-- `mapped` is 0 between Accept and Deliver, where the source leaves the behaviour undefined (R49, R187, U1).
  Raised by `changeMapped` when the pin falls during a command, and by `whenIssued` and `deliver` in a state that
  already has it so. Safe: the machine stops where the hardware does something unknown. -/
  | unmappedDuringCommand
  deriving DecidableEq, Repr

/-- Why an instruction gets no meaning. -/
inductive Refusal where
  /-- An instruction with no meaning yet, rejected by name in `exec`. No arm raises it. Safe. -/
  | notModelled (mnemonic : String)
  /-- A command under a configuration that rule R7 calls not well formed. Raised by `acceptWord`. Safe. -/
  | illFormedConfig
  /-- `SEQ` holds a code that R69 does not list, or `OUTCOME` holds code 6 (U12: "`refuse` a state that holds
  one"). Raised by `acceptWord`, `whenIssued` and `step`. Safe: no run reaches such a state. -/
  | unlistedCode
  /-- `OP` holds a value for which the row of R149 gives no successor. Raised by `guardPassed`, `afterAck` and
  `step` in `S_START_WR`. Safe: no run reaches such a state. -/
  | noRowForOp
  /-- `exec` is asked for a micro-operation that the current micro-state does not issue (R96, R152). Raised by
  `whenIssued` and by the `after…` functions outside their micro-states; `step` never raises it. Safe. -/
  | notIssued
  deriving DecidableEq, Repr

/-- The machine right after reset (R190, R33), with the default parameters (R6), `mapped` = 1 (R194 (1); DESIGN
CHOICE, notes/assumptions/8.md), nothing presented, no port event made. -/
def State.reset : State where
  seq := 0x00#6
  op := 0#2
  tgt := 0x00#7
  reg := 0x00#8
  val := 0x00#8
  auxtmp := 0x00#8
  stsCap := 0x00#8
  pollcnt := 0#9
  timedout := false
  outcome := 0#3
  data := 0x00#8
  resValid := false
  cfg := Config.default
  mapped := true
  cmds := []
  inputs := []
  trace := []
  surface := []
  forgotten := []

end Sys2Proof.Machine
end

