-- ==== Sys2Proof/Machine/Operands.lean ====
section
/-! DEFINITION. The constants derived from the parameters (spec/00_scope.md rule R6) and the values SMBSEQ assembles
(spec/30_encoding.md rules R70 to R73). -/

namespace Sys2Proof.Machine

/-! ## Derived constants (R6) -/

/-- `STS_ERR_MASK` -/
def stsErrMask (c : Config) : Byte := c.stsDevErr ||| c.stsBusErr ||| c.stsFailed
/-- `STS_ACK_MASK` -/
def stsAckMask (c : Config) : Byte := c.stsIntr ||| stsErrMask c
/-- `STS_STICKY_MASK` -/
def stsStickyMask (c : Config) : Byte :=
  c.stsByteDone ||| c.stsIntr ||| c.stsBusErr ||| c.stsDevErr ||| c.stsFailed
/-- `CNT_READ_GO` (R71) -/
def cntReadGo (c : Config) : Byte := c.cntByteData ||| c.cntStart ||| c.cntLastByte
/-- `CNT_WRITE_GO` (R71) -/
def cntWriteGo (c : Config) : Byte := c.cntByteData ||| c.cntStart
/-- `RESERVED_TOP`; R7 (f) keeps it inside 7 bits -/
def reservedTop (c : Config) : Target := c.reservedBase + c.reservedLen.setWidth 7 - 1#7
/-- `BUDGET_US`, a constant of the configuration that the block never computes (R80, R114) -/
def budgetUs (c : Config) : Nat := c.pollMax.toNat * c.pollIntervalUs.toNat

/-! ## Assembled values -/

/-- The target-address byte, `(zext_8(TGT) << 1) | dir` with `dir` = 1 for a read (R70). -/
def addrByte (t : Target) (dir : Byte) : Byte := (t.setWidth 8 <<< 1) ||| dir
/-- The byte RDREG writes to the target-address register (R70, R127). -/
def readAddrByte (t : Target) : Byte := addrByte t 1#8
/-- The byte WRREG writes to the target-address register (R70, R137). -/
def writeAddrByte (t : Target) : Byte := addrByte t 0#8

/-- "go" of `S_START_WR`: `CNT_READ_GO` when `OP` = 1, `CNT_WRITE_GO` when `OP` = 2 (R149, R71). -/
def controlGo (c : Config) (op : BitVec 2) : Option Byte :=
  if op = 1#2 then some (cntReadGo c)
  else if op = 2#2 then some (cntWriteGo c)
  else none

/-- The byte a read-modify-write puts back: `AUXTMP & ~M` (R72, R93). -/
def rmwByte (aux mask : Byte) : Byte := aux &&& ~~~mask

/-- The byte an acknowledge writes: `STS_CAP & K` (R73, R94). -/
def ackByte (sts mask : Byte) : Byte := sts &&& mask

/-! ## The two idioms of spec/40_register_access.md, as micro-operations -/

/-- The write half of RMWCLR with mask `m` (R93). -/
def rmwClear (c : Config) (aux m : Byte) : Instr := .regwr c.offAuxctl (rmwByte aux m)

/-- ACK with mask `k`: the write-1-to-clear acknowledge, kept as a named operation (R94). -/
def acknowledge (c : Config) (sts k : Byte) : Instr := .regwr c.offSts (ackByte sts k)

end Sys2Proof.Machine
end

