-- ==== Sys2Proof/Machine/ConfigCheck.lean ====
section
/-! DEFINITION. When a configuration is well formed (spec/00_scope.md rule R7). -/

namespace Sys2Proof.Machine

/-- The bytes with exactly one bit set. -/
def singleBits : List Byte := [0x01#8, 0x02#8, 0x04#8, 0x08#8, 0x10#8, 0x20#8, 0x40#8, 0x80#8]

/-- Exactly one bit is set. -/
def oneBit (v : Byte) : Bool := decide (v ∈ singleBits)

/-- The six offsets, in the order of R7 (a). -/
def configOffsets (c : Config) : List Offset := [c.offSts, c.offCnt, c.offCmd, c.offAddr, c.offData0, c.offAuxctl]

/-- The six status masks, in the order of R7 (b). -/
def configStatusMasks (c : Config) : List Byte :=
  [c.stsBusy, c.stsIntr, c.stsDevErr, c.stsBusErr, c.stsFailed, c.stsByteDone]

/-- R7 (a): the offsets are pairwise different. -/
def offsetsDistinct (c : Config) : Bool := decide (configOffsets c).Nodup

/-- R7 (b): each status mask is one bit, and they are pairwise different. -/
def statusMasksOk (c : Config) : Bool :=
  (configStatusMasks c).all oneBit && decide (configStatusMasks c).Nodup

/-- R7 (c): start and last-byte are one bit each, different, and neither overlaps the non-zero mode value. -/
def controlMasksOk (c : Config) : Bool :=
  oneBit c.cntStart && oneBit c.cntLastByte && c.cntStart != c.cntLastByte
    && (c.cntStart &&& c.cntByteData) == 0#8 && (c.cntLastByte &&& c.cntByteData) == 0#8 && c.cntByteData != 0#8

/-- R7 (d): the two auxiliary-control masks are not zero (notes/assumptions/4.md). -/
def auxMasksOk (c : Config) : Bool := c.auxExtMask != 0#8 && c.auxSqMask != 0#8

/-- R7 (e): `POLL_MAX` and `POLL_INTERVAL_US` are at least 1; their widths give the upper bounds. -/
def pollOk (c : Config) : Bool := c.pollMax != 0#9 && c.pollIntervalUs != 0#16

/-- R7 (f): the window has 8 addresses and fits in 7 bits. -/
def windowOk (c : Config) : Bool := c.reservedLen == 8#4 && decide (c.reservedBase.toNat + 7 ≤ 0x7F)

/-- A configuration is well formed (R7). -/
def configOk (c : Config) : Bool :=
  offsetsDistinct c && statusMasksOk c && controlMasksOk c && auxMasksOk c && pollOk c && windowOk c

end Sys2Proof.Machine
end

