-- ==== Sys2Proof/Machine/Flags.lean ====
section
/-! DEFINITION. Every test the block makes (spec/45_sequencer_fsm.md rule R152) and the classifier
(spec/42_poll_classify_ack.md rule R116). -/

namespace Sys2Proof.Machine

/-- `set(mask, v)` (R8). -/
def isSet (mask v : Byte) : Bool := (v &&& mask) != 0#8
/-- `clear(mask, v)` (R8). -/
def isClear (mask v : Byte) : Bool := (v &&& mask) == 0#8

/-- The busy flag of a status byte (R15, R102). -/
def busyFlag (c : Config) (b : Byte) : Bool := isSet c.stsBusy b
/-- Some sticky flag of a status byte is set (R103, R104). -/
def stickyFlag (c : Config) (b : Byte) : Bool := isSet (stsStickyMask c) b
/-- Some of the four acknowledge flags of a status byte is set (R112, R119). -/
def ackFlag (c : Config) (b : Byte) : Bool := isSet (stsAckMask c) b
/-- The device-error flag of a status byte (R116). -/
def devErrFlag (c : Config) (b : Byte) : Bool := isSet c.stsDevErr b

/-- The poll loop ends as completed on this status byte: busy clear and an acknowledge flag set (R112). -/
def pollCompleted (c : Config) (b : Byte) : Bool := isClear c.stsBusy b && ackFlag c b

/-- The AddressPolicy window test, unsigned, both ends included (R135). -/
def inReservedWindow (c : Config) (t : Target) : Bool :=
  decide (c.reservedBase ≤ t) && decide (t ≤ reservedTop c)

/-- CLASSIFY, a function of `TIMEDOUT` and the captured status only (R116). -/
def classify (c : Config) (timedout : Bool) (sts : Byte) : TxnOutcome :=
  if timedout then .timeout
  else if devErrFlag c sts then .deviceError
  else .success

end Sys2Proof.Machine
end

