-- ==== Sys2Proof/Machine/Memory.lean ====
section
/-! DEFINITION. The register-offset space as SMBSEQ's writes leave it (spec/10_state.md rule R31,
spec/60_exceptions.md rule R176). REGRD never reads it: what the surface answers is the controller's business (R30; notes/assumptions/6.md, 11.md). -/

namespace Sys2Proof.Machine

/-- What an offset that is not listed reads as: no value, SMBSEQ has written nothing there (R34, U7). -/
def Memory.unlisted : Option Byte := none

/-- The byte SMBSEQ last wrote at address `a`. -/
def Memory.read : Memory → Nat → Option Byte
  | [], _ => Memory.unlisted
  | (k, b) :: rest, a => if k = a then some b else Memory.read rest a

/-- Write one byte, keeping the addresses strictly rising. -/
def Memory.write : Memory → Nat → Byte → Memory
  | [], a, v => [(a, v)]
  | (k, b) :: rest, a, v =>
    if a < k then (a, v) :: (k, b) :: rest
    else if a = k then (a, v) :: rest
    else (k, b) :: Memory.write rest a v

/-- Every listed address lies above `lo`, and the addresses rise strictly. -/
def Memory.risesFrom : Nat → Memory → Bool
  | _, [] => true
  | lo, (k, _) :: rest => decide (lo ≤ k) && Memory.risesFrom (k + 1) rest

/-- The canonical form: addresses strictly rising. No listed byte equals what an unlisted address reads as, which is
no byte at all. -/
def Memory.wf (m : Memory) : Bool := Memory.risesFrom 0 m

/-- Read at an offset of the surface. -/
def surfaceAt (s : State) (off : Offset) : Option Byte := s.surface.read off.toNat

end Sys2Proof.Machine
end

