-- ==== Sys2Proof/Machine/Ops.lean ====
section
/-! DEFINITION. The named operations over State: codes, outputs, latching a command, ending a command (`finish`,
the block's exception entry), delivering its result (`deliver`, the return from it), recording port events, and
what the outside agents do to the machine. -/

namespace Sys2Proof.Machine

/-! ## Codes -/

/-- The code of a micro-state in `SEQ` (R69). -/
def MicroState.code : MicroState → BitVec 6
  | .sIdle => 0x00#6
  | .sRAux1Rd => 0x10#6
  | .sRAux1Wr => 0x11#6
  | .sRAddrWr => 0x12#6
  | .sRCmdWr => 0x13#6
  | .sRAux2Rd => 0x14#6
  | .sRAux2Wr => 0x15#6
  | .sWAddrWr => 0x20#6
  | .sWCmdWr => 0x21#6
  | .sWDataWr => 0x22#6
  | .sWAuxRd => 0x23#6
  | .sWAuxWr => 0x24#6
  | .sGStsRd1 => 0x30#6
  | .sGStsClr => 0x31#6
  | .sGStsRd2 => 0x32#6
  | .sStartWr => 0x33#6
  | .sPDelay => 0x34#6
  | .sPStsRd => 0x35#6
  | .sAckWr => 0x36#6
  | .sDataRd => 0x37#6
  | .sResult => 0x3F#6

/-- All 21 micro-states, in the order of the table of R69. -/
def allMicroStates : List MicroState :=
  [.sIdle, .sRAux1Rd, .sRAux1Wr, .sRAddrWr, .sRCmdWr, .sRAux2Rd, .sRAux2Wr,
    .sWAddrWr, .sWCmdWr, .sWDataWr, .sWAuxRd, .sWAuxWr,
    .sGStsRd1, .sGStsClr, .sGStsRd2, .sStartWr, .sPDelay, .sPStsRd, .sAckWr, .sDataRd, .sResult]

/-- The micro-state a value of `SEQ` codes, `none` for the values that R69 does not list. -/
def microOfCode (c : BitVec 6) : Option MicroState := allMicroStates.find? fun m => m.code == c

/-- The code of an outcome (R66). Code 6 is no outcome's. -/
def TxnOutcome.code : TxnOutcome → BitVec 3
  | .success => 0#3
  | .busy => 1#3
  | .timeout => 2#3
  | .deviceError => 3#3
  | .configurationError => 4#3
  | .accessDenied => 5#3
  | .illegalCommand => 7#3

/-- The outcome of a code, `none` for the reserved code 6. -/
def outcomeOfCode (c : BitVec 3) : Option TxnOutcome :=
  [TxnOutcome.success, .busy, .timeout, .deviceError, .configurationError, .accessDenied, .illegalCommand].find?
    fun o => o.code == c

/-- The current micro-state, `none` in a state that holds a reserved code: an unlisted `SEQ` or `OUTCOME` = 6. The
machine refuses such a state (U12). -/
def State.micro (s : State) : Option MicroState := if s.outcome = 6#3 then none else microOfCode s.seq

/-! ## Outputs (R19) -/

/-- `cmd_ready = (SEQ == S_IDLE) and mapped` (R19, R146). -/
def cmdReady (s : State) : Bool := s.seq == MicroState.sIdle.code && s.mapped
/-- `res_valid` (R19). -/
def resValidOut (s : State) : Bool := s.resValid
/-- `res_word = {OUTCOME, DATA}` (R19, R65). -/
def resWord (s : State) : BitVec 11 := s.outcome ++ s.data

/-! ## Moving the sequencer -/

/-- `SEQ <- S_X`. -/
def State.goto (s : State) (m : MicroState) : State := { s with seq := m.code }

/-- `finish` with an outcome code: one assignment group (R175). -/
def finishCode (code : BitVec 3) (d : Byte) (s : State) : State :=
  { s with outcome := code, data := d, resValid := true, seq := MicroState.sResult.code }

/-- `finish <Outcome>(d)` (R175): how every command ends, the block's exception entry. -/
def finish (o : TxnOutcome) (d : Byte) (s : State) : State := finishCode o.code d s

/-! ## Records and the use of inputs -/

/-- One element of `inputs` is used up. -/
def State.useInput (s : State) : State := { s with inputs := s.inputs.tail }

/-- A port event is recorded. -/
def State.record (s : State) (e : PortEvent) : State := { s with trace := e :: s.trace }

/-- The event `Read(off) -> b` is complete (R90). -/
def State.readDone (s : State) (off : Offset) (b : Byte) : State := (s.useInput).record (.read off b)

/-- The event `Write(off, v)` is complete (R91): the byte has reached the surface. -/
def State.writeDone (s : State) (off : Offset) (v : Byte) : State :=
  { (s.useInput).record (.write off v) with surface := s.surface.write off.toNat v }

/-- The event `DelayDone(us)` (R92). -/
def State.delayOver (s : State) (us : BitVec 16) : State := (s.useInput).record (.delay us)

/-! ## Accepting a command (R146 to R148) -/

/-- The first word waiting at the command port is taken off it. -/
def State.takeCommand (s : State) : State := { s with cmds := s.cmds.tail }

/-- A word the block does not accept stays at the command port: "it is neither dropped nor queued" (R146). -/
def State.leaveWaiting (s : State) (w : BitVec 32) : State := { s with cmds := w :: s.cmds }

/-- The register writes of `Accept(w)` (R147), with the event recorded. -/
def latch (w : BitVec 32) (s : State) : State :=
  { (s.useInput).record (.accept w) with
    op := cmdOp w, tgt := cmdTarget w, reg := cmdRegaddr w, val := cmdValue w
    pollcnt := 0#9, timedout := false, data := 0x00#8, resValid := false }

/-- The accept step on a word that has been taken off the port; `dispatch` is what R148 does with it after the
latching. A block that is not ready leaves the word waiting (R146, R187; notes/assumptions/23.md);
a configuration that is not well formed is refused here (R7; notes/assumptions/3.md). -/
def acceptWord (w : BitVec 32) (dispatch : State → State) (s : State) : Host.Outcome State Fault Refusal :=
  match s.micro with
  | none => .refused .unlistedCode
  | some _ =>
    if cmdReady s then
      if configOk s.cfg then .next (dispatch (latch w s)) else .refused .illFormedConfig
    else .next (s.leaveWaiting w)

/-- The accept step on an illegal word: `finish IllegalCommand(0x00)` (R64, R148, R172). -/
def acceptIllegal (w : BitVec 32) (s : State) : Host.Outcome State Fault Refusal :=
  acceptWord w (finish .illegalCommand 0x00#8) s

/-! ## Delivering the result (R154, R177) -/

/-- `Deliver` in `S_RESULT`: when the host takes the word, `SEQ <- S_IDLE`; nothing else is restored, because nothing
was saved. Until then the block waits. -/
def deliver (s : State) : Host.Outcome State Fault Refusal :=
  if s.mapped then
    match s.inputs with
    | .take :: _ => .next (((s.useInput).record (.deliver (resWord s))).goto .sIdle)
    | _ => .next s.useInput
  else .fault .unmappedDuringCommand

/-! ## What the outside does -/

/-- The input `mapped` changes (R187). Falling between Accept and Deliver is undefined: a fault (U1; notes/assumptions/9.md). -/
def changeMapped (b : Bool) (s : State) : Host.Outcome State Fault Refusal :=
  if !b && s.seq != MicroState.sIdle.code then .fault .unmappedDuringCommand else .next { s with mapped := b }

/-- The host presents a word: it is at the command port from now on, and for the rest of this step nothing else
happens outside. -/
def presentWord (w : BitVec 32) (s : State) : State :=
  { s with cmds := s.cmds ++ [w], inputs := .quiet :: s.inputs.tail }

end Sys2Proof.Machine
end

