-- ==== Sys2Proof/Machine/Sequencer.lean ====
section
/-! DEFINITION. The sequencer: which micro-operation each micro-state issues (spec/30_encoding.md rule R69) and what
follows it (spec/45_sequencer_fsm.md rules R149, R150), and the reset, which forgets it
(spec/70_reset_and_hazards.md). -/

namespace Sys2Proof.Machine

/-- The micro-operation that a micro-state issues on the register-access or delay port (R69, column "port event").
`none` where it issues none: `S_IDLE`, `S_RESULT`, and `S_START_WR` when `OP` is neither 1 nor 2. -/
def microOp (m : MicroState) (s : State) : Option Instr :=
  match m with
  | .sIdle => none
  | .sRAux1Rd => some (.regrd s.cfg.offAuxctl)
  | .sRAux1Wr => some (rmwClear s.cfg s.auxtmp s.cfg.auxExtMask)
  | .sRAddrWr => some (.regwr s.cfg.offAddr (readAddrByte s.tgt))
  | .sRCmdWr => some (.regwr s.cfg.offCmd s.reg)
  | .sRAux2Rd => some (.regrd s.cfg.offAuxctl)
  | .sRAux2Wr => some (rmwClear s.cfg s.auxtmp s.cfg.auxSqMask)
  | .sWAddrWr => some (.regwr s.cfg.offAddr (writeAddrByte s.tgt))
  | .sWCmdWr => some (.regwr s.cfg.offCmd s.reg)
  | .sWDataWr => some (.regwr s.cfg.offData0 s.val)
  | .sWAuxRd => some (.regrd s.cfg.offAuxctl)
  | .sWAuxWr => some (rmwClear s.cfg s.auxtmp s.cfg.auxSqMask)
  | .sGStsRd1 => some (.regrd s.cfg.offSts)
  | .sGStsClr => some (acknowledge s.cfg s.stsCap (stsStickyMask s.cfg))
  | .sGStsRd2 => some (.regrd s.cfg.offSts)
  | .sStartWr => (controlGo s.cfg s.op).map fun go => .regwr s.cfg.offCnt go
  | .sPDelay => some (.delay s.cfg.pollIntervalUs)
  | .sPStsRd => some (.regrd s.cfg.offSts)
  | .sAckWr => some (acknowledge s.cfg s.stsCap (stsAckMask s.cfg))
  | .sDataRd => some (.regrd s.cfg.offData0)
  | .sResult => none

/-! ## Guard (R100 to R105, R150) -/

/-- After the guard's first status read: busy first, then sticky (R102, R103). -/
def afterGuardRead1 (b : Byte) (s : State) : State :=
  let s1 := { s with stsCap := b }
  if busyFlag s.cfg b then finish .busy 0x00#8 s1
  else if stickyFlag s.cfg b then s1.goto .sGStsClr
  else s1.goto .sGStsRd2

/-- The guard passed: back to the command that called it, by `OP` (R150). -/
def guardPassed (s : State) : Host.Outcome State Fault Refusal :=
  if s.op = 1#2 ∨ s.op = 2#2 then .next (s.goto .sStartWr)
  else if s.op = 3#2 then .next (finish .success 0x00#8 s)
  else .refused .noRowForOp

/-- After the guard's second status read: sticky only, busy is not tested again (R104). -/
def afterGuardRead2 (b : Byte) (s : State) : Host.Outcome State Fault Refusal :=
  let s1 := { s with stsCap := b }
  if stickyFlag s.cfg b then .next (finish .configurationError 0x00#8 s1) else guardPassed s1

/-! ## Poll, classify, acknowledge (R110 to R121) -/

/-- RDREG decides its outcome at the exit of the poll loop: `OUTCOME <- CLASSIFY` when `OP` = 1 (R149, R151). -/
def decideRead (s : State) : State :=
  if s.op = 1#2 then { s with outcome := (classify s.cfg s.timedout s.stsCap).code } else s

/-- The budget is used up: `TIMEDOUT <- 1`, then the acknowledge if a flag shows, else on by `OP` (R113, R119). -/
def pollTimedOut (s : State) : State :=
  let s1 := decideRead { s with timedout := true }
  if ackFlag s.cfg s.stsCap then s1.goto .sAckWr
  else if s.op = 1#2 then s1.goto .sDataRd
  else finish .timeout 0x00#8 s1

/-- After a status read of the poll loop: completion is tested before the budget (R111 to R113). -/
def afterPollRead (b : Byte) (s : State) : State :=
  let s1 := { s with stsCap := b, pollcnt := s.pollcnt + 1#9 }
  if pollCompleted s.cfg b then (decideRead s1).goto .sAckWr
  else if s1.pollcnt = s.cfg.pollMax then pollTimedOut s1
  else s1.goto .sPDelay

/-- After the acknowledge: RDREG reads the data register, WRREG classifies and ends (R149, R121; notes/assumptions/21.md).
There is no verify read (R120; notes/assumptions/18.md). -/
def afterAck (s : State) : Host.Outcome State Fault Refusal :=
  if s.op = 1#2 then .next (s.goto .sDataRd)
  else if s.op = 2#2 then .next (finish (classify s.cfg s.timedout s.stsCap) 0x00#8 s)
  else .refused .noRowForOp

/-! ## The rows of the transition table -/

/-- What a read micro-state does with the byte the surface answers (R149, R90). -/
def afterRead (m : MicroState) (b : Byte) (s : State) : Host.Outcome State Fault Refusal :=
  match m with
  | .sRAux1Rd => .next ({ s with auxtmp := b }.goto .sRAux1Wr)
  | .sRAux2Rd => .next ({ s with auxtmp := b }.goto .sRAux2Wr)
  | .sWAuxRd => .next ({ s with auxtmp := b }.goto .sWAuxWr)
  | .sGStsRd1 => .next (afterGuardRead1 b s)
  | .sGStsRd2 => afterGuardRead2 b s
  | .sPStsRd => .next (afterPollRead b s)
  | .sDataRd => .next (finishCode s.outcome b s)
  | .sIdle | .sRAux1Wr | .sRAddrWr | .sRCmdWr | .sRAux2Wr | .sWAddrWr | .sWCmdWr | .sWDataWr | .sWAuxWr
  | .sGStsClr | .sStartWr | .sPDelay | .sAckWr | .sResult => .refused .notIssued

/-- What follows a write micro-state when the write is complete (R149, R91). -/
def afterWrite (m : MicroState) (s : State) : Host.Outcome State Fault Refusal :=
  match m with
  | .sRAux1Wr => .next (s.goto .sRAddrWr)
  | .sRAddrWr => .next (s.goto .sRCmdWr)
  | .sRCmdWr => .next (s.goto .sRAux2Rd)
  | .sRAux2Wr => .next (s.goto .sGStsRd1)
  | .sWAddrWr => .next (s.goto .sWCmdWr)
  | .sWCmdWr => .next (s.goto .sWDataWr)
  | .sWDataWr => .next (s.goto .sWAuxRd)
  | .sWAuxWr => .next (s.goto .sGStsRd1)
  | .sGStsClr => .next (s.goto .sGStsRd2)
  | .sStartWr => .next (s.goto .sPDelay)
  | .sAckWr => afterAck s
  | .sIdle | .sRAux1Rd | .sRAux2Rd | .sWAuxRd | .sGStsRd1 | .sGStsRd2 | .sPDelay | .sPStsRd | .sDataRd
  | .sResult => .refused .notIssued

/-- What follows the delay (R149, R111). -/
def afterDelay (m : MicroState) (s : State) : Host.Outcome State Fault Refusal :=
  match m with
  | .sPDelay => .next (s.goto .sPStsRd)
  | .sIdle | .sRAux1Rd | .sRAux1Wr | .sRAddrWr | .sRCmdWr | .sRAux2Rd | .sRAux2Wr
  | .sWAddrWr | .sWCmdWr | .sWDataWr | .sWAuxRd | .sWAuxWr | .sGStsRd1 | .sGStsClr | .sGStsRd2
  | .sStartWr | .sPStsRd | .sAckWr | .sDataRd | .sResult => .refused .notIssued

/-- Run a micro-operation `i` in the micro-state that issues it. SMBSEQ issues an access only in a micro-state that
names it (R41, R96; notes/assumptions/15.md), and none while `mapped` is 0 (R22, U1; notes/assumptions/9.md). -/
def whenIssued (i : Instr) (perform : MicroState → Host.Outcome State Fault Refusal) (s : State) :
    Host.Outcome State Fault Refusal :=
  match s.micro with
  | none => .refused .unlistedCode
  | some m =>
    if microOp m s = some i then
      if s.mapped then perform m else .fault .unmappedDuringCommand
    else .refused .notIssued

/-! ## Reset -/

/-- The access or delay that waits for its answer: the micro-operation the current micro-state issues (R41, R69). One at
most, and none while `mapped` is 0 (R22). -/
def outstanding (s : State) : Option Instr :=
  match s.micro with
  | none => none
  | some m => if s.mapped then microOp m s else none

/-- Reset (R190): the twelve registers take their reset values. A running command is abandoned, and its outstanding
access or delay joins the forgotten ones, whose late answers are ignored (R193; notes/assumptions/25.md). No port event;
the controller is not told; the parameters, the pin, the command port and the other records stay (R191, R193;
notes/assumptions/12.md, 17.md). -/
def applyReset (s : State) : State :=
  { s with
    seq := 0x00#6, op := 0#2, tgt := 0x00#7, reg := 0x00#8, val := 0x00#8, auxtmp := 0x00#8, stsCap := 0x00#8
    pollcnt := 0#9, timedout := false, outcome := 0#3, data := 0x00#8, resValid := false
    forgotten := (outstanding s).toList ++ s.forgotten }

/-! ## What the sequencer does next -/

/-- What the block has to do in a state. -/
inductive Fetched where
  /-- a command word is at the port and the block is ready -/
  | command (w : BitVec 32)
  /-- the micro-state issues this micro-operation -/
  | microOp (i : Instr)
  /-- the result is on the result port -/
  | result
  /-- nothing to do: no command, or not mapped -/
  | waiting
  /-- a state the machine refuses -/
  | refused (r : Refusal)
  deriving DecidableEq, Repr

/-- The command port in `S_IDLE`, the micro-operation of a running command, the result in `S_RESULT` (R146, R69). -/
def fetch (s : State) : Fetched :=
  match s.micro with
  | none => .refused .unlistedCode
  | some .sIdle =>
    match s.cmds with
    | [] => .waiting
    | w :: _ => if s.mapped then .command w else .waiting
  | some .sResult => .result
  | some m =>
    match microOp m s with
    | some i => .microOp i
    | none => .refused .noRowForOp

end Sys2Proof.Machine
end

