-- ==== Sys2Proof/Machine/Commands.lean ====
section
/-! DEFINITION. The meanings of the commands RDREG, WRREG and CHKIDLE: the accept step with its dispatch
(spec/45_sequencer_fsm.md rules R146 to R148). The rest of a command is its micro-operations, one a step. -/

namespace Sys2Proof.Machine

/-- RDREG (R125): to the read sequence; no address rule (R134 (a)). -/
def execRdreg (t : Target) (r v : Byte) (s : State) : Host.Outcome State Fault Refusal :=
  acceptWord (rdregWord t r v) (fun s1 => s1.goto .sRAux1Rd) s

/-- Dispatch of WRREG: the AddressPolicy first, before any port event (R135, R148). -/
def dispatchWrite (s : State) : State :=
  if inReservedWindow s.cfg s.tgt then finish .accessDenied 0x00#8 s else s.goto .sWAddrWr

/-- WRREG (R136). -/
def execWrreg (t : Target) (r v : Byte) (s : State) : Host.Outcome State Fault Refusal :=
  acceptWord (wrregWord t r v) dispatchWrite s

/-- CHKIDLE (R107): to the guard. -/
def execChkidle (t : Target) (r v : Byte) (s : State) : Host.Outcome State Fault Refusal :=
  acceptWord (chkidleWord t r v) (fun s1 => s1.goto .sGStsRd1) s

end Sys2Proof.Machine
end

