-- ==== Sys2Proof/Machine/PortOps.lean ====
section
/-! DEFINITION. The meanings of the micro-operations REGRD, REGWR and DELAY (spec/40_register_access.md). Each is one
port event: the request goes out and the block waits in its micro-state until the outside agent has answered
(R41; notes/assumptions/22.md). Every other input is used up and changes nothing, the late answer of a request that a
reset forgot among them, of whatever kind that request was (R193; notes/assumptions/7.md, 25.md). -/

namespace Sys2Proof.Machine

/-- REGRD (R90): read the surface at `off`; the byte goes to the register the micro-state names. -/
def execRegrd (off : Offset) (s : State) : Host.Outcome State Fault Refusal :=
  whenIssued (.regrd off)
    (fun m =>
      match s.inputs with
      | .answer b :: _ => afterRead m b (s.readDone off b)
      | _ => .next s.useInput)
    s

/-- REGWR (R91): write `v` to the surface at `off`. -/
def execRegwr (off : Offset) (v : Byte) (s : State) : Host.Outcome State Fault Refusal :=
  whenIssued (.regwr off v)
    (fun m =>
      match s.inputs with
      | .written :: _ => afterWrite m (s.writeDone off v)
      | _ => .next s.useInput)
    s

/-- DELAY (R92): wait until the timer reports done. -/
def execDelay (us : BitVec 16) (s : State) : Host.Outcome State Fault Refusal :=
  whenIssued (.delay us)
    (fun m =>
      match s.inputs with
      | .delayDone :: _ => afterDelay m (s.delayOver us)
      | _ => .next s.useInput)
    s

end Sys2Proof.Machine
end

