-- ==== Sys2Proof/Machine/Dispatch.lean ====
section
/-! DEFINITION. One arm for each instruction. -/

namespace Sys2Proof.Machine

def exec (i : Instr) (s : State) : Host.Outcome State Fault Refusal :=
  match i with
  | .rdreg t r v => Sys2Proof.Machine.execRdreg t r v s
  | .wrreg t r v => Sys2Proof.Machine.execWrreg t r v s
  | .chkidle t r v => Sys2Proof.Machine.execChkidle t r v s
  | .regrd off => Sys2Proof.Machine.execRegrd off s
  | .regwr off v => Sys2Proof.Machine.execRegwr off v s
  | .delay us => Sys2Proof.Machine.execDelay us s

end Sys2Proof.Machine
end

