-- ==== Sys2Proof/Machine/Place.lean ====
section
/-! DEFINITION. Placing a word of spec/opcode_table.json where the next step fetches it (notes/assumptions/16.md).
A command word goes to the command port of an idle, mapped block. A micro-operation is never fetched from a port: the
sequencer issues it, so the micro-state that issues it is made current, with the registers it takes its operands
from, and the answer it waits for. Where no micro-state issues the operation under the present parameters, the
parameter that would have to differ is set: the word then belongs to a block with that configuration (R6). -/

namespace Sys2Proof.Machine

/-- Exchange two offsets. -/
def swapOffset (a b x : Offset) : Offset := if x = a then b else if x = b then a else x

/-- The parameters with offsets `a` and `b` exchanged, which keeps them pairwise different (R7 (a)). -/
def exchangeOffsets (c : Config) (a b : Offset) : Config :=
  { c with
    offSts := swapOffset a b c.offSts, offCnt := swapOffset a b c.offCnt, offCmd := swapOffset a b c.offCmd
    offAddr := swapOffset a b c.offAddr, offData0 := swapOffset a b c.offData0
    offAuxctl := swapOffset a b c.offAuxctl }

/-- Make `m` current in a mapped block, with `e` the next thing that happens outside; a reserved `OUTCOME` code is
replaced, as no step runs with it. -/
def makeCurrent (m : MicroState) (e : EnvEvent) (s : State) : State :=
  { s with
    seq := m.code, mapped := true, inputs := e :: s.inputs
    outcome := if s.outcome = 6#3 then 0#3 else s.outcome }

/-- A command word at the command port. -/
def placeCommand (w : BitVec 32) (s : State) : State :=
  makeCurrent .sIdle .quiet { s with cmds := w :: s.cmds }

/-- A read of `off`, answered with 0x00. -/
def placeRead (off : Offset) (s : State) : State :=
  let ans := EnvEvent.answer 0x00#8
  if off = s.cfg.offSts then makeCurrent .sGStsRd1 ans s
  else if off = s.cfg.offAuxctl then makeCurrent .sRAux1Rd ans s
  else if off = s.cfg.offData0 then makeCurrent .sDataRd ans s
  else makeCurrent .sGStsRd1 ans { s with cfg := exchangeOffsets s.cfg s.cfg.offSts off }

/-- A write of `v` at `off`, reported complete. -/
def placeWrite (off : Offset) (v : Byte) (s : State) : State :=
  if off = s.cfg.offAddr then
    if v.extractLsb' 0 1 = 1#1 then makeCurrent .sRAddrWr .written { s with tgt := v.extractLsb' 1 7 }
    else makeCurrent .sWAddrWr .written { s with tgt := v.extractLsb' 1 7 }
  else if off = s.cfg.offCmd then makeCurrent .sRCmdWr .written { s with reg := v }
  else if off = s.cfg.offData0 then makeCurrent .sWDataWr .written { s with val := v }
  else if off = s.cfg.offSts ∧ ackByte v (stsStickyMask s.cfg) = v then
    makeCurrent .sGStsClr .written { s with stsCap := v }
  else if off = s.cfg.offAuxctl ∧ rmwByte v s.cfg.auxExtMask = v then
    makeCurrent .sRAux1Wr .written { s with auxtmp := v }
  else if off = s.cfg.offAuxctl ∧ rmwByte v s.cfg.auxSqMask = v then
    makeCurrent .sRAux2Wr .written { s with auxtmp := v }
  else if off = s.cfg.offCnt ∧ v = cntReadGo s.cfg then makeCurrent .sStartWr .written { s with op := 1#2 }
  else if off = s.cfg.offCnt ∧ v = cntWriteGo s.cfg then makeCurrent .sStartWr .written { s with op := 2#2 }
  else
    makeCurrent .sRCmdWr .written { s with cfg := exchangeOffsets s.cfg s.cfg.offCmd off, reg := v }

/-- A delay of `us` microseconds, reported done. -/
def placeDelay (us : BitVec 16) (s : State) : State :=
  makeCurrent .sPDelay .delayDone { s with cfg := { s.cfg with pollIntervalUs := us } }

/-- Place a port word. A word of the register-access port that is no instruction is not placed. -/
def placePortWord (p : PortWord) (s : State) : State :=
  match p with
  | .cmd32 w => placeCommand w s
  | .ra17 w =>
    if raWe w = 1#1 then placeWrite (raOffset w) (raWdata w) s
    else if raWdata w = 0x00#8 then placeRead (raOffset w) s
    else s
  | .dly16 w => placeDelay w s

/-- Place a table word of `nbits` bits. -/
def placeTableWord (s : State) (nbits w : Nat) : State :=
  match tablePortWord nbits w with
  | none => s
  | some p => placePortWord p s

end Sys2Proof.Machine
end

