-- ==== Sys2Proof/Machine/Step.lean ====
section
/-! DEFINITION. One step of the machine (spec/45_sequencer_fsm.md rule R145), and the placing of a word where the next
step fetches it. -/

namespace Sys2Proof.Machine

/-- The block's own step: run what the sequencer fetches, or wait. -/
def blockStep (s : State) : Host.Outcome State Fault Refusal :=
  match fetch s with
  | .command w =>
    match decode (.cmd32 w) with
    | .ok i => exec i s.takeCommand
    | .error _ => acceptIllegal w s.takeCommand
  | .microOp i => exec i s
  | .result => deliver s
  | .waiting => .next s.useInput
  | .refused r => .refused r

/-- One step: what the outside does next, then the block's own step. A reset and a change of `mapped` take a step of
their own (notes/assumptions/13.md). -/
def step (s : State) : Host.Outcome State Fault Refusal :=
  match s.inputs with
  | .reset :: _ => .next (applyReset s.useInput)
  | .mapPin b :: _ => changeMapped b s.useInput
  | .present w :: _ => blockStep (presentWord w s)
  | _ => blockStep s

/-- `s` with the word `w` of `nbits` bits placed so that the very next step fetches and runs it
(notes/assumptions/16.md). -/
def State.withFetchWord (s : State) (nbits w : Nat) : State := placeTableWord s nbits w

end Sys2Proof.Machine
end

