-- ==== Sys2Proof/Machine/Macro.lean ====
section
/-! DEFINITION. The source's seven states as a function of the core state (spec/45_sequencer_fsm.md rule R157). -/

namespace Sys2Proof.Machine

/-- The macro-states of the source, and the early guard failure, which has no name there (R157). -/
inductive MacroState where
  | idle | addressValidated | busChecked | transferStarted | polling | completed | timedOut | earlyFailure
  deriving DecidableEq, Repr

/-- The macro-state in `S_RESULT`, by the outcome. -/
def macroOfResult : TxnOutcome → MacroState
  | .success | .deviceError => .completed
  | .timeout => .timedOut
  | .busy | .configurationError | .accessDenied | .illegalCommand => .earlyFailure

/-- The macro-state of a state, `none` in a state that holds a reserved code (R157). -/
def macroState (s : State) : Option MacroState :=
  match s.micro with
  | none => none
  | some .sIdle => some .idle
  | some .sRAux1Rd | some .sRAux1Wr | some .sRAddrWr | some .sRCmdWr | some .sRAux2Rd | some .sRAux2Wr
  | some .sWAddrWr | some .sWCmdWr | some .sWDataWr | some .sWAuxRd | some .sWAuxWr
  | some .sGStsRd1 | some .sGStsClr | some .sGStsRd2 => some .addressValidated
  | some .sStartWr => some .busChecked
  | some .sPDelay => some (if s.pollcnt = 0#9 then .transferStarted else .polling)
  | some .sPStsRd => some .polling
  | some .sAckWr | some .sDataRd => some (if s.timedout then .timedOut else .completed)
  | some .sResult => (outcomeOfCode s.outcome).map macroOfResult

end Sys2Proof.Machine
end

