-- ==== Sys2Proof/WellFormed.lean ====
section
/-! DEFINITION. Which instructions are well formed under a configuration. -/

namespace Sys2Proof

/-- Well-formedness of an instruction. A command is well formed whatever its fields hold: all 128 targets are legal
encodings, the reserved window included (R64), and ignored fields may hold anything (R63). A micro-operation uses
only the offsets that R96 lists, REGRD the three that are read and REGWR all six; DELAY carries the constant
`POLL_INTERVAL_US` (R92). -/
def Instr.wellFormed (c : Config) : Instr → Bool
  | .rdreg _ _ _ => true
  | .wrreg _ _ _ => true
  | .chkidle _ _ _ => true
  | .regrd off => off == c.offAuxctl || off == c.offSts || off == c.offData0
  | .regwr off _ =>
    off == c.offAuxctl || off == c.offAddr || off == c.offCmd || off == c.offData0 || off == c.offSts || off == c.offCnt
  | .delay us => us == c.pollIntervalUs

end Sys2Proof
end

