-- ==== Sys2Proof/Safety.lean ====
section
/-! DEFINITION. The terms the statements use: the invariant of the machine, what a run does to the ports, and the
event sequences of spec/43_read_register.md rule R125, spec/44_write_register.md rule R136 and
spec/41_bus_guard.md rule R100. -/

namespace Sys2Proof.Machine

/-- The next state of an outcome, if it is one. -/
def nextOf : Host.Outcome State Fault Refusal → Option State
  | .next s => some s
  | .fault _ => none
  | .refused _ => none

/-- A command is running: accepted and not yet delivered. -/
def running (s : State) : Prop := s.seq ≠ MicroState.sIdle.code

/-- The newest accept or deliver of a list of events, newest first, is a deliver, or there is neither. -/
def lastDelivered : List PortEvent → Bool
  | [] => true
  | .deliver _ :: _ => true
  | .accept _ :: _ => false
  | .read _ _ :: rest => lastDelivered rest
  | .write _ _ :: rest => lastDelivered rest
  | .delay _ :: rest => lastDelivered rest

/-- No command is left: none waits at the command port and the host presents none any more. -/
def noCommandLeft (s : State) : Prop := s.cmds = [] ∧ ∀ w : BitVec 32, EnvEvent.present w ∉ s.inputs

/-- The end of a run on a finite list of commands (R156): `SEQ` is `S_IDLE`, every command of the list has been
presented and accepted, and the last one's `Deliver` has happened. -/
def runOver (s : State) : Prop :=
  s.seq = MicroState.sIdle.code ∧ noCommandLeft s ∧ lastDelivered s.trace = true

/-- While a command runs, the newest accept is later than the newest deliver. -/
def OwesResult (s : State) : Prop := running s → lastDelivered s.trace = false

/-- The next thing that happens outside is neither a reset nor a change of `mapped`. -/
def undisturbed (s : State) : Prop := ∀ e, s.inputs.head? = some e → e ≠ .reset ∧ ∀ b, e ≠ .mapPin b

/-- The next thing that happens outside is the host presenting a word, or it answers nothing. -/
def outsideSilent (s : State) : Prop :=
  ∀ e, s.inputs.head? = some e → e = .quiet ∨ ∃ w, e = .present w

/-- The input with a late answer taken out: nothing comes in its place. -/
def EnvEvent.withoutLate : EnvEvent → EnvEvent
  | .late _ _ => .quiet
  | .quiet => .quiet
  | .present w => .present w
  | .answer b => .answer b
  | .written => .written
  | .delayDone => .delayDone
  | .take => .take
  | .mapPin b => .mapPin b
  | .reset => .reset

/-- The same state, to which no late answer comes any more. -/
def State.withoutLate (s : State) : State := { s with inputs := s.inputs.map EnvEvent.withoutLate }

/-! ## The invariant -/

/-- The values of `OP` a micro-state runs with (R10, R149): the read sequence for RDREG, the write sequence for WRREG,
the guard for all three, the transfer for the first two. -/
def opServed (m : MicroState) (op : BitVec 2) : Prop :=
  match m with
  | .sIdle | .sResult => True
  | .sRAux1Rd | .sRAux1Wr | .sRAddrWr | .sRCmdWr | .sRAux2Rd | .sRAux2Wr | .sDataRd => op = 1#2
  | .sWAddrWr | .sWCmdWr | .sWDataWr | .sWAuxRd | .sWAuxWr => op = 2#2
  | .sGStsRd1 | .sGStsClr | .sGStsRd2 => op = 1#2 ∨ op = 2#2 ∨ op = 3#2
  | .sStartWr | .sPDelay | .sPStsRd | .sAckWr => op = 1#2 ∨ op = 2#2

/-- The poll counter and `TIMEDOUT` by micro-state (R14, R110 to R113): cleared before the loop, below the budget
inside it, at the budget when it timed out. -/
def pollServed (m : MicroState) (s : State) : Prop :=
  match m with
  | .sRAux1Rd | .sRAux1Wr | .sRAddrWr | .sRCmdWr | .sRAux2Rd | .sRAux2Wr
  | .sWAddrWr | .sWCmdWr | .sWDataWr | .sWAuxRd | .sWAuxWr
  | .sGStsRd1 | .sGStsClr | .sGStsRd2 | .sStartWr => s.pollcnt = 0#9 ∧ s.timedout = false
  | .sPDelay | .sPStsRd => s.pollcnt < s.cfg.pollMax ∧ s.timedout = false
  | .sAckWr | .sDataRd => 0#9 < s.pollcnt ∧ s.pollcnt ≤ s.cfg.pollMax ∧ (s.timedout = true → s.pollcnt = s.cfg.pollMax)
  | .sIdle | .sResult => s.pollcnt ≤ s.cfg.pollMax ∧ (s.timedout = true → s.pollcnt = s.cfg.pollMax)

/-- What the captured status is known to hold, by micro-state (R103, R105, R112, R118, R119). -/
def statusServed (m : MicroState) (s : State) : Prop :=
  match m with
  | .sGStsClr => busyFlag s.cfg s.stsCap = false ∧ stickyFlag s.cfg s.stsCap = true
  | .sStartWr => stickyFlag s.cfg s.stsCap = false
  | .sAckWr => ackFlag s.cfg s.stsCap = true ∧ (s.timedout = false → pollCompleted s.cfg s.stsCap = true)
  | .sDataRd => s.timedout = false → pollCompleted s.cfg s.stsCap = true
  | .sIdle | .sRAux1Rd | .sRAux1Wr | .sRAddrWr | .sRCmdWr | .sRAux2Rd | .sRAux2Wr
  | .sWAddrWr | .sWCmdWr | .sWDataWr | .sWAuxRd | .sWAuxWr | .sGStsRd1 | .sGStsRd2
  | .sPDelay | .sPStsRd | .sResult => True

/-- The result registers by micro-state (R16, R147, R151, R175): no result while a command runs, one in `S_RESULT`;
an RDREG past its poll loop holds the outcome CLASSIFY gave. -/
def resultServed (m : MicroState) (s : State) : Prop :=
  match m with
  | .sIdle => True
  | .sResult => s.resValid = true
  | .sAckWr =>
    s.resValid = false ∧ s.data = 0x00#8
      ∧ (s.op = 1#2 → s.outcome = (classify s.cfg s.timedout s.stsCap).code)
  | .sDataRd =>
    s.resValid = false ∧ s.data = 0x00#8 ∧ s.outcome = (classify s.cfg s.timedout s.stsCap).code
  | .sRAux1Rd | .sRAux1Wr | .sRAddrWr | .sRCmdWr | .sRAux2Rd | .sRAux2Wr
  | .sWAddrWr | .sWCmdWr | .sWDataWr | .sWAuxRd | .sWAuxWr
  | .sGStsRd1 | .sGStsClr | .sGStsRd2 | .sStartWr | .sPDelay | .sPStsRd =>
    s.resValid = false ∧ s.data = 0x00#8

/-- A WRREG past its dispatch, and before its result, has a target outside the reserved window (R135). -/
def targetServed (m : MicroState) (s : State) : Prop :=
  match m with
  | .sIdle | .sResult => True
  | .sRAux1Rd | .sRAux1Wr | .sRAddrWr | .sRCmdWr | .sRAux2Rd | .sRAux2Wr
  | .sWAddrWr | .sWCmdWr | .sWDataWr | .sWAuxRd | .sWAuxWr | .sGStsRd1 | .sGStsClr | .sGStsRd2
  | .sStartWr | .sPDelay | .sPStsRd | .sAckWr | .sDataRd =>
    s.op = 2#2 → inReservedWindow s.cfg s.tgt = false

/-- The invariant of the machine: the codes are listed, a running command has a mapped surface and a well-formed
configuration, the registers are what the micro-state runs with, and the record of writes is canonical. -/
structure Inv (s : State) (m : MicroState) : Prop where
  outcomeListed : s.outcome ≠ 6#3
  seqListed : s.seq = m.code
  underway : m ≠ .sIdle → s.mapped = true ∧ configOk s.cfg = true
  op : opServed m s.op
  poll : pollServed m s
  status : statusServed m s
  result : resultServed m s
  target : targetServed m s
  surface : s.surface.wf = true

/-- The invariant holds, in some listed micro-state. -/
def Good (s : State) : Prop := ∃ m, Inv s m

/-! ## What the port events say -/

/-- The answer the outside gives to a port event: what a step that makes this event uses up. -/
def respond : PortEvent → EnvEvent
  | .accept _ => .quiet
  | .read _ b => .answer b
  | .write _ _ => .written
  | .delay _ => .delayDone
  | .deliver _ => .take

/-- The byte last written at an offset according to a list of events, newest first. -/
def lastWrite (off : Offset) : List PortEvent → Option Byte
  | [] => none
  | .write o v :: rest => if o = off then some v else lastWrite off rest
  | .accept _ :: rest => lastWrite off rest
  | .read _ _ :: rest => lastWrite off rest
  | .delay _ :: rest => lastWrite off rest
  | .deliver _ :: rest => lastWrite off rest

/-- The record of writes agrees with the port events. -/
def SurfaceAgrees (s : State) : Prop := ∀ off, surfaceAt s off = lastWrite off s.trace

/-- The record of writes after a list of events, oldest first. -/
def surfaceAfter : List PortEvent → Memory → Memory
  | [], m => m
  | .write off v :: rest, m => surfaceAfter rest (m.write off.toNat v)
  | .accept _ :: rest, m => surfaceAfter rest m
  | .read _ _ :: rest, m => surfaceAfter rest m
  | .delay _ :: rest, m => surfaceAfter rest m
  | .deliver _ :: rest, m => surfaceAfter rest m

/-- From `s`, with the outside answering as `evs` say, the machine makes exactly the port events `evs`, one a step,
and is then `t` (whose inputs, events and record of writes are those of `s` moved on by `evs`). -/
def Performs (s : State) (evs : List PortEvent) (t : State) : Prop :=
  ∀ rest, Host.Core.run Sys2Proof.core evs.length { s with inputs := evs.map respond ++ rest }
    = .next { t with inputs := rest, trace := evs.reverse ++ s.trace, surface := surfaceAfter evs s.surface }

/-- Every start trigger (a write of the control register) in a list of events, newest first, comes directly after a
status read that showed no sticky flag (R106, R131, R141). -/
def startsGuarded (c : Config) : List PortEvent → Prop
  | [] => True
  | .write off _ :: rest =>
    (off = c.offCnt → ∃ b before, rest = .read c.offSts b :: before ∧ stickyFlag c b = false) ∧ startsGuarded c rest
  | .accept _ :: rest => startsGuarded c rest
  | .read _ _ :: rest => startsGuarded c rest
  | .delay _ :: rest => startsGuarded c rest
  | .deliver _ :: rest => startsGuarded c rest

/-- The start triggers are guarded, and in `S_START_WR` the newest event is the clean status read. -/
def StartsGuarded (s : State) : Prop :=
  startsGuarded s.cfg s.trace ∧
    (s.seq = MicroState.sStartWr.code → ∃ b before, s.trace = .read s.cfg.offSts b :: before ∧ stickyFlag s.cfg b = false)

/-- At the start trigger the target-address and command registers hold the request, with the direction of the command,
and for a WRREG the data register holds its value (R127, R128, R137, R138). -/
def programmedFor (s : State) : Prop :=
  (s.op = 1#2 → surfaceAt s s.cfg.offAddr = some (readAddrByte s.tgt) ∧ surfaceAt s s.cfg.offCmd = some s.reg) ∧
  (s.op = 2#2 → surfaceAt s s.cfg.offAddr = some (writeAddrByte s.tgt) ∧ surfaceAt s s.cfg.offCmd = some s.reg
      ∧ surfaceAt s s.cfg.offData0 = some s.val)

/-- What a micro-state's command has written to the controller so far (R127, R128, R137, R138). -/
def programmedAt (m : MicroState) (s : State) : Prop :=
  match m with
  | .sRCmdWr => surfaceAt s s.cfg.offAddr = some (readAddrByte s.tgt)
  | .sRAux2Rd | .sRAux2Wr =>
    surfaceAt s s.cfg.offAddr = some (readAddrByte s.tgt) ∧ surfaceAt s s.cfg.offCmd = some s.reg
  | .sWCmdWr => surfaceAt s s.cfg.offAddr = some (writeAddrByte s.tgt)
  | .sWDataWr =>
    surfaceAt s s.cfg.offAddr = some (writeAddrByte s.tgt) ∧ surfaceAt s s.cfg.offCmd = some s.reg
  | .sWAuxRd | .sWAuxWr =>
    surfaceAt s s.cfg.offAddr = some (writeAddrByte s.tgt) ∧ surfaceAt s s.cfg.offCmd = some s.reg
      ∧ surfaceAt s s.cfg.offData0 = some s.val
  | .sGStsRd1 | .sGStsClr | .sGStsRd2 | .sStartWr | .sPDelay | .sPStsRd | .sAckWr | .sDataRd => programmedFor s
  | .sIdle | .sRAux1Rd | .sRAux1Wr | .sRAddrWr | .sWAddrWr | .sResult => True

/-- The controller's registers hold what the current micro-state's command has written so far. -/
def Programmed (s : State) : Prop := ∀ m : MicroState, s.seq = m.code → programmedAt m s

/-! ## Counting -/

/-- The events since the newest start trigger, newest first. -/
def sinceStart (c : Config) : List PortEvent → List PortEvent
  | [] => []
  | e :: rest =>
    match e with
    | .write off _ => if off = c.offCnt then [] else e :: sinceStart c rest
    | .accept _ | .read _ _ | .delay _ | .deliver _ => e :: sinceStart c rest

/-- How many delays of `POLL_INTERVAL_US` a list of events holds. -/
def delaysIn (c : Config) (evs : List PortEvent) : Nat := evs.count (.delay c.pollIntervalUs)

/-- An event is a read at `off`. -/
def isReadOf (off : Offset) : PortEvent → Bool
  | .read o _ => o == off
  | .accept _ | .write _ _ | .delay _ | .deliver _ => false

/-- How many status reads a list of events holds. -/
def statusReadsIn (c : Config) (evs : List PortEvent) : Nat := evs.countP (isReadOf c.offSts)

/-- In the poll loop and up to the data-register read, `POLLCNT` is the number of status reads since the start
trigger, and the delays are as many, or one more while a status read is owed (R111, R113). -/
def pollCountedAt (m : MicroState) (s : State) : Prop :=
  match m with
  | .sPDelay | .sAckWr | .sDataRd =>
    delaysIn s.cfg (sinceStart s.cfg s.trace) = s.pollcnt.toNat
      ∧ statusReadsIn s.cfg (sinceStart s.cfg s.trace) = s.pollcnt.toNat
  | .sPStsRd =>
    delaysIn s.cfg (sinceStart s.cfg s.trace) = s.pollcnt.toNat + 1
      ∧ statusReadsIn s.cfg (sinceStart s.cfg s.trace) = s.pollcnt.toNat
  | .sIdle | .sRAux1Rd | .sRAux1Wr | .sRAddrWr | .sRCmdWr | .sRAux2Rd | .sRAux2Wr
  | .sWAddrWr | .sWCmdWr | .sWDataWr | .sWAuxRd | .sWAuxWr | .sGStsRd1 | .sGStsClr | .sGStsRd2
  | .sStartWr | .sResult => True

/-- `pollCountedAt` holds in the current micro-state. -/
def PollCounted (s : State) : Prop := ∀ m : MicroState, s.seq = m.code → pollCountedAt m s

/-- An accept event. -/
def isAccept : PortEvent → Bool
  | .accept _ => true
  | .read _ _ | .write _ _ | .delay _ | .deliver _ => false

/-- A deliver event. -/
def isDeliver : PortEvent → Bool
  | .deliver _ => true
  | .accept _ | .read _ _ | .write _ _ | .delay _ => false

/-- Commands accepted so far. -/
def accepts (s : State) : Nat := s.trace.countP isAccept
/-- Results delivered so far. -/
def delivers (s : State) : Nat := s.trace.countP isDeliver
/-- 1 while a command is running. -/
def owed (s : State) : Nat := if s.seq = MicroState.sIdle.code then 0 else 1

/-- The largest number of port events after the poll loop, up to the result: the acknowledge, and for RDREG the data
read. -/
def tailEvents (op : BitVec 2) : Nat := if op = 1#2 then 2 else 1

/-- The largest number of port events from the guard's first status read to the result (R158). -/
def guardEventsLeft (s : State) : Nat :=
  if s.op = 3#2 then 3 else 3 + (1 + 2 * s.cfg.pollMax.toNat + tailEvents s.op)

/-- An upper bound on the port events a running command still makes before its Deliver (R158). -/
def eventsLeft (m : MicroState) (s : State) : Nat :=
  match m with
  | .sIdle | .sResult => 0
  | .sRAux1Rd => 6 + guardEventsLeft s
  | .sRAux1Wr => 5 + guardEventsLeft s
  | .sRAddrWr => 4 + guardEventsLeft s
  | .sRCmdWr => 3 + guardEventsLeft s
  | .sRAux2Rd => 2 + guardEventsLeft s
  | .sRAux2Wr => 1 + guardEventsLeft s
  | .sWAddrWr => 5 + guardEventsLeft s
  | .sWCmdWr => 4 + guardEventsLeft s
  | .sWDataWr => 3 + guardEventsLeft s
  | .sWAuxRd => 2 + guardEventsLeft s
  | .sWAuxWr => 1 + guardEventsLeft s
  | .sGStsRd1 => guardEventsLeft s
  | .sGStsClr => guardEventsLeft s - 1
  | .sGStsRd2 => guardEventsLeft s - 2
  | .sStartWr => 1 + 2 * s.cfg.pollMax.toNat + tailEvents s.op
  | .sPDelay => 2 * (s.cfg.pollMax.toNat - s.pollcnt.toNat) + tailEvents s.op
  | .sPStsRd => 2 * (s.cfg.pollMax.toNat - s.pollcnt.toNat) - 1 + tailEvents s.op
  | .sAckWr => tailEvents s.op
  | .sDataRd => 1

/-! ## The event sequences of the commands -/

/-- Steps 1 to 4 of RDREG (R125 to R129); `a1`, `a2` are the bytes the two auxiliary-control reads return. -/
def readSetup (c : Config) (t : Target) (r a1 a2 : Byte) : List PortEvent :=
  [.read c.offAuxctl a1, .write c.offAuxctl (a1 &&& ~~~c.auxExtMask), .write c.offAddr (readAddrByte t),
    .write c.offCmd r, .read c.offAuxctl a2, .write c.offAuxctl (a2 &&& ~~~c.auxSqMask)]

/-- Steps 2 to 4 of WRREG (R136 to R139). -/
def writeSetup (c : Config) (t : Target) (r v a : Byte) : List PortEvent :=
  [.write c.offAddr (writeAddrByte t), .write c.offCmd r, .write c.offData0 v, .read c.offAuxctl a,
    .write c.offAuxctl (a &&& ~~~c.auxSqMask)]

/-- The guard's clear, made when the first status byte `s1` shows a sticky flag (R103). -/
def guardClear (c : Config) (s1 : Byte) : List PortEvent :=
  if stickyFlag c s1 then [.write c.offSts (s1 &&& stsStickyMask c)] else []

/-- The guard up to its second status read (R100). -/
def guardEvents (c : Config) (s1 s2 : Byte) : List PortEvent :=
  [.read c.offSts s1] ++ guardClear c s1 ++ [.read c.offSts s2]

/-- The poll loop on these status bytes, oldest first (R111). -/
def pollEvents (c : Config) (bs : List Byte) : List PortEvent :=
  bs.flatMap fun b => [.delay c.pollIntervalUs, .read c.offSts b]

/-- The acknowledge after the poll, on the captured status `l` (R118, R119). -/
def ackEvents (c : Config) (l : Byte) : List PortEvent :=
  if ackFlag c l then [.write c.offSts (l &&& stsAckMask c)] else []

/-- The status bytes `bs ++ [l]` take the poll loop to its end: none of `bs` completes it, and either `l` does within the
budget or `l` is the byte that uses the budget up (R112, R113). -/
def pollEnds (c : Config) (bs : List Byte) (l : Byte) : Prop :=
  (∀ b ∈ bs, pollCompleted c b = false) ∧
    ((pollCompleted c l = true ∧ bs.length + 1 ≤ c.pollMax.toNat)
      ∨ (pollCompleted c l = false ∧ bs.length + 1 = c.pollMax.toNat))

/-- The result word of an outcome (R65). -/
def resultWord (o : TxnOutcome) (d : Byte) : BitVec 11 := o.code ++ d

/-- An idle, mapped block with a well-formed configuration, no reserved outcome code, and the word `w` first at the
command port. -/
def readyFor (w : BitVec 32) (s : State) : Prop :=
  s.seq = MicroState.sIdle.code ∧ s.mapped = true ∧ configOk s.cfg = true ∧ s.outcome ≠ 6#3 ∧ s.cmds.head? = some w

/-- What a finished command leaves in the registers of the result and of the request (R147, R175, R154). -/
def afterCommand (s : State) (w : BitVec 32) (o : TxnOutcome) (d : Byte) : State :=
  { s with
    seq := MicroState.sIdle.code, op := cmdOp w, tgt := cmdTarget w, reg := cmdRegaddr w, val := cmdValue w
    outcome := o.code, data := d, resValid := true, cmds := s.cmds.tail }

/-! ## What R176 assumes of the controller

`reg k` is what the controller's status register holds when event `k` of a list of events, oldest first, is made. The
controller is outside the block (R30): these are premises of a statement, never steps of the machine
(notes/assumptions/26.md). -/

/-- A status read returns what the status register holds. -/
def statusShown (c : Config) (reg : Nat → Byte) (evs : List PortEvent) : Prop :=
  ∀ k b, evs[k]? = some (.read c.offSts b) → b = reg k

/-- First premise of R176: the controller "clears a sticky flag when 1 is written to it". -/
def clearsWhenWritten (c : Config) (reg : Nat → Byte) (evs : List PortEvent) : Prop :=
  ∀ k v, evs[k]? = some (.write c.offSts v) → reg (k + 1) &&& v &&& stsStickyMask c = 0#8

/-- Second premise of R176: it "raises no new sticky flag after the last status read of the command", which is event
`n`. -/
def raisesNoneAfter (c : Config) (n : Nat) (reg : Nat → Byte) (evs : List PortEvent) : Prop :=
  ∀ k, n ≤ k → k < evs.length → reg (k + 1) &&& stsStickyMask c &&& ~~~reg k = 0#8

/-- Third premise of R176: it "does not set byte-done in byte-data mode". -/
def leavesByteDone (c : Config) (reg : Nat → Byte) (evs : List PortEvent) : Prop :=
  ∀ k, k < evs.length → reg (k + 1) &&& c.stsByteDone &&& ~~~reg k = 0#8

/-- The premises about the controller under which R176 has the next `checkIdle` find no leftover flag. -/
structure CleanController (c : Config) (n : Nat) (reg : Nat → Byte) (evs : List PortEvent) : Prop where
  shown : statusShown c reg evs
  clears : clearsWhenWritten c reg evs
  raisesNone : raisesNoneAfter c n reg evs
  byteDone : leavesByteDone c reg evs

/-- A command that starts a transfer (R125, R136): its word, its events before the guard, its control byte, its events
after the acknowledge, and the data byte it delivers. -/
inductive StartsTransfer (c : Config) : BitVec 32 → List PortEvent → Byte → List PortEvent → Byte → Prop where
  | read (t : Target) (r v a1 a2 d : Byte) :
    StartsTransfer c (rdregWord t r v) (readSetup c t r a1 a2) (cntReadGo c) [.read c.offData0 d] d
  | write (t : Target) (r v a : Byte) (h : inReservedWindow c t = false) :
    StartsTransfer c (wrregWord t r v) (writeSetup c t r v a) (cntWriteGo c) [] 0x00#8

/-- From the guard's last status read, of `s2`, to the last status read of the poll loop, of `l` (R105, R131, R111). -/
def transferEvents (c : Config) (s2 go : Byte) (bs : List Byte) (l : Byte) : List PortEvent :=
  [.read c.offSts s2, .write c.offCnt go] ++ pollEvents c (bs ++ [l])

/-- The guard of a CHKIDLE that sees no sticky flag, with its accept: one status read if busy shows, else two (R102 to
R104). -/
def cleanCheckEvents (c : Config) (chk : BitVec 32) (f1 f2 : Byte) : List PortEvent :=
  [.accept chk, .read c.offSts f1] ++ if busyFlag c f1 then [] else [.read c.offSts f2]

/-! ## The source's state machine (R157) -/

/-- The macro-states that may follow a macro-state, itself included while the block waits or programs:
`Idle → AddressValidated → BusChecked → TransferStarted → Polling → Completed or TimedOut`, and the early endings. A
CHKIDLE that passes goes from AddressValidated to Completed. -/
def macroAfter : MacroState → List MacroState
  | .idle => [.idle, .addressValidated, .earlyFailure]
  | .addressValidated => [.addressValidated, .busChecked, .completed, .earlyFailure]
  | .busChecked => [.busChecked, .transferStarted]
  | .transferStarted => [.transferStarted, .polling]
  | .polling => [.polling, .completed, .timedOut]
  | .completed => [.completed, .idle]
  | .timedOut => [.timedOut, .idle]
  | .earlyFailure => [.earlyFailure, .idle]

/-! ## What a command computes from (R17) -/

/-- The registers whose present value can still matter, the others blanked: in `S_IDLE` none of the request, poll and
result registers, elsewhere `AUXTMP` only before the write half of a read-modify-write, `STS_CAP` only before an
acknowledge, `OUTCOME` only once it is decided. The records are blanked too. -/
def liveView (s : State) : State :=
  let b : State := { s with trace := [], surface := [], forgotten := [] }
  match microOfCode s.seq with
  | none => b
  | some .sIdle =>
    { b with
      op := 0#2, tgt := 0#7, reg := 0#8, val := 0#8, auxtmp := 0#8, stsCap := 0#8, pollcnt := 0#9, timedout := false
      outcome := 0#3, data := 0#8, resValid := false }
  | some .sRAux1Wr | some .sRAux2Wr | some .sWAuxWr => { b with stsCap := 0#8, outcome := 0#3 }
  | some .sGStsClr => { b with auxtmp := 0#8, outcome := 0#3 }
  | some .sAckWr => if s.op = 1#2 then { b with auxtmp := 0#8 } else { b with auxtmp := 0#8, outcome := 0#3 }
  | some .sDataRd | some .sResult => { b with auxtmp := 0#8, stsCap := 0#8 }
  | some .sRAux1Rd | some .sRAddrWr | some .sRCmdWr | some .sRAux2Rd | some .sWAddrWr | some .sWCmdWr
  | some .sWDataWr | some .sWAuxRd | some .sGStsRd1 | some .sGStsRd2 | some .sStartWr | some .sPDelay
  | some .sPStsRd => { b with auxtmp := 0#8, stsCap := 0#8, outcome := 0#3 }

end Sys2Proof.Machine
end

