-- ==== Sys2Proof/Certificates/Slice0/Obligations.lean ====
section
/-! DEFINITION. The statements about the machine. Each docstring names the rule of spec/ it formalises. A value that
comes back from the outside (a byte read, a word presented) is universally quantified everywhere. -/

open Sys2Proof Sys2Proof.Machine

/-! ## Words and codes -/

/-- The decoder gives back every instruction that was encoded, whatever its operands (R61 to R63, R67, R68). -/
def Obligations.DecodeOfEncodeIsTheInstruction : Prop := ∀ i : Instr, decode (encode i) = .ok i

/-- Every word that decodes is the word of the instruction it decodes to: no word has two readings and none is read
with a bit dropped (R60 to R64, R67, R68). For a read word of the register-access port this rests on the decoder refusing a
`wdata` other than 0x00, which is the model's reading of R67 (log 19, DEDUCED). -/
def Obligations.EncodeOfDecodeIsTheWord : Prop := ∀ (p : PortWord) (i : Instr), decode p = .ok i → encode i = p

/-- The match and mask of R62 decide which command a word is, and every other word is refused (R62, R64); the operands are
the fields of R61, extracted as R63 says. -/
def Obligations.CommandWordsByMatchAndMask : Prop :=
  ∀ w : BitVec 32,
    (w &&& 0xFF800000#32 = 0x01000000#32 →
        decode (.cmd32 w) = .ok (.rdreg (w.extractLsb' 16 7) (w.extractLsb' 8 8) (w.extractLsb' 0 8))) ∧
    (w &&& 0xFF800000#32 = 0x02000000#32 →
        decode (.cmd32 w) = .ok (.wrreg (w.extractLsb' 16 7) (w.extractLsb' 8 8) (w.extractLsb' 0 8))) ∧
    (w &&& 0xFF800000#32 = 0x03000000#32 →
        decode (.cmd32 w) = .ok (.chkidle (w.extractLsb' 16 7) (w.extractLsb' 8 8) (w.extractLsb' 0 8))) ∧
    (w &&& 0xFF800000#32 ≠ 0x01000000#32 → w &&& 0xFF800000#32 ≠ 0x02000000#32 →
        w &&& 0xFF800000#32 ≠ 0x03000000#32 → ∃ e, decode (.cmd32 w) = .error e)

/-- Some words of tables B1 and B3 of spec/95_test_vectors.md decode to what the tables say. -/
def Obligations.SampleWordsDecode : Prop :=
  decode (.cmd32 0x012C10FF#32) = .ok (.rdreg 0x2C#7 0x10#8 0xFF#8) ∧
  decode (.cmd32 0x022C10A5#32) = .ok (.wrreg 0x2C#7 0x10#8 0xA5#8) ∧
  decode (.cmd32 0x032BCDEF#32) = .ok (.chkidle 0x2B#7 0xCD#8 0xEF#8) ∧
  decode (.ra17 0x00D00#17) = .ok (.regrd 0x0D#8) ∧
  decode (.ra17 0x105A5#17) = .ok (.regwr 0x05#8 0xA5#8) ∧
  decode (.dly16 0x0190#16) = .ok (.delay 400#16) ∧
  decode (.cmd32 0x02D000FF#32) = .error .reservedBitSet ∧
  decode (.cmd32 0x00000000#32) = .error (.unknownOpcode 0x00#8) ∧
  decode (.cmd32 0xFF2C1000#32) = .error (.unknownOpcode 0xFF#8)

/-- The address byte: RDREG's micro-state writes `(zext_8(TGT) << 1) | 1` and WRREG's `zext_8(TGT) << 1`; bits 7 to 1 are
`TGT`, bit 0 the direction, and as a number it is `2 * TGT + dir`: nothing is lost by the shift (R70). -/
def Obligations.AddressByteIsTargetAndDirection : Prop :=
  (∀ s : State, microOp .sRAddrWr s = some (.regwr s.cfg.offAddr ((s.tgt.setWidth 8 <<< 1) ||| 1#8)) ∧
    microOp .sWAddrWr s = some (.regwr s.cfg.offAddr (s.tgt.setWidth 8 <<< 1))) ∧
  ∀ t : Target,
    readAddrByte t = (t.setWidth 8 <<< 1) ||| 1#8 ∧ writeAddrByte t = t.setWidth 8 <<< 1 ∧
    (readAddrByte t).toNat = 2 * t.toNat + 1 ∧ (writeAddrByte t).toNat = 2 * t.toNat ∧
    (readAddrByte t).extractLsb' 1 7 = t ∧ (writeAddrByte t).extractLsb' 1 7 = t ∧
    (readAddrByte t).extractLsb' 0 1 = 1#1 ∧ (writeAddrByte t).extractLsb' 0 1 = 0#1

/-! ## Accepting a command -/

/-- The accept step on any word, legal or not: the register writes of R147, then the tests of R148 in their order; a
command that passes them is in the macro-state AddressValidated. -/
def Obligations.AcceptLatchesAndDispatches : Prop :=
  ∀ (s : State) (w : BitVec 32) (rest : List EnvEvent), readyFor w s → s.inputs = .quiet :: rest →
    let s1 : State :=
      { s with
        op := w.extractLsb' 24 2, tgt := w.extractLsb' 16 7, reg := w.extractLsb' 8 8, val := w.extractLsb' 0 8
        pollcnt := 0#9, timedout := false, data := 0x00#8, resValid := false
        cmds := s.cmds.tail, inputs := rest, trace := .accept w :: s.trace }
    let opcode := w.extractLsb' 24 8
    let target := w.extractLsb' 16 7
    let t : State :=
      if (opcode ≠ 0x01#8 ∧ opcode ≠ 0x02#8 ∧ opcode ≠ 0x03#8) ∨ w.extractLsb' 23 1 = 1#1 then
        { s1 with outcome := 7#3, data := 0x00#8, resValid := true, seq := 0x3F#6 }
      else if opcode = 0x02#8 ∧ s.cfg.reservedBase ≤ target ∧ target ≤ reservedTop s.cfg then
        { s1 with outcome := 5#3, data := 0x00#8, resValid := true, seq := 0x3F#6 }
      else if opcode = 0x01#8 then { s1 with seq := 0x10#6 }
      else if opcode = 0x02#8 then { s1 with seq := 0x20#6 }
      else { s1 with seq := 0x30#6 }
    step s = .next t ∧ (t.seq ≠ 0x3F#6 → macroState t = some .addressValidated)

/-- RDREG completes whenever the block is ready: its accept step gives exactly this state (R125, R147, R148). -/
def Obligations.RdregIsAccepted : Prop :=
  ∀ (s : State) (t : Target) (r v : Byte),
    s.seq = MicroState.sIdle.code → s.mapped = true → configOk s.cfg = true → s.outcome ≠ 6#3 →
    exec (.rdreg t r v) s = .next
      { s with
        seq := MicroState.sRAux1Rd.code, op := 1#2, tgt := t, reg := r, val := v
        pollcnt := 0#9, timedout := false, data := 0x00#8, resValid := false
        inputs := s.inputs.tail, trace := .accept (rdregWord t r v) :: s.trace }

/-- WRREG completes whenever the block is ready: outside the reserved window it goes on to its sequence, inside it ends with
`AccessDenied` and no port event but the accept (R135, R136, R147, R148). -/
def Obligations.WrregIsAcceptedOrDenied : Prop :=
  ∀ (s : State) (t : Target) (r v : Byte),
    s.seq = MicroState.sIdle.code → s.mapped = true → configOk s.cfg = true → s.outcome ≠ 6#3 →
    let s1 : State :=
      { s with
        op := 2#2, tgt := t, reg := r, val := v, pollcnt := 0#9, timedout := false, data := 0x00#8, resValid := false
        inputs := s.inputs.tail, trace := .accept (wrregWord t r v) :: s.trace }
    ((s.cfg.reservedBase.toNat ≤ t.toNat ∧ t.toNat ≤ s.cfg.reservedBase.toNat + 7) →
      exec (.wrreg t r v) s = .next { s1 with outcome := 5#3, resValid := true, seq := MicroState.sResult.code }) ∧
    (¬(s.cfg.reservedBase.toNat ≤ t.toNat ∧ t.toNat ≤ s.cfg.reservedBase.toNat + 7) →
      exec (.wrreg t r v) s = .next { s1 with seq := MicroState.sWAddrWr.code })

/-- CHKIDLE completes whenever the block is ready (R107, R147, R148). -/
def Obligations.ChkidleIsAccepted : Prop :=
  ∀ (s : State) (t : Target) (r v : Byte),
    s.seq = MicroState.sIdle.code → s.mapped = true → configOk s.cfg = true → s.outcome ≠ 6#3 →
    exec (.chkidle t r v) s = .next
      { s with
        seq := MicroState.sGStsRd1.code, op := 3#2, tgt := t, reg := r, val := v
        pollcnt := 0#9, timedout := false, data := 0x00#8, resValid := false
        inputs := s.inputs.tail, trace := .accept (chkidleWord t r v) :: s.trace }

/-- A block that is not ready leaves a command word at its port and changes nothing else (R146, R187); a ready block
whose parameters are not well formed refuses every command (R7). That the word stands first at the port again, and that the
refusal comes when a command meets a ready block, is the model's choice (log 23, log 3). -/
def Obligations.CommandsWaitOrAreRefused : Prop :=
  ∀ (s : State) (m : MicroState) (t : Target) (r v : Byte), s.seq = m.code → s.outcome ≠ 6#3 →
    ((m ≠ .sIdle ∨ s.mapped = false) →
      exec (.rdreg t r v) s = .next { s with cmds := rdregWord t r v :: s.cmds } ∧
      exec (.wrreg t r v) s = .next { s with cmds := wrregWord t r v :: s.cmds } ∧
      exec (.chkidle t r v) s = .next { s with cmds := chkidleWord t r v :: s.cmds }) ∧
    (m = .sIdle → s.mapped = true → configOk s.cfg = false →
      exec (.rdreg t r v) s = .refused .illFormedConfig ∧
      exec (.wrreg t r v) s = .refused .illFormedConfig ∧
      exec (.chkidle t r v) s = .refused .illFormedConfig)

/-- The frame of the commands: whenever one gives a next state, `AUXTMP`, `STS_CAP`, the parameters, the pin, the forgotten
requests and every byte written to the surface are as before, and `OUTCOME` is unless the command was denied (R147). -/
def Obligations.CommandFrame : Prop :=
  ∀ (i : Instr) (s t : State),
    ((∃ a r v, i = .rdreg a r v) ∨ (∃ a r v, i = .wrreg a r v) ∨ ∃ a r v, i = .chkidle a r v) →
    exec i s = .next t →
      t.auxtmp = s.auxtmp ∧ t.stsCap = s.stsCap ∧ t.cfg = s.cfg ∧ t.mapped = s.mapped ∧
      t.forgotten = s.forgotten ∧ (∀ a, t.surface.read a = s.surface.read a) ∧
      (t.outcome = s.outcome ∨ (t.outcome = 5#3 ∧ t.seq = MicroState.sResult.code ∧ ∃ a r v, i = .wrreg a r v))

/-! ## The micro-operations: what each does in each micro-state that issues it -/

/-- The three reads of the auxiliary-control register, the read halves of the read-modify-writes (R93, R126, R129,
R139). -/
def Obligations.RegrdLoadsAuxtmp : Prop :=
  ∀ (s : State) (b : Byte) (rest : List EnvEvent),
    s.mapped = true → s.outcome ≠ 6#3 → s.inputs = .answer b :: rest →
    let after : MicroState → State := fun m =>
      { s with seq := m.code, auxtmp := b, inputs := rest, trace := .read s.cfg.offAuxctl b :: s.trace }
    (s.seq = MicroState.sRAux1Rd.code → exec (.regrd s.cfg.offAuxctl) s = .next (after .sRAux1Wr)) ∧
    (s.seq = MicroState.sRAux2Rd.code → exec (.regrd s.cfg.offAuxctl) s = .next (after .sRAux2Wr)) ∧
    (s.seq = MicroState.sWAuxRd.code → exec (.regrd s.cfg.offAuxctl) s = .next (after .sWAuxWr))

/-- The guard's first status read: `Busy` first, then the clear if a sticky flag is set, else straight to the second read
(R101 to R103). -/
def Obligations.GuardFirstRead : Prop :=
  ∀ (s : State) (b : Byte) (rest : List EnvEvent),
    s.mapped = true → s.outcome ≠ 6#3 → s.inputs = .answer b :: rest → s.seq = MicroState.sGStsRd1.code →
    let s1 : State := { s with stsCap := b, inputs := rest, trace := .read s.cfg.offSts b :: s.trace }
    exec (.regrd s.cfg.offSts) s = .next
      (if b &&& s.cfg.stsBusy ≠ 0#8 then
        { s1 with outcome := 1#3, data := 0x00#8, resValid := true, seq := MicroState.sResult.code }
      else if b &&& (s.cfg.stsByteDone ||| s.cfg.stsIntr ||| s.cfg.stsBusErr ||| s.cfg.stsDevErr ||| s.cfg.stsFailed) ≠ 0#8
        then { s1 with seq := MicroState.sGStsClr.code }
      else { s1 with seq := MicroState.sGStsRd2.code })

/-- The guard's second status read: `ConfigurationError` if a sticky flag is set, busy not tested; else back to the
command by `OP` (R104, R105, R150). An `OP` that no command has is refused (the model's choice,
log 14). -/
def Obligations.GuardSecondRead : Prop :=
  ∀ (s : State) (b : Byte) (rest : List EnvEvent),
    s.mapped = true → s.outcome ≠ 6#3 → s.inputs = .answer b :: rest → s.seq = MicroState.sGStsRd2.code →
    let s1 : State := { s with stsCap := b, inputs := rest, trace := .read s.cfg.offSts b :: s.trace }
    exec (.regrd s.cfg.offSts) s =
      if b &&& (s.cfg.stsByteDone ||| s.cfg.stsIntr ||| s.cfg.stsBusErr ||| s.cfg.stsDevErr ||| s.cfg.stsFailed) ≠ 0#8
        then .next { s1 with outcome := 4#3, data := 0x00#8, resValid := true, seq := MicroState.sResult.code }
      else if s.op = 1#2 ∨ s.op = 2#2 then .next { s1 with seq := MicroState.sStartWr.code }
      else if s.op = 3#2 then
        .next { s1 with outcome := 0#3, data := 0x00#8, resValid := true, seq := MicroState.sResult.code }
      else .refused .noRowForOp

/-- A status read of the poll loop that completes it: busy clear and interrupt or an error flag set. It counts, the
completion is tested before the budget, and RDREG decides its outcome here (R111, R112, R113, R116). -/
def Obligations.PollReadCompletes : Prop :=
  ∀ (s : State) (b : Byte) (rest : List EnvEvent),
    s.mapped = true → s.outcome ≠ 6#3 → s.inputs = .answer b :: rest → s.seq = MicroState.sPStsRd.code →
    s.timedout = false → b &&& s.cfg.stsBusy = 0#8 →
    b &&& (s.cfg.stsIntr ||| (s.cfg.stsDevErr ||| s.cfg.stsBusErr ||| s.cfg.stsFailed)) ≠ 0#8 →
    exec (.regrd s.cfg.offSts) s = .next
      { s with
        seq := MicroState.sAckWr.code, stsCap := b, pollcnt := s.pollcnt + 1#9
        outcome := if s.op = 1#2 then (if b &&& s.cfg.stsDevErr ≠ 0#8 then 3#3 else 0#3) else s.outcome
        inputs := rest, trace := .read s.cfg.offSts b :: s.trace }

/-- A status read of the poll loop that does not complete it: round again below the budget; at the budget timed out, then
the acknowledge if one of the four flags shows, else on by `OP` (R113, R119). -/
def Obligations.PollReadGoesOnOrTimesOut : Prop :=
  ∀ (s : State) (b : Byte) (rest : List EnvEvent),
    s.mapped = true → s.outcome ≠ 6#3 → s.inputs = .answer b :: rest → s.seq = MicroState.sPStsRd.code →
    let ackSet := b &&& (s.cfg.stsIntr ||| (s.cfg.stsDevErr ||| s.cfg.stsBusErr ||| s.cfg.stsFailed)) ≠ 0#8
    ¬(b &&& s.cfg.stsBusy = 0#8 ∧ ackSet) →
    let s1 : State :=
      { s with
        stsCap := b, pollcnt := s.pollcnt + 1#9, inputs := rest, trace := .read s.cfg.offSts b :: s.trace }
    exec (.regrd s.cfg.offSts) s = .next
      (if s.pollcnt + 1#9 ≠ s.cfg.pollMax then { s1 with seq := MicroState.sPDelay.code }
      else
        let s2 : State := { s1 with timedout := true, outcome := if s.op = 1#2 then 2#3 else s.outcome }
        if ackSet then { s2 with seq := MicroState.sAckWr.code }
        else if s.op = 1#2 then { s2 with seq := MicroState.sDataRd.code }
        else { s2 with outcome := 2#3, data := 0x00#8, resValid := true, seq := MicroState.sResult.code })

/-- RDREG's data-register read: the byte is delivered as read, with the outcome decided before (R133, R151). -/
def Obligations.DataReadFinishesWithTheByteRead : Prop :=
  ∀ (s : State) (b : Byte) (rest : List EnvEvent),
    s.mapped = true → s.outcome ≠ 6#3 → s.inputs = .answer b :: rest → s.seq = MicroState.sDataRd.code →
    exec (.regrd s.cfg.offData0) s = .next
      { s with
        seq := MicroState.sResult.code, data := b, resValid := true, inputs := rest
        trace := .read s.cfg.offData0 b :: s.trace }

/-- The writes that program the controller: RDREG steps 1 to 4 and WRREG steps 2 to 4, each with its byte (R126 to R129,
R137 to R139, R70, R72). -/
def Obligations.RegwrProgramsTheController : Prop :=
  ∀ (s : State) (rest : List EnvEvent),
    s.mapped = true → s.outcome ≠ 6#3 → s.inputs = .written :: rest →
    let after : Offset → Byte → MicroState → State := fun off v m =>
      { s with
        seq := m.code, inputs := rest, trace := .write off v :: s.trace
        surface := s.surface.write off.toNat v }
    let does : MicroState → Offset → Byte → MicroState → Prop := fun m off v m' =>
      s.seq = m.code → exec (.regwr off v) s = .next (after off v m')
    does .sRAux1Wr s.cfg.offAuxctl (s.auxtmp &&& ~~~s.cfg.auxExtMask) .sRAddrWr ∧
    does .sRAddrWr s.cfg.offAddr ((s.tgt.setWidth 8 <<< 1) ||| 1#8) .sRCmdWr ∧
    does .sRCmdWr s.cfg.offCmd s.reg .sRAux2Rd ∧
    does .sRAux2Wr s.cfg.offAuxctl (s.auxtmp &&& ~~~s.cfg.auxSqMask) .sGStsRd1 ∧
    does .sWAddrWr s.cfg.offAddr (s.tgt.setWidth 8 <<< 1) .sWCmdWr ∧
    does .sWCmdWr s.cfg.offCmd s.reg .sWDataWr ∧
    does .sWDataWr s.cfg.offData0 s.val .sWAuxRd ∧
    does .sWAuxWr s.cfg.offAuxctl (s.auxtmp &&& ~~~s.cfg.auxSqMask) .sGStsRd1

/-- The guard's clear writes the sticky flags just read (R103, R94); the start trigger writes the control byte of the
command (R131, R141, R71); with an `OP` of neither RDREG nor WRREG there is no control byte, and the step refuses
(the model's choice, log 14). -/
def Obligations.RegwrClearsAndStarts : Prop :=
  ∀ (s : State) (rest : List EnvEvent),
    s.mapped = true → s.outcome ≠ 6#3 → s.inputs = .written :: rest →
    let after : Offset → Byte → MicroState → State := fun off v m =>
      { s with
        seq := m.code, inputs := rest, trace := .write off v :: s.trace
        surface := s.surface.write off.toNat v }
    (s.seq = MicroState.sGStsClr.code →
      let v := s.stsCap &&& (s.cfg.stsByteDone ||| s.cfg.stsIntr ||| s.cfg.stsBusErr ||| s.cfg.stsDevErr ||| s.cfg.stsFailed)
      exec (.regwr s.cfg.offSts v) s = .next (after s.cfg.offSts v .sGStsRd2)) ∧
    (s.seq = MicroState.sStartWr.code → s.op = 1#2 →
      let go := s.cfg.cntByteData ||| s.cfg.cntStart ||| s.cfg.cntLastByte
      exec (.regwr s.cfg.offCnt go) s = .next (after s.cfg.offCnt go .sPDelay)) ∧
    (s.seq = MicroState.sStartWr.code → s.op = 2#2 →
      let go := s.cfg.cntByteData ||| s.cfg.cntStart
      exec (.regwr s.cfg.offCnt go) s = .next (after s.cfg.offCnt go .sPDelay)) ∧
    (s.seq = MicroState.sStartWr.code → s.op ≠ 1#2 → s.op ≠ 2#2 → step s = .refused .noRowForOp)

/-- The acknowledge after the poll: one write of the four flags captured; RDREG goes on to the data register, WRREG
classifies and ends (R118, R119, R121, R116). Any other `OP` is refused (the model's choice, log 14). -/
def Obligations.RegwrAcknowledges : Prop :=
  ∀ (s : State) (rest : List EnvEvent),
    s.mapped = true → s.outcome ≠ 6#3 → s.inputs = .written :: rest → s.seq = MicroState.sAckWr.code →
    let v := s.stsCap &&& (s.cfg.stsIntr ||| (s.cfg.stsDevErr ||| s.cfg.stsBusErr ||| s.cfg.stsFailed))
    let s1 : State :=
      { s with
        inputs := rest, trace := .write s.cfg.offSts v :: s.trace
        surface := s.surface.write s.cfg.offSts.toNat v }
    (s.op = 1#2 → exec (.regwr s.cfg.offSts v) s = .next { s1 with seq := MicroState.sDataRd.code }) ∧
    (s.op = 2#2 → exec (.regwr s.cfg.offSts v) s = .next
      { s1 with
        outcome := if s.timedout then 2#3 else if s.stsCap &&& s.cfg.stsDevErr ≠ 0#8 then 3#3 else 0#3
        data := 0x00#8, resValid := true, seq := MicroState.sResult.code }) ∧
    (s.op ≠ 1#2 → s.op ≠ 2#2 → exec (.regwr s.cfg.offSts v) s = .refused .noRowForOp)

/-- DELAY: when the timer reports done the block goes on to the status read and has changed nothing else (R92, R111). -/
def Obligations.DelayGoesOnToTheStatusRead : Prop :=
  ∀ (s : State) (rest : List EnvEvent),
    s.mapped = true → s.outcome ≠ 6#3 → s.inputs = .delayDone :: rest → s.seq = MicroState.sPDelay.code →
    exec (.delay s.cfg.pollIntervalUs) s = .next
      { s with seq := MicroState.sPStsRd.code, inputs := rest, trace := .delay s.cfg.pollIntervalUs :: s.trace }

/-- A micro-operation whose answer has not come waits in its micro-state: only the input is used up (R41, R160; the list of
inputs is the model's, log 5 and log 7). -/
def Obligations.UnansweredMicroOpsWait : Prop :=
  ∀ (s : State) (m : MicroState) (i : Instr),
    s.seq = m.code → s.outcome ≠ 6#3 → s.mapped = true → microOp m s = some i →
    ((∃ off, i = .regrd off) → (∀ b rest, s.inputs ≠ .answer b :: rest) → exec i s = .next { s with inputs := s.inputs.tail }) ∧
    ((∃ off v, i = .regwr off v) → (∀ rest, s.inputs ≠ .written :: rest) → exec i s = .next { s with inputs := s.inputs.tail }) ∧
    ((∃ us, i = .delay us) → (∀ rest, s.inputs ≠ .delayDone :: rest) → exec i s = .next { s with inputs := s.inputs.tail })

/-- Where a micro-operation stops: in a micro-state that does not issue exactly it, it is refused (R96, R152; the name of
the refusal is the model's choice, log 15); issued with `mapped` 0, it faults (R187, U1; log 9). -/
def Obligations.MicroOpsStopWhenNotIssuedOrUnmapped : Prop :=
  ∀ (s : State) (m : MicroState) (i : Instr), s.seq = m.code → s.outcome ≠ 6#3 →
    ((∃ off, i = .regrd off) ∨ (∃ off v, i = .regwr off v) ∨ ∃ us, i = .delay us) →
    (microOp m s ≠ some i → exec i s = .refused .notIssued) ∧
    (microOp m s = some i → s.mapped = false → exec i s = .fault .unmappedDuringCommand)

/-- Whatever a micro-state issues is well formed: the three offsets that are read, the six that are written, and the one
delay count (R96, R92). -/
def Obligations.IssuedMicroOpsAreWellFormed : Prop :=
  ∀ (s : State) (m : MicroState) (i : Instr), microOp m s = some i → i.wellFormed s.cfg = true

/-- The frame of REGRD: one read leaves the request latches, the parameters, the pin, the command port, the forgotten
requests and every byte of the surface alone; `AUXTMP` changes only by a read of auxiliary-control; `STS_CAP`, `POLLCNT`, `TIMEDOUT` and `OUTCOME` only by a
status read, the middle two only in the poll loop; `DATA` and `RES_VALID` only by a status or data read that ends the
command (R90, R11). -/
def Obligations.RegrdFrame : Prop :=
  ∀ (off : Offset) (s t : State), exec (.regrd off) s = .next t →
    t.op = s.op ∧ t.tgt = s.tgt ∧ t.reg = s.reg ∧ t.val = s.val ∧ t.cfg = s.cfg ∧ t.mapped = s.mapped ∧ t.cmds = s.cmds ∧
    t.forgotten = s.forgotten ∧ (∀ a, t.surface.read a = s.surface.read a) ∧
    (off ≠ s.cfg.offAuxctl → t.auxtmp = s.auxtmp) ∧
    (off ≠ s.cfg.offSts → t.stsCap = s.stsCap ∧ t.outcome = s.outcome) ∧
    (s.seq ≠ MicroState.sPStsRd.code → t.pollcnt = s.pollcnt ∧ t.timedout = s.timedout) ∧
    (t.seq ≠ MicroState.sResult.code → t.data = s.data ∧ t.resValid = s.resValid) ∧
    (off = s.cfg.offAuxctl → off ≠ s.cfg.offSts → off ≠ s.cfg.offData0 → t.data = s.data ∧ t.resValid = s.resValid)

/-- The frame of REGWR: no register but `SEQ` changes, save the result registers at the end of a WRREG's acknowledge; the
forgotten requests and every byte of the surface but the one at the offset written are as before (R91). -/
def Obligations.RegwrFrame : Prop :=
  ∀ (off : Offset) (v : Byte) (s t : State), exec (.regwr off v) s = .next t →
    t.op = s.op ∧ t.tgt = s.tgt ∧ t.reg = s.reg ∧ t.val = s.val ∧ t.auxtmp = s.auxtmp ∧ t.stsCap = s.stsCap ∧
    t.pollcnt = s.pollcnt ∧ t.timedout = s.timedout ∧ t.cfg = s.cfg ∧ t.mapped = s.mapped ∧ t.cmds = s.cmds ∧
    t.forgotten = s.forgotten ∧
    (¬(s.seq = MicroState.sAckWr.code ∧ s.op = 2#2) →
      t.outcome = s.outcome ∧ t.data = s.data ∧ t.resValid = s.resValid) ∧
    (∀ a, a ≠ off.toNat → t.surface.read a = s.surface.read a)

/-- The frame of DELAY: whenever it gives a next state, no register but `SEQ` has changed and no byte of the surface
(R92). -/
def Obligations.DelayFrame : Prop :=
  ∀ (us : BitVec 16) (s t : State), exec (.delay us) s = .next t →
    t = { s with seq := t.seq, inputs := s.inputs.tail, trace := t.trace } ∧
    (∀ a, t.surface.read a = s.surface.read a)

/-! ## The step -/

/-- A step of an idle, mapped block with a legal word at its command port runs that command, the word taken off the port;
a word the host presents in that step goes behind it (R146; the lists of words and inputs are the model's, log 5). -/
def Obligations.StepRunsTheCommandAtThePort : Prop :=
  ∀ (s : State) (w : BitVec 32) (ws : List (BitVec 32)) (i : Instr),
    s.seq = MicroState.sIdle.code → s.mapped = true → s.outcome ≠ 6#3 → s.cmds = w :: ws →
    decode (.cmd32 w) = .ok i →
    (undisturbed s → (∀ w' rest, s.inputs ≠ .present w' :: rest) → step s = exec i { s with cmds := ws }) ∧
    (∀ w' rest, s.inputs = .present w' :: rest →
      step s = exec i { s with cmds := ws ++ [w'], inputs := .quiet :: rest })

/-- A step of a running block runs the micro-operation its micro-state issues; a word the host presents in that step
waits at the command port (R41, R146). -/
def Obligations.StepRunsTheIssuedMicroOp : Prop :=
  ∀ (s : State) (m : MicroState) (i : Instr),
    s.seq = m.code → s.outcome ≠ 6#3 → microOp m s = some i →
    (undisturbed s → (∀ w rest, s.inputs ≠ .present w :: rest) → step s = exec i s) ∧
    (∀ w rest, s.inputs = .present w :: rest →
      step s = exec i { s with cmds := s.cmds ++ [w], inputs := .quiet :: rest })

/-- The result is delivered when the host takes it, as `{OUTCOME, DATA}`, and the block is idle with the result registers
kept; until then it waits in `S_RESULT` with `res_valid` as it was (R154, R65, R177). -/
def Obligations.ResultIsDelivered : Prop :=
  ∀ (s : State) (rest : List EnvEvent), s.seq = MicroState.sResult.code → s.mapped = true → s.outcome ≠ 6#3 →
    (s.inputs = .take :: rest →
      step s = .next
        { s with
          seq := MicroState.sIdle.code, inputs := rest, trace := .deliver (s.outcome ++ s.data) :: s.trace }) ∧
    (s.inputs = .quiet :: rest → step s = .next { s with inputs := rest })

/-- Reset: in every state, also while a command runs, the twelve registers take their reset values, `cmd_ready` is `mapped`
and `res_valid` is 0 (R190); no port event is made and nothing outside the block changes (R191, R193). That the words at the
port, the pin, the inputs and the records of events and writes stay is the model's reading (log 12, DEDUCED), that a reset is a step of its own is
its choice (log 13), and the values are the spec's own choice (log 17). -/
def Obligations.ResetClearsTheRegisters : Prop :=
  ∀ (s : State) (rest : List EnvEvent), s.inputs = .reset :: rest →
    ∃ t, step s = .next t ∧
      t.seq = 0x00#6 ∧ t.op = 0#2 ∧ t.tgt = 0x00#7 ∧ t.reg = 0x00#8 ∧ t.val = 0x00#8 ∧ t.auxtmp = 0x00#8 ∧
      t.stsCap = 0x00#8 ∧ t.pollcnt = 0#9 ∧ t.timedout = false ∧ t.outcome = 0#3 ∧ t.data = 0x00#8 ∧ t.resValid = false ∧
      cmdReady t = t.mapped ∧ resValidOut t = false ∧
      t.trace = s.trace ∧ t.surface = s.surface ∧ t.cfg = s.cfg ∧ t.mapped = s.mapped ∧ t.cmds = s.cmds ∧ t.inputs = rest

/-- A reset while a command runs, and what comes late after it (R193). The reset leaves the block in `S_IDLE` with no
result, makes no port event, and puts the access or delay that was outstanding among the forgotten requests; nothing but a
reset changes those. A late answer, of whatever request and with whatever byte, is ignored: in every state the step is the
one in which nothing comes in, and while an access or delay is outstanding the block goes on waiting for it, also where the
late answer is of the same kind. The list of forgotten requests and the mark `late` on an input are the model's
(log 25). -/
def Obligations.LateAnswersAreIgnored : Prop :=
  (∀ (s : State) (rest : List EnvEvent), s.inputs = .reset :: rest →
    ∃ t, step s = .next t ∧ t.seq = MicroState.sIdle.code ∧ resValidOut t = false ∧ t.trace = s.trace ∧
      (∀ (m : MicroState) (j : Instr), s.seq = m.code → s.outcome ≠ 6#3 → s.mapped = true → microOp m s = some j →
        t.forgotten = j :: s.forgotten) ∧
      (s.seq = MicroState.sIdle.code ∨ s.seq = MicroState.sResult.code → t.forgotten = s.forgotten)) ∧
  (∀ s t : State, step s = .next t → s.inputs.head? ≠ some .reset → t.forgotten = s.forgotten) ∧
  (∀ (s : State) (i : Instr) (b : Byte) (rest : List EnvEvent), s.inputs = .late i b :: rest →
    step s = step { s with inputs := .quiet :: rest } ∧
    (∀ (m : MicroState) (j : Instr), s.seq = m.code → s.outcome ≠ 6#3 → s.mapped = true → microOp m s = some j →
      step s = .next { s with inputs := rest }))

/-- Late answers leave no trace in any run (R193): from every state, a run of any length in which late answers come in goes
as the run in which nothing comes in their place, with the same port events and the same registers, and the one has a next
state where the other has. The mark `late` on an input is the model's (log 25). -/
def Obligations.LateAnswersLeaveNoTrace : Prop :=
  ∀ (n : Nat) (s : State),
    nextOf (Host.Core.run Sys2Proof.core n s.withoutLate) =
      (nextOf (Host.Core.run Sys2Proof.core n s)).map State.withoutLate

/-- The input `mapped`: it may change in `S_IDLE`; while it is 0 no command is accepted and nothing happens at the
ports; falling during a command is a fault (R187, R49, U1). -/
def Obligations.MappedGatesTheBlock : Prop :=
  ∀ (s : State),
    (∀ b rest, s.inputs = .mapPin b :: rest → (b = true ∨ s.seq = MicroState.sIdle.code) →
      step s = .next { s with mapped := b, inputs := rest }) ∧
    (∀ rest, s.inputs = .mapPin false :: rest → s.seq ≠ MicroState.sIdle.code →
      step s = .fault .unmappedDuringCommand) ∧
    (s.seq = MicroState.sIdle.code → s.outcome ≠ 6#3 → s.mapped = false → outsideSilent s →
      cmdReady s = false ∧ ∃ t, step s = .next t ∧ t.trace = s.trace ∧ t.seq = s.seq ∧ t.surface = s.surface ∧
        (s.cmds <+: t.cmds))

/-- A state that holds a code the tables do not list is refused, whatever happens outside but a reset or a change of
`mapped` (U12, R66, R69). -/
def Obligations.UnlistedCodesAreRefused : Prop :=
  ∀ s : State, undisturbed s → (s.outcome = 6#3 ∨ ∀ m : MicroState, s.seq ≠ m.code) → step s = .refused .unlistedCode

/-! ## Invariants -/

/-- The invariant holds right after reset, and the records are empty (`mapped` = 1 and the default numbers of the
parameters are not the source's: log 8, log 2). -/
def Obligations.ResetIsGood : Prop :=
  Inv State.reset .sIdle ∧ configOk State.reset.cfg = true ∧ State.reset.trace = [] ∧
    State.reset.forgotten = [] ∧ SurfaceAgrees State.reset ∧ StartsGuarded State.reset ∧ Programmed State.reset ∧ PollCounted State.reset

/-- Every step from a good state gives a good state, whatever happens outside. -/
def Obligations.StepKeepsGood : Prop := ∀ s t : State, Good s → step s = .next t → Good t

/-- From a good state the machine never stops, but where `mapped` falls during a command, or a command is presented to a
block whose parameters are not well formed. -/
def Obligations.GoodStatesDoNotStop : Prop :=
  ∀ s : State, Good s →
    (∃ t, step s = .next t) ∨
    (s.inputs.head? = some (.mapPin false) ∧ s.seq ≠ MicroState.sIdle.code ∧ step s = .fault .unmappedDuringCommand) ∨
    (configOk s.cfg = false ∧ s.seq = MicroState.sIdle.code ∧ step s = .refused .illFormedConfig)

/-- The record of bytes written to the surface agrees with the port events, in every step. -/
def Obligations.StepKeepsSurfaceAgreement : Prop := ∀ s t : State, SurfaceAgrees s → step s = .next t → SurfaceAgrees t

/-- Every start trigger ever made came directly after a status read with no sticky flag set (R106, R131, R141). -/
def Obligations.StepKeepsStartsGuarded : Prop :=
  ∀ s t : State, Good s → StartsGuarded s → step s = .next t → StartsGuarded t

/-- At the start trigger the controller's target-address and command registers hold the request with the right direction,
and the data register a WRREG's value (R127, R128, R137, R138). -/
def Obligations.StepKeepsProgrammed : Prop :=
  ∀ s t : State, Good s → Programmed s → step s = .next t → Programmed t

/-- `POLLCNT` counts the status reads of the poll loop, and each came after a delay of its own (R111, R113, R14). -/
def Obligations.StepKeepsPollCounted : Prop :=
  ∀ s t : State, Good s → PollCounted s → step s = .next t → PollCounted t

/-- A command that times out has made exactly `POLL_MAX` delays and `POLL_MAX` status reads since its start trigger, in the
step that uses the budget up (R113). -/
def Obligations.TimeoutTakesExactlyTheBudget : Prop :=
  ∀ s t : State, Good s → PollCounted s → step s = .next t → undisturbed s →
    s.seq = MicroState.sPStsRd.code → t.timedout = true →
    delaysIn t.cfg (sinceStart t.cfg t.trace) = t.cfg.pollMax.toNat ∧
      statusReadsIn t.cfg (sinceStart t.cfg t.trace) = t.cfg.pollMax.toNat

/-- No start trigger with the control byte of a WRREG is ever made with a target of the reserved window in the controller's
target-address register (R135, R171). -/
def Obligations.NoWriteIsStartedIntoTheWindow : Prop :=
  ∀ (s t : State) (v : Byte), Good s → Programmed s → step s = .next t → s.op = 2#2 →
    t.trace = .write s.cfg.offCnt v :: s.trace →
    ∃ tg : Target, surfaceAt t s.cfg.offAddr = some (tg.setWidth 8 <<< 1) ∧
      ¬(s.cfg.reservedBase.toNat ≤ tg.toNat ∧ tg.toNat ≤ s.cfg.reservedBase.toNat + 7)

/-- A step makes at most one port event, and it is the newest of the trace (R41, R42). -/
def Obligations.OneEventAStep : Prop :=
  ∀ s t : State, step s = .next t → t.trace = s.trace ∨ ∃ e, t.trace = e :: s.trace

/-- Every accepted word leads to one delivery: accepts and deliveries stay in step, but for the one result owed while a
command runs; only a reset abandons it (R155, R173, R193). -/
def Obligations.AcceptsAndDeliveriesBalance : Prop :=
  ∀ s t : State, Good s → step s = .next t → s.inputs.head? ≠ some .reset →
    accepts t + delivers s + owed s = accepts s + delivers t + owed t

/-- The request latches are written together when a command is accepted, and never while one runs (R11, R147); nothing
ever changes the parameters (R18). -/
def Obligations.LatchesAreSteadyWhileACommandRuns : Prop :=
  ∀ s t : State, step s = .next t → t.cfg = s.cfg ∧
    (running s → s.inputs.head? ≠ some .reset → t.op = s.op ∧ t.tgt = s.tgt ∧ t.reg = s.reg ∧ t.val = s.val)

/-- While a command runs no word is accepted: the words at the command port stay there in order, and the sequencer
does not go back to an entry (R146, R152, R153). -/
def Obligations.NoCommandIsAcceptedWhileOneRuns : Prop :=
  ∀ s t : State, step s = .next t → running s →
    (∃ ws, t.cmds = s.cmds ++ ws) ∧ ∀ w, t.trace ≠ .accept w :: s.trace

/-- A step moves the block along the source's state machine, or leaves it where it is (R157, R145). -/
def Obligations.StepsFollowTheMacroStates : Prop :=
  ∀ (s t : State) (a b : MacroState), Good s → step s = .next t → undisturbed s →
    macroState s = some a → macroState t = some b → b ∈ macroAfter a

/-- Every port event of a running command before its delivery brings the result nearer, and at the accept the distance is
within the bound of R158: 3 events for CHKIDLE, `2 * POLL_MAX + 12` for RDREG, `2 * POLL_MAX + 10` for WRREG. -/
def Obligations.EventsBringTheResultNearer : Prop :=
  ∀ (s t : State) (m m' : MicroState), Inv s m → Inv t m' → step s = .next t → undisturbed s → t.trace ≠ s.trace →
    (m ≠ .sIdle → m ≠ .sResult → eventsLeft m' t < eventsLeft m s) ∧
    (m = .sIdle → m' ≠ .sResult →
      (t.op = 1#2 → eventsLeft m' t ≤ 2 * t.cfg.pollMax.toNat + 12) ∧
      (t.op = 2#2 → eventsLeft m' t ≤ 2 * t.cfg.pollMax.toNat + 10) ∧
      (t.op = 3#2 → eventsLeft m' t ≤ 3))

/-- A running block is never final: some answer of the outside makes it make a port event (R156, R160). -/
def Obligations.ARunningBlockIsOwedAnEvent : Prop :=
  ∀ s : State, Good s → running s →
    ∃ e : EnvEvent, ∀ rest, ∃ (t : State) (ev : PortEvent),
      step { s with inputs := e :: rest } = .next t ∧ t.trace = ev :: s.trace

/-- SMBSEQ never writes to the status register a bit it has not just read as 1, and never the busy bit (R23); it never sets
a bit of the auxiliary-control register that it read as 0 (R28). -/
def Obligations.WritesClearAndNeverSet : Prop :=
  ∀ (s : State) (m : MicroState) (v : Byte), configOk s.cfg = true →
    (microOp m s = some (.regwr s.cfg.offSts v) → v &&& ~~~s.stsCap = 0#8 ∧ v &&& s.cfg.stsBusy = 0#8) ∧
    (microOp m s = some (.regwr s.cfg.offAuxctl v) → v &&& ~~~s.auxtmp = 0#8)

/-- What a command computes depends on no earlier command: two good states that agree on the registers still live make the
same port events, stop alike, and agree again (R17, R33). -/
def Obligations.StaleRegistersDoNotMatter : Prop :=
  ∀ s t : State, Good s → Good t → liveView s = liveView t →
    (∃ (s' t' : State) (es : List PortEvent), step s = .next s' ∧ step t = .next t' ∧ liveView s' = liveView t' ∧
      s'.trace = es ++ s.trace ∧ t'.trace = es ++ t.trace) ∨
    (∃ f, step s = .fault f ∧ step t = .fault f) ∨
    (∃ r, step s = .refused r ∧ step t = .refused r)

/-! ## Whole commands -/

/-- A whole RDREG whose guard passes, as R125 lists it: from accept to delivery exactly these port events in this order, with
the outcome CLASSIFY gives and the byte the data register returned, whatever bytes the outside answers. -/
def Obligations.RdregRunsItsSequence : Prop :=
  ∀ (s : State) (t : Target) (r v a1 a2 s1 s2 : Byte) (bs : List Byte) (l d : Byte),
    readyFor (rdregWord t r v) s → busyFlag s.cfg s1 = false → stickyFlag s.cfg s2 = false → pollEnds s.cfg bs l →
    let c := s.cfg
    let o := classify c (!pollCompleted c l) l
    Performs s
      ([PortEvent.accept (rdregWord t r v)] ++ readSetup c t r a1 a2 ++ guardEvents c s1 s2
        ++ [PortEvent.write c.offCnt (c.cntByteData ||| c.cntStart ||| c.cntLastByte)] ++ pollEvents c (bs ++ [l])
        ++ ackEvents c l ++ [PortEvent.read c.offData0 d, PortEvent.deliver (resultWord o d)])
      { afterCommand s (rdregWord t r v) o d with
        auxtmp := a2, stsCap := l, pollcnt := BitVec.ofNat 9 (bs.length + 1), timedout := !pollCompleted c l }

/-- A whole RDREG whose guard fails: no start trigger, no poll, no data-register read, `DATA` = 0x00 (R130). -/
def Obligations.RdregEndsWhenTheGuardFails : Prop :=
  ∀ (s : State) (t : Target) (r v a1 a2 s1 s2 : Byte), readyFor (rdregWord t r v) s →
    let c := s.cfg
    (busyFlag c s1 = true →
      Performs s
        ([PortEvent.accept (rdregWord t r v)] ++ readSetup c t r a1 a2 ++ [PortEvent.read c.offSts s1, PortEvent.deliver (resultWord .busy 0x00#8)])
        { afterCommand s (rdregWord t r v) .busy 0x00#8 with
          auxtmp := a2, stsCap := s1, pollcnt := 0#9, timedout := false }) ∧
    (busyFlag c s1 = false → stickyFlag c s2 = true →
      Performs s
        ([PortEvent.accept (rdregWord t r v)] ++ readSetup c t r a1 a2 ++ guardEvents c s1 s2
          ++ [PortEvent.deliver (resultWord .configurationError 0x00#8)])
        { afterCommand s (rdregWord t r v) .configurationError 0x00#8 with
          auxtmp := a2, stsCap := s2, pollcnt := 0#9, timedout := false })

/-- A whole WRREG outside the reserved window whose guard passes, as R136 lists it. -/
def Obligations.WrregRunsItsSequence : Prop :=
  ∀ (s : State) (t : Target) (r v a s1 s2 : Byte) (bs : List Byte) (l : Byte),
    readyFor (wrregWord t r v) s → inReservedWindow s.cfg t = false →
    busyFlag s.cfg s1 = false → stickyFlag s.cfg s2 = false → pollEnds s.cfg bs l →
    let c := s.cfg
    let o := classify c (!pollCompleted c l) l
    Performs s
      ([PortEvent.accept (wrregWord t r v)] ++ writeSetup c t r v a ++ guardEvents c s1 s2
        ++ [PortEvent.write c.offCnt (c.cntByteData ||| c.cntStart)] ++ pollEvents c (bs ++ [l])
        ++ ackEvents c l ++ [PortEvent.deliver (resultWord o 0x00#8)])
      { afterCommand s (wrregWord t r v) o 0x00#8 with
        auxtmp := a, stsCap := l, pollcnt := BitVec.ofNat 9 (bs.length + 1), timedout := !pollCompleted c l }

/-- A whole WRREG that does not start: denied in the window with no port event between accept and delivery (R135, R171), or
ended by the guard (R140). -/
def Obligations.WrregEndsWhenDeniedOrTheGuardFails : Prop :=
  ∀ (s : State) (t : Target) (r v a s1 s2 : Byte), readyFor (wrregWord t r v) s →
    let c := s.cfg
    (inReservedWindow c t = true →
      Performs s [PortEvent.accept (wrregWord t r v), PortEvent.deliver (resultWord .accessDenied 0x00#8)]
        { afterCommand s (wrregWord t r v) .accessDenied 0x00#8 with pollcnt := 0#9, timedout := false }) ∧
    (inReservedWindow c t = false → busyFlag c s1 = true →
      Performs s
        ([PortEvent.accept (wrregWord t r v)] ++ writeSetup c t r v a ++ [PortEvent.read c.offSts s1, PortEvent.deliver (resultWord .busy 0x00#8)])
        { afterCommand s (wrregWord t r v) .busy 0x00#8 with
          auxtmp := a, stsCap := s1, pollcnt := 0#9, timedout := false }) ∧
    (inReservedWindow c t = false → busyFlag c s1 = false → stickyFlag c s2 = true →
      Performs s
        ([PortEvent.accept (wrregWord t r v)] ++ writeSetup c t r v a ++ guardEvents c s1 s2
          ++ [PortEvent.deliver (resultWord .configurationError 0x00#8)])
        { afterCommand s (wrregWord t r v) .configurationError 0x00#8 with
          auxtmp := a, stsCap := s2, pollcnt := 0#9, timedout := false })

/-- A whole CHKIDLE: its accept (R147), the guard (R100 to R105), `Busy`, `ConfigurationError` or, as R107 and R150 have it,
`Success`, by the two status bytes, and the delivery (R154). -/
def Obligations.ChkidleRunsTheGuard : Prop :=
  ∀ (s : State) (t : Target) (r v s1 s2 : Byte), readyFor (chkidleWord t r v) s →
    let c := s.cfg
    (busyFlag c s1 = true →
      Performs s [PortEvent.accept (chkidleWord t r v), PortEvent.read c.offSts s1, PortEvent.deliver (resultWord .busy 0x00#8)]
        { afterCommand s (chkidleWord t r v) .busy 0x00#8 with stsCap := s1, pollcnt := 0#9, timedout := false }) ∧
    (busyFlag c s1 = false →
      let o := if stickyFlag c s2 then TxnOutcome.configurationError else TxnOutcome.success
      Performs s
        ([PortEvent.accept (chkidleWord t r v)] ++ guardEvents c s1 s2 ++ [PortEvent.deliver (resultWord o 0x00#8)])
        { afterCommand s (chkidleWord t r v) o 0x00#8 with stsCap := s2, pollcnt := 0#9, timedout := false })

/-! ## The end of a run, and what the next command finds -/

/-- A run is over only by a delivery, and then it is over for good (R156): a step from a state that is over makes no port
event and leaves it over, and a step that brings a run to its end is the delivery of its last result. The premise says that
a running command has been accepted after the newest delivery; it holds right after reset and every step keeps it. The
lists of words and inputs and the trace are the model's (log 5, log 10). -/
def Obligations.RunsEndAtTheLastDelivery : Prop :=
  OwesResult State.reset ∧
  ∀ s t : State, OwesResult s → step s = .next t →
    OwesResult t ∧
    (runOver s → runOver t ∧ t.trace = s.trace) ∧
    (¬runOver s → runOver t → ∃ res, t.trace = .deliver res :: s.trace)

/-- The acknowledge property of R176: after a command that ran its transfer to `Success`, `DeviceError` or `Timeout`, a
CHKIDLE presented next sees no sticky flag, writes nothing, and ends with `Success`, or with `Busy` where the busy flag
shows. Its premises about the controller are the three of R176, from the guard's last status read on, and that a status read
returns the status register (log 26). -/
def Obligations.NextCheckFindsNoLeftoverFlag : Prop :=
  ∀ (s : State) (w : BitVec 32) (ws : List (BitVec 32)) (setup data : List PortEvent) (go d s1 s2 : Byte) (bs : List Byte)
    (l : Byte) (t : Target) (r v f1 f2 : Byte) (reg : Nat → Byte),
    let c := s.cfg
    let chk := chkidleWord t r v
    let o := classify c (!pollCompleted c l) l
    let transfer := transferEvents c s2 go bs l
    let rest := ackEvents c l ++ data ++ [PortEvent.deliver (resultWord o d)] ++ cleanCheckEvents c chk f1 f2
    readyFor w s → s.cmds = w :: chk :: ws → StartsTransfer c w setup go data d →
    busyFlag c s1 = false → stickyFlag c s2 = false → pollEnds c bs l →
    CleanController c (transfer.length - 1) reg (transfer ++ rest) →
      stickyFlag c f1 = false ∧
      ∃ t' : State, Performs s
        ([PortEvent.accept w] ++ setup ++ [PortEvent.read c.offSts s1] ++ guardClear c s1 ++ transfer ++ rest
          ++ [PortEvent.deliver (resultWord (if busyFlag c f1 then TxnOutcome.busy else TxnOutcome.success) 0x00#8)]) t'
end

