-- ==== Sys2Proof/Laws/Codes.lean ====
section
/-! SUPPORT. The codes of micro-states and outcomes (R66, R69), and the micro-state of a state. -/

namespace Sys2Proof.Machine

@[simp] theorem microOfCode_code (m : MicroState) : microOfCode m.code = some m := by
  cases m <;> rfl

theorem code_of_microOfCode {c : BitVec 6} {m : MicroState} (h : microOfCode c = some m) : m.code = c := by
  have := List.find?_some h
  simpa using this

@[simp] theorem microOfCode_eq_some {c : BitVec 6} {m : MicroState} : microOfCode c = some m ↔ c = m.code :=
  ⟨fun h => (code_of_microOfCode h).symm, fun h => by rw [h, microOfCode_code]⟩

@[simp] theorem code_inj {m n : MicroState} : m.code = n.code ↔ m = n :=
  ⟨fun h => by simpa using congrArg microOfCode h, fun h => by rw [h]⟩

theorem micro_eq_some {s : State} {m : MicroState} : s.micro = some m ↔ s.outcome ≠ 6#3 ∧ s.seq = m.code := by
  unfold State.micro; split <;> simp_all

theorem micro_of_seq {s : State} {m : MicroState} (ho : s.outcome ≠ 6#3) (h : s.seq = m.code) : s.micro = some m :=
  micro_eq_some.mpr ⟨ho, h⟩

@[simp] theorem outcomeOfCode_code (o : TxnOutcome) : outcomeOfCode o.code = some o := by
  cases o <;> rfl

@[simp] theorem outcome_code_listed (o : TxnOutcome) : o.code ≠ 6#3 := by
  cases o <;> decide

end Sys2Proof.Machine
end

