-- ==== Sys2Proof/Laws/State.lean ====
section
/-! SUPPORT. What each named update of the state does to each field, one lemma a field, true by rfl. -/

namespace Sys2Proof.Machine

variable (s : State)

/-! ## State.goto -/

@[simp] theorem State.goto_seq (m : MicroState) : (s.goto m).seq = m.code := rfl
@[simp] theorem State.goto_op (m : MicroState) : (s.goto m).op = s.op := rfl
@[simp] theorem State.goto_tgt (m : MicroState) : (s.goto m).tgt = s.tgt := rfl
@[simp] theorem State.goto_reg (m : MicroState) : (s.goto m).reg = s.reg := rfl
@[simp] theorem State.goto_val (m : MicroState) : (s.goto m).val = s.val := rfl
@[simp] theorem State.goto_auxtmp (m : MicroState) : (s.goto m).auxtmp = s.auxtmp := rfl
@[simp] theorem State.goto_stsCap (m : MicroState) : (s.goto m).stsCap = s.stsCap := rfl
@[simp] theorem State.goto_pollcnt (m : MicroState) : (s.goto m).pollcnt = s.pollcnt := rfl
@[simp] theorem State.goto_timedout (m : MicroState) : (s.goto m).timedout = s.timedout := rfl
@[simp] theorem State.goto_outcome (m : MicroState) : (s.goto m).outcome = s.outcome := rfl
@[simp] theorem State.goto_data (m : MicroState) : (s.goto m).data = s.data := rfl
@[simp] theorem State.goto_resValid (m : MicroState) : (s.goto m).resValid = s.resValid := rfl
@[simp] theorem State.goto_cfg (m : MicroState) : (s.goto m).cfg = s.cfg := rfl
@[simp] theorem State.goto_mapped (m : MicroState) : (s.goto m).mapped = s.mapped := rfl
@[simp] theorem State.goto_cmds (m : MicroState) : (s.goto m).cmds = s.cmds := rfl
@[simp] theorem State.goto_inputs (m : MicroState) : (s.goto m).inputs = s.inputs := rfl
@[simp] theorem State.goto_trace (m : MicroState) : (s.goto m).trace = s.trace := rfl
@[simp] theorem State.goto_surface (m : MicroState) : (s.goto m).surface = s.surface := rfl
@[simp] theorem State.goto_forgotten (m : MicroState) : (s.goto m).forgotten = s.forgotten := rfl

/-! ## finishCode -/

@[simp] theorem finishCode_seq (c : BitVec 3) (d : Byte) : (finishCode c d s).seq = MicroState.sResult.code := rfl
@[simp] theorem finishCode_op (c : BitVec 3) (d : Byte) : (finishCode c d s).op = s.op := rfl
@[simp] theorem finishCode_tgt (c : BitVec 3) (d : Byte) : (finishCode c d s).tgt = s.tgt := rfl
@[simp] theorem finishCode_reg (c : BitVec 3) (d : Byte) : (finishCode c d s).reg = s.reg := rfl
@[simp] theorem finishCode_val (c : BitVec 3) (d : Byte) : (finishCode c d s).val = s.val := rfl
@[simp] theorem finishCode_auxtmp (c : BitVec 3) (d : Byte) : (finishCode c d s).auxtmp = s.auxtmp := rfl
@[simp] theorem finishCode_stsCap (c : BitVec 3) (d : Byte) : (finishCode c d s).stsCap = s.stsCap := rfl
@[simp] theorem finishCode_pollcnt (c : BitVec 3) (d : Byte) : (finishCode c d s).pollcnt = s.pollcnt := rfl
@[simp] theorem finishCode_timedout (c : BitVec 3) (d : Byte) : (finishCode c d s).timedout = s.timedout := rfl
@[simp] theorem finishCode_outcome (c : BitVec 3) (d : Byte) : (finishCode c d s).outcome = c := rfl
@[simp] theorem finishCode_data (c : BitVec 3) (d : Byte) : (finishCode c d s).data = d := rfl
@[simp] theorem finishCode_resValid (c : BitVec 3) (d : Byte) : (finishCode c d s).resValid = true := rfl
@[simp] theorem finishCode_cfg (c : BitVec 3) (d : Byte) : (finishCode c d s).cfg = s.cfg := rfl
@[simp] theorem finishCode_mapped (c : BitVec 3) (d : Byte) : (finishCode c d s).mapped = s.mapped := rfl
@[simp] theorem finishCode_cmds (c : BitVec 3) (d : Byte) : (finishCode c d s).cmds = s.cmds := rfl
@[simp] theorem finishCode_inputs (c : BitVec 3) (d : Byte) : (finishCode c d s).inputs = s.inputs := rfl
@[simp] theorem finishCode_trace (c : BitVec 3) (d : Byte) : (finishCode c d s).trace = s.trace := rfl
@[simp] theorem finishCode_surface (c : BitVec 3) (d : Byte) : (finishCode c d s).surface = s.surface := rfl
@[simp] theorem finishCode_forgotten (c : BitVec 3) (d : Byte) : (finishCode c d s).forgotten = s.forgotten := rfl

/-! ## finish -/

@[simp] theorem finish_seq (o : TxnOutcome) (d : Byte) : (finish o d s).seq = MicroState.sResult.code := rfl
@[simp] theorem finish_op (o : TxnOutcome) (d : Byte) : (finish o d s).op = s.op := rfl
@[simp] theorem finish_tgt (o : TxnOutcome) (d : Byte) : (finish o d s).tgt = s.tgt := rfl
@[simp] theorem finish_reg (o : TxnOutcome) (d : Byte) : (finish o d s).reg = s.reg := rfl
@[simp] theorem finish_val (o : TxnOutcome) (d : Byte) : (finish o d s).val = s.val := rfl
@[simp] theorem finish_auxtmp (o : TxnOutcome) (d : Byte) : (finish o d s).auxtmp = s.auxtmp := rfl
@[simp] theorem finish_stsCap (o : TxnOutcome) (d : Byte) : (finish o d s).stsCap = s.stsCap := rfl
@[simp] theorem finish_pollcnt (o : TxnOutcome) (d : Byte) : (finish o d s).pollcnt = s.pollcnt := rfl
@[simp] theorem finish_timedout (o : TxnOutcome) (d : Byte) : (finish o d s).timedout = s.timedout := rfl
@[simp] theorem finish_outcome (o : TxnOutcome) (d : Byte) : (finish o d s).outcome = o.code := rfl
@[simp] theorem finish_data (o : TxnOutcome) (d : Byte) : (finish o d s).data = d := rfl
@[simp] theorem finish_resValid (o : TxnOutcome) (d : Byte) : (finish o d s).resValid = true := rfl
@[simp] theorem finish_cfg (o : TxnOutcome) (d : Byte) : (finish o d s).cfg = s.cfg := rfl
@[simp] theorem finish_mapped (o : TxnOutcome) (d : Byte) : (finish o d s).mapped = s.mapped := rfl
@[simp] theorem finish_cmds (o : TxnOutcome) (d : Byte) : (finish o d s).cmds = s.cmds := rfl
@[simp] theorem finish_inputs (o : TxnOutcome) (d : Byte) : (finish o d s).inputs = s.inputs := rfl
@[simp] theorem finish_trace (o : TxnOutcome) (d : Byte) : (finish o d s).trace = s.trace := rfl
@[simp] theorem finish_surface (o : TxnOutcome) (d : Byte) : (finish o d s).surface = s.surface := rfl
@[simp] theorem finish_forgotten (o : TxnOutcome) (d : Byte) : (finish o d s).forgotten = s.forgotten := rfl

/-! ## State.useInput -/

@[simp] theorem State.useInput_seq : (s.useInput).seq = s.seq := rfl
@[simp] theorem State.useInput_op : (s.useInput).op = s.op := rfl
@[simp] theorem State.useInput_tgt : (s.useInput).tgt = s.tgt := rfl
@[simp] theorem State.useInput_reg : (s.useInput).reg = s.reg := rfl
@[simp] theorem State.useInput_val : (s.useInput).val = s.val := rfl
@[simp] theorem State.useInput_auxtmp : (s.useInput).auxtmp = s.auxtmp := rfl
@[simp] theorem State.useInput_stsCap : (s.useInput).stsCap = s.stsCap := rfl
@[simp] theorem State.useInput_pollcnt : (s.useInput).pollcnt = s.pollcnt := rfl
@[simp] theorem State.useInput_timedout : (s.useInput).timedout = s.timedout := rfl
@[simp] theorem State.useInput_outcome : (s.useInput).outcome = s.outcome := rfl
@[simp] theorem State.useInput_data : (s.useInput).data = s.data := rfl
@[simp] theorem State.useInput_resValid : (s.useInput).resValid = s.resValid := rfl
@[simp] theorem State.useInput_cfg : (s.useInput).cfg = s.cfg := rfl
@[simp] theorem State.useInput_mapped : (s.useInput).mapped = s.mapped := rfl
@[simp] theorem State.useInput_cmds : (s.useInput).cmds = s.cmds := rfl
@[simp] theorem State.useInput_inputs : (s.useInput).inputs = s.inputs.tail := rfl
@[simp] theorem State.useInput_trace : (s.useInput).trace = s.trace := rfl
@[simp] theorem State.useInput_surface : (s.useInput).surface = s.surface := rfl
@[simp] theorem State.useInput_forgotten : (s.useInput).forgotten = s.forgotten := rfl

/-! ## State.record -/

@[simp] theorem State.record_seq (e : PortEvent) : (s.record e).seq = s.seq := rfl
@[simp] theorem State.record_op (e : PortEvent) : (s.record e).op = s.op := rfl
@[simp] theorem State.record_tgt (e : PortEvent) : (s.record e).tgt = s.tgt := rfl
@[simp] theorem State.record_reg (e : PortEvent) : (s.record e).reg = s.reg := rfl
@[simp] theorem State.record_val (e : PortEvent) : (s.record e).val = s.val := rfl
@[simp] theorem State.record_auxtmp (e : PortEvent) : (s.record e).auxtmp = s.auxtmp := rfl
@[simp] theorem State.record_stsCap (e : PortEvent) : (s.record e).stsCap = s.stsCap := rfl
@[simp] theorem State.record_pollcnt (e : PortEvent) : (s.record e).pollcnt = s.pollcnt := rfl
@[simp] theorem State.record_timedout (e : PortEvent) : (s.record e).timedout = s.timedout := rfl
@[simp] theorem State.record_outcome (e : PortEvent) : (s.record e).outcome = s.outcome := rfl
@[simp] theorem State.record_data (e : PortEvent) : (s.record e).data = s.data := rfl
@[simp] theorem State.record_resValid (e : PortEvent) : (s.record e).resValid = s.resValid := rfl
@[simp] theorem State.record_cfg (e : PortEvent) : (s.record e).cfg = s.cfg := rfl
@[simp] theorem State.record_mapped (e : PortEvent) : (s.record e).mapped = s.mapped := rfl
@[simp] theorem State.record_cmds (e : PortEvent) : (s.record e).cmds = s.cmds := rfl
@[simp] theorem State.record_inputs (e : PortEvent) : (s.record e).inputs = s.inputs := rfl
@[simp] theorem State.record_trace (e : PortEvent) : (s.record e).trace = e :: s.trace := rfl
@[simp] theorem State.record_surface (e : PortEvent) : (s.record e).surface = s.surface := rfl
@[simp] theorem State.record_forgotten (e : PortEvent) : (s.record e).forgotten = s.forgotten := rfl

/-! ## State.readDone -/

@[simp] theorem State.readDone_seq (off : Offset) (b : Byte) : (s.readDone off b).seq = s.seq := rfl
@[simp] theorem State.readDone_op (off : Offset) (b : Byte) : (s.readDone off b).op = s.op := rfl
@[simp] theorem State.readDone_tgt (off : Offset) (b : Byte) : (s.readDone off b).tgt = s.tgt := rfl
@[simp] theorem State.readDone_reg (off : Offset) (b : Byte) : (s.readDone off b).reg = s.reg := rfl
@[simp] theorem State.readDone_val (off : Offset) (b : Byte) : (s.readDone off b).val = s.val := rfl
@[simp] theorem State.readDone_auxtmp (off : Offset) (b : Byte) : (s.readDone off b).auxtmp = s.auxtmp := rfl
@[simp] theorem State.readDone_stsCap (off : Offset) (b : Byte) : (s.readDone off b).stsCap = s.stsCap := rfl
@[simp] theorem State.readDone_pollcnt (off : Offset) (b : Byte) : (s.readDone off b).pollcnt = s.pollcnt := rfl
@[simp] theorem State.readDone_timedout (off : Offset) (b : Byte) : (s.readDone off b).timedout = s.timedout := rfl
@[simp] theorem State.readDone_outcome (off : Offset) (b : Byte) : (s.readDone off b).outcome = s.outcome := rfl
@[simp] theorem State.readDone_data (off : Offset) (b : Byte) : (s.readDone off b).data = s.data := rfl
@[simp] theorem State.readDone_resValid (off : Offset) (b : Byte) : (s.readDone off b).resValid = s.resValid := rfl
@[simp] theorem State.readDone_cfg (off : Offset) (b : Byte) : (s.readDone off b).cfg = s.cfg := rfl
@[simp] theorem State.readDone_mapped (off : Offset) (b : Byte) : (s.readDone off b).mapped = s.mapped := rfl
@[simp] theorem State.readDone_cmds (off : Offset) (b : Byte) : (s.readDone off b).cmds = s.cmds := rfl
@[simp] theorem State.readDone_inputs (off : Offset) (b : Byte) : (s.readDone off b).inputs = s.inputs.tail := rfl
@[simp] theorem State.readDone_trace (off : Offset) (b : Byte) : (s.readDone off b).trace = .read off b :: s.trace := rfl
@[simp] theorem State.readDone_surface (off : Offset) (b : Byte) : (s.readDone off b).surface = s.surface := rfl
@[simp] theorem State.readDone_forgotten (off : Offset) (b : Byte) : (s.readDone off b).forgotten = s.forgotten := rfl

/-! ## State.writeDone -/

@[simp] theorem State.writeDone_seq (off : Offset) (v : Byte) : (s.writeDone off v).seq = s.seq := rfl
@[simp] theorem State.writeDone_op (off : Offset) (v : Byte) : (s.writeDone off v).op = s.op := rfl
@[simp] theorem State.writeDone_tgt (off : Offset) (v : Byte) : (s.writeDone off v).tgt = s.tgt := rfl
@[simp] theorem State.writeDone_reg (off : Offset) (v : Byte) : (s.writeDone off v).reg = s.reg := rfl
@[simp] theorem State.writeDone_val (off : Offset) (v : Byte) : (s.writeDone off v).val = s.val := rfl
@[simp] theorem State.writeDone_auxtmp (off : Offset) (v : Byte) : (s.writeDone off v).auxtmp = s.auxtmp := rfl
@[simp] theorem State.writeDone_stsCap (off : Offset) (v : Byte) : (s.writeDone off v).stsCap = s.stsCap := rfl
@[simp] theorem State.writeDone_pollcnt (off : Offset) (v : Byte) : (s.writeDone off v).pollcnt = s.pollcnt := rfl
@[simp] theorem State.writeDone_timedout (off : Offset) (v : Byte) : (s.writeDone off v).timedout = s.timedout := rfl
@[simp] theorem State.writeDone_outcome (off : Offset) (v : Byte) : (s.writeDone off v).outcome = s.outcome := rfl
@[simp] theorem State.writeDone_data (off : Offset) (v : Byte) : (s.writeDone off v).data = s.data := rfl
@[simp] theorem State.writeDone_resValid (off : Offset) (v : Byte) : (s.writeDone off v).resValid = s.resValid := rfl
@[simp] theorem State.writeDone_cfg (off : Offset) (v : Byte) : (s.writeDone off v).cfg = s.cfg := rfl
@[simp] theorem State.writeDone_mapped (off : Offset) (v : Byte) : (s.writeDone off v).mapped = s.mapped := rfl
@[simp] theorem State.writeDone_cmds (off : Offset) (v : Byte) : (s.writeDone off v).cmds = s.cmds := rfl
@[simp] theorem State.writeDone_inputs (off : Offset) (v : Byte) : (s.writeDone off v).inputs = s.inputs.tail := rfl
@[simp] theorem State.writeDone_trace (off : Offset) (v : Byte) : (s.writeDone off v).trace = .write off v :: s.trace := rfl
@[simp] theorem State.writeDone_surface (off : Offset) (v : Byte) : (s.writeDone off v).surface = s.surface.write off.toNat v := rfl
@[simp] theorem State.writeDone_forgotten (off : Offset) (v : Byte) : (s.writeDone off v).forgotten = s.forgotten := rfl

/-! ## State.delayOver -/

@[simp] theorem State.delayOver_seq (us : BitVec 16) : (s.delayOver us).seq = s.seq := rfl
@[simp] theorem State.delayOver_op (us : BitVec 16) : (s.delayOver us).op = s.op := rfl
@[simp] theorem State.delayOver_tgt (us : BitVec 16) : (s.delayOver us).tgt = s.tgt := rfl
@[simp] theorem State.delayOver_reg (us : BitVec 16) : (s.delayOver us).reg = s.reg := rfl
@[simp] theorem State.delayOver_val (us : BitVec 16) : (s.delayOver us).val = s.val := rfl
@[simp] theorem State.delayOver_auxtmp (us : BitVec 16) : (s.delayOver us).auxtmp = s.auxtmp := rfl
@[simp] theorem State.delayOver_stsCap (us : BitVec 16) : (s.delayOver us).stsCap = s.stsCap := rfl
@[simp] theorem State.delayOver_pollcnt (us : BitVec 16) : (s.delayOver us).pollcnt = s.pollcnt := rfl
@[simp] theorem State.delayOver_timedout (us : BitVec 16) : (s.delayOver us).timedout = s.timedout := rfl
@[simp] theorem State.delayOver_outcome (us : BitVec 16) : (s.delayOver us).outcome = s.outcome := rfl
@[simp] theorem State.delayOver_data (us : BitVec 16) : (s.delayOver us).data = s.data := rfl
@[simp] theorem State.delayOver_resValid (us : BitVec 16) : (s.delayOver us).resValid = s.resValid := rfl
@[simp] theorem State.delayOver_cfg (us : BitVec 16) : (s.delayOver us).cfg = s.cfg := rfl
@[simp] theorem State.delayOver_mapped (us : BitVec 16) : (s.delayOver us).mapped = s.mapped := rfl
@[simp] theorem State.delayOver_cmds (us : BitVec 16) : (s.delayOver us).cmds = s.cmds := rfl
@[simp] theorem State.delayOver_inputs (us : BitVec 16) : (s.delayOver us).inputs = s.inputs.tail := rfl
@[simp] theorem State.delayOver_trace (us : BitVec 16) : (s.delayOver us).trace = .delay us :: s.trace := rfl
@[simp] theorem State.delayOver_surface (us : BitVec 16) : (s.delayOver us).surface = s.surface := rfl
@[simp] theorem State.delayOver_forgotten (us : BitVec 16) : (s.delayOver us).forgotten = s.forgotten := rfl

/-! ## State.takeCommand -/

@[simp] theorem State.takeCommand_seq : (s.takeCommand).seq = s.seq := rfl
@[simp] theorem State.takeCommand_op : (s.takeCommand).op = s.op := rfl
@[simp] theorem State.takeCommand_tgt : (s.takeCommand).tgt = s.tgt := rfl
@[simp] theorem State.takeCommand_reg : (s.takeCommand).reg = s.reg := rfl
@[simp] theorem State.takeCommand_val : (s.takeCommand).val = s.val := rfl
@[simp] theorem State.takeCommand_auxtmp : (s.takeCommand).auxtmp = s.auxtmp := rfl
@[simp] theorem State.takeCommand_stsCap : (s.takeCommand).stsCap = s.stsCap := rfl
@[simp] theorem State.takeCommand_pollcnt : (s.takeCommand).pollcnt = s.pollcnt := rfl
@[simp] theorem State.takeCommand_timedout : (s.takeCommand).timedout = s.timedout := rfl
@[simp] theorem State.takeCommand_outcome : (s.takeCommand).outcome = s.outcome := rfl
@[simp] theorem State.takeCommand_data : (s.takeCommand).data = s.data := rfl
@[simp] theorem State.takeCommand_resValid : (s.takeCommand).resValid = s.resValid := rfl
@[simp] theorem State.takeCommand_cfg : (s.takeCommand).cfg = s.cfg := rfl
@[simp] theorem State.takeCommand_mapped : (s.takeCommand).mapped = s.mapped := rfl
@[simp] theorem State.takeCommand_cmds : (s.takeCommand).cmds = s.cmds.tail := rfl
@[simp] theorem State.takeCommand_inputs : (s.takeCommand).inputs = s.inputs := rfl
@[simp] theorem State.takeCommand_trace : (s.takeCommand).trace = s.trace := rfl
@[simp] theorem State.takeCommand_surface : (s.takeCommand).surface = s.surface := rfl
@[simp] theorem State.takeCommand_forgotten : (s.takeCommand).forgotten = s.forgotten := rfl

/-! ## State.leaveWaiting -/

@[simp] theorem State.leaveWaiting_seq (w : BitVec 32) : (s.leaveWaiting w).seq = s.seq := rfl
@[simp] theorem State.leaveWaiting_op (w : BitVec 32) : (s.leaveWaiting w).op = s.op := rfl
@[simp] theorem State.leaveWaiting_tgt (w : BitVec 32) : (s.leaveWaiting w).tgt = s.tgt := rfl
@[simp] theorem State.leaveWaiting_reg (w : BitVec 32) : (s.leaveWaiting w).reg = s.reg := rfl
@[simp] theorem State.leaveWaiting_val (w : BitVec 32) : (s.leaveWaiting w).val = s.val := rfl
@[simp] theorem State.leaveWaiting_auxtmp (w : BitVec 32) : (s.leaveWaiting w).auxtmp = s.auxtmp := rfl
@[simp] theorem State.leaveWaiting_stsCap (w : BitVec 32) : (s.leaveWaiting w).stsCap = s.stsCap := rfl
@[simp] theorem State.leaveWaiting_pollcnt (w : BitVec 32) : (s.leaveWaiting w).pollcnt = s.pollcnt := rfl
@[simp] theorem State.leaveWaiting_timedout (w : BitVec 32) : (s.leaveWaiting w).timedout = s.timedout := rfl
@[simp] theorem State.leaveWaiting_outcome (w : BitVec 32) : (s.leaveWaiting w).outcome = s.outcome := rfl
@[simp] theorem State.leaveWaiting_data (w : BitVec 32) : (s.leaveWaiting w).data = s.data := rfl
@[simp] theorem State.leaveWaiting_resValid (w : BitVec 32) : (s.leaveWaiting w).resValid = s.resValid := rfl
@[simp] theorem State.leaveWaiting_cfg (w : BitVec 32) : (s.leaveWaiting w).cfg = s.cfg := rfl
@[simp] theorem State.leaveWaiting_mapped (w : BitVec 32) : (s.leaveWaiting w).mapped = s.mapped := rfl
@[simp] theorem State.leaveWaiting_cmds (w : BitVec 32) : (s.leaveWaiting w).cmds = w :: s.cmds := rfl
@[simp] theorem State.leaveWaiting_inputs (w : BitVec 32) : (s.leaveWaiting w).inputs = s.inputs := rfl
@[simp] theorem State.leaveWaiting_trace (w : BitVec 32) : (s.leaveWaiting w).trace = s.trace := rfl
@[simp] theorem State.leaveWaiting_surface (w : BitVec 32) : (s.leaveWaiting w).surface = s.surface := rfl
@[simp] theorem State.leaveWaiting_forgotten (w : BitVec 32) : (s.leaveWaiting w).forgotten = s.forgotten := rfl

/-! ## latch -/

@[simp] theorem latch_seq (w : BitVec 32) : (latch w s).seq = s.seq := rfl
@[simp] theorem latch_op (w : BitVec 32) : (latch w s).op = cmdOp w := rfl
@[simp] theorem latch_tgt (w : BitVec 32) : (latch w s).tgt = cmdTarget w := rfl
@[simp] theorem latch_reg (w : BitVec 32) : (latch w s).reg = cmdRegaddr w := rfl
@[simp] theorem latch_val (w : BitVec 32) : (latch w s).val = cmdValue w := rfl
@[simp] theorem latch_auxtmp (w : BitVec 32) : (latch w s).auxtmp = s.auxtmp := rfl
@[simp] theorem latch_stsCap (w : BitVec 32) : (latch w s).stsCap = s.stsCap := rfl
@[simp] theorem latch_pollcnt (w : BitVec 32) : (latch w s).pollcnt = 0#9 := rfl
@[simp] theorem latch_timedout (w : BitVec 32) : (latch w s).timedout = false := rfl
@[simp] theorem latch_outcome (w : BitVec 32) : (latch w s).outcome = s.outcome := rfl
@[simp] theorem latch_data (w : BitVec 32) : (latch w s).data = 0x00#8 := rfl
@[simp] theorem latch_resValid (w : BitVec 32) : (latch w s).resValid = false := rfl
@[simp] theorem latch_cfg (w : BitVec 32) : (latch w s).cfg = s.cfg := rfl
@[simp] theorem latch_mapped (w : BitVec 32) : (latch w s).mapped = s.mapped := rfl
@[simp] theorem latch_cmds (w : BitVec 32) : (latch w s).cmds = s.cmds := rfl
@[simp] theorem latch_inputs (w : BitVec 32) : (latch w s).inputs = s.inputs.tail := rfl
@[simp] theorem latch_trace (w : BitVec 32) : (latch w s).trace = .accept w :: s.trace := rfl
@[simp] theorem latch_surface (w : BitVec 32) : (latch w s).surface = s.surface := rfl
@[simp] theorem latch_forgotten (w : BitVec 32) : (latch w s).forgotten = s.forgotten := rfl

/-! ## applyReset -/

@[simp] theorem applyReset_seq : (applyReset s).seq = 0x00#6 := rfl
@[simp] theorem applyReset_op : (applyReset s).op = 0#2 := rfl
@[simp] theorem applyReset_tgt : (applyReset s).tgt = 0x00#7 := rfl
@[simp] theorem applyReset_reg : (applyReset s).reg = 0x00#8 := rfl
@[simp] theorem applyReset_val : (applyReset s).val = 0x00#8 := rfl
@[simp] theorem applyReset_auxtmp : (applyReset s).auxtmp = 0x00#8 := rfl
@[simp] theorem applyReset_stsCap : (applyReset s).stsCap = 0x00#8 := rfl
@[simp] theorem applyReset_pollcnt : (applyReset s).pollcnt = 0#9 := rfl
@[simp] theorem applyReset_timedout : (applyReset s).timedout = false := rfl
@[simp] theorem applyReset_outcome : (applyReset s).outcome = 0#3 := rfl
@[simp] theorem applyReset_data : (applyReset s).data = 0x00#8 := rfl
@[simp] theorem applyReset_resValid : (applyReset s).resValid = false := rfl
@[simp] theorem applyReset_cfg : (applyReset s).cfg = s.cfg := rfl
@[simp] theorem applyReset_mapped : (applyReset s).mapped = s.mapped := rfl
@[simp] theorem applyReset_cmds : (applyReset s).cmds = s.cmds := rfl
@[simp] theorem applyReset_inputs : (applyReset s).inputs = s.inputs := rfl
@[simp] theorem applyReset_trace : (applyReset s).trace = s.trace := rfl
@[simp] theorem applyReset_surface : (applyReset s).surface = s.surface := rfl
@[simp] theorem applyReset_forgotten : (applyReset s).forgotten = (outstanding s).toList ++ s.forgotten := rfl

/-! ## presentWord -/

@[simp] theorem presentWord_seq (w : BitVec 32) : (presentWord w s).seq = s.seq := rfl
@[simp] theorem presentWord_op (w : BitVec 32) : (presentWord w s).op = s.op := rfl
@[simp] theorem presentWord_tgt (w : BitVec 32) : (presentWord w s).tgt = s.tgt := rfl
@[simp] theorem presentWord_reg (w : BitVec 32) : (presentWord w s).reg = s.reg := rfl
@[simp] theorem presentWord_val (w : BitVec 32) : (presentWord w s).val = s.val := rfl
@[simp] theorem presentWord_auxtmp (w : BitVec 32) : (presentWord w s).auxtmp = s.auxtmp := rfl
@[simp] theorem presentWord_stsCap (w : BitVec 32) : (presentWord w s).stsCap = s.stsCap := rfl
@[simp] theorem presentWord_pollcnt (w : BitVec 32) : (presentWord w s).pollcnt = s.pollcnt := rfl
@[simp] theorem presentWord_timedout (w : BitVec 32) : (presentWord w s).timedout = s.timedout := rfl
@[simp] theorem presentWord_outcome (w : BitVec 32) : (presentWord w s).outcome = s.outcome := rfl
@[simp] theorem presentWord_data (w : BitVec 32) : (presentWord w s).data = s.data := rfl
@[simp] theorem presentWord_resValid (w : BitVec 32) : (presentWord w s).resValid = s.resValid := rfl
@[simp] theorem presentWord_cfg (w : BitVec 32) : (presentWord w s).cfg = s.cfg := rfl
@[simp] theorem presentWord_mapped (w : BitVec 32) : (presentWord w s).mapped = s.mapped := rfl
@[simp] theorem presentWord_cmds (w : BitVec 32) : (presentWord w s).cmds = s.cmds ++ [w] := rfl
@[simp] theorem presentWord_inputs (w : BitVec 32) : (presentWord w s).inputs = .quiet :: s.inputs.tail := rfl
@[simp] theorem presentWord_trace (w : BitVec 32) : (presentWord w s).trace = s.trace := rfl
@[simp] theorem presentWord_surface (w : BitVec 32) : (presentWord w s).surface = s.surface := rfl
@[simp] theorem presentWord_forgotten (w : BitVec 32) : (presentWord w s).forgotten = s.forgotten := rfl

/-! ## decideRead -/

@[simp] theorem decideRead_seq : (decideRead s).seq = s.seq := by
  unfold decideRead; split <;> rfl
@[simp] theorem decideRead_op : (decideRead s).op = s.op := by
  unfold decideRead; split <;> rfl
@[simp] theorem decideRead_tgt : (decideRead s).tgt = s.tgt := by
  unfold decideRead; split <;> rfl
@[simp] theorem decideRead_reg : (decideRead s).reg = s.reg := by
  unfold decideRead; split <;> rfl
@[simp] theorem decideRead_val : (decideRead s).val = s.val := by
  unfold decideRead; split <;> rfl
@[simp] theorem decideRead_auxtmp : (decideRead s).auxtmp = s.auxtmp := by
  unfold decideRead; split <;> rfl
@[simp] theorem decideRead_stsCap : (decideRead s).stsCap = s.stsCap := by
  unfold decideRead; split <;> rfl
@[simp] theorem decideRead_pollcnt : (decideRead s).pollcnt = s.pollcnt := by
  unfold decideRead; split <;> rfl
@[simp] theorem decideRead_timedout : (decideRead s).timedout = s.timedout := by
  unfold decideRead; split <;> rfl
theorem decideRead_outcome :
    (decideRead s).outcome = if s.op = 1#2 then (classify s.cfg s.timedout s.stsCap).code else s.outcome := by
  unfold decideRead; split <;> rfl
@[simp] theorem decideRead_data : (decideRead s).data = s.data := by
  unfold decideRead; split <;> rfl
@[simp] theorem decideRead_resValid : (decideRead s).resValid = s.resValid := by
  unfold decideRead; split <;> rfl
@[simp] theorem decideRead_cfg : (decideRead s).cfg = s.cfg := by
  unfold decideRead; split <;> rfl
@[simp] theorem decideRead_mapped : (decideRead s).mapped = s.mapped := by
  unfold decideRead; split <;> rfl
@[simp] theorem decideRead_cmds : (decideRead s).cmds = s.cmds := by
  unfold decideRead; split <;> rfl
@[simp] theorem decideRead_inputs : (decideRead s).inputs = s.inputs := by
  unfold decideRead; split <;> rfl
@[simp] theorem decideRead_trace : (decideRead s).trace = s.trace := by
  unfold decideRead; split <;> rfl
@[simp] theorem decideRead_surface : (decideRead s).surface = s.surface := by
  unfold decideRead; split <;> rfl
@[simp] theorem decideRead_forgotten : (decideRead s).forgotten = s.forgotten := by
  unfold decideRead; split <;> rfl

end Sys2Proof.Machine
end

