-- ==== Sys2Proof/Laws/Facts.lean ====
section
/-! SUPPORT. What a well-formed configuration gives (spec/00_scope.md rule R7), and the invariant of a state under the
updates that do not touch the block's registers. -/

namespace Sys2Proof.Machine

/-! ## A well-formed configuration -/

section Config
variable {c : Config} (h : configOk c = true)
include h

theorem configOk_parts : offsetsDistinct c = true ∧ statusMasksOk c = true ∧ controlMasksOk c = true
    ∧ auxMasksOk c = true ∧ pollOk c = true ∧ windowOk c = true := by
  simpa [configOk, and_assoc] using h

/-- R7 (a). -/
theorem configOk_offsets : (configOffsets c).Nodup := by
  simpa [offsetsDistinct] using (configOk_parts h).1

/-- R7 (b). -/
theorem configOk_masks : (∀ v ∈ configStatusMasks c, v ∈ singleBits) ∧ (configStatusMasks c).Nodup := by
  simpa [statusMasksOk, oneBit] using (configOk_parts h).2.1

/-- R7 (e). -/
theorem configOk_pollMax : 0#9 < c.pollMax := by
  have : pollOk c = true := (configOk_parts h).2.2.2.2.1
  simp [pollOk] at this
  bv_omega

/-- R7 (f): the window test as a statement about numbers. -/
theorem configOk_window (t : Target) :
    inReservedWindow c t = true ↔ c.reservedBase.toNat ≤ t.toNat ∧ t.toNat ≤ c.reservedBase.toNat + 7 := by
  have hw : windowOk c = true := (configOk_parts h).2.2.2.2.2
  simp only [windowOk, Bool.and_eq_true, beq_iff_eq, decide_eq_true_eq] at hw
  obtain ⟨hl, hb⟩ := hw
  simp only [inReservedWindow, reservedTop, hl, Bool.and_eq_true, decide_eq_true_eq]
  constructor <;> intro hh <;> constructor <;> bv_omega

end Config

/-- Two different single bits do not overlap. -/
theorem singleBits_disjoint {a b : Byte} (ha : a ∈ singleBits) (hb : b ∈ singleBits) (h : a ≠ b) : a &&& b = 0#8 := by
  have : ∀ a ∈ singleBits, ∀ b ∈ singleBits, a ≠ b → a &&& b = 0#8 := by decide
  exact this a ha b hb h

/-! ## The newest accept or deliver of a trace -/

section Trace
variable (evs : List PortEvent)

@[simp] theorem lastDelivered_accept (w : BitVec 32) : lastDelivered (.accept w :: evs) = false := rfl
@[simp] theorem lastDelivered_deliver (res : BitVec 11) : lastDelivered (.deliver res :: evs) = true := rfl
@[simp] theorem lastDelivered_read (off : Offset) (b : Byte) : lastDelivered (.read off b :: evs) = lastDelivered evs := rfl
@[simp] theorem lastDelivered_write (off : Offset) (b : Byte) : lastDelivered (.write off b :: evs) = lastDelivered evs := rfl
@[simp] theorem lastDelivered_delay (us : BitVec 16) : lastDelivered (.delay us :: evs) = lastDelivered evs := rfl

end Trace

/-- No sticky flag shows, as an equation of bytes. -/
theorem stickyFlag_eq_false {c : Config} {b : Byte} : stickyFlag c b = false ↔ b &&& stsStickyMask c = 0#8 := by
  simp [stickyFlag, isSet]

/-! ## The invariant -/

variable {s : State} {m m' : MicroState}

/-- The micro-state of a state that meets the invariant is the invariant's. -/
theorem Inv.micro (h : Inv s m) : s.micro = some m := micro_of_seq h.outcomeListed h.seqListed

theorem Inv.micro_unique (h : Inv s m) (hm : s.micro = some m') : m' = m := by
  rw [h.micro] at hm; exact (Option.some.inj hm).symm

/-- Using up an input keeps the invariant. -/
theorem Inv.useInput (h : Inv s m) : Inv s.useInput m := by
  obtain ⟨h1, h2, h3, h4, h5, h6, h7, h8, h9⟩ := h
  refine ⟨h1, h2, h3, h4, ?_, ?_, ?_, ?_, h9⟩
  · cases m <;> exact h5
  · cases m <;> exact h6
  · cases m <;> exact h7
  · cases m <;> exact h8

/-- A word that the host presents keeps the invariant. -/
theorem Inv.present (h : Inv s m) (w : BitVec 32) : Inv (presentWord w s) m := by
  obtain ⟨h1, h2, h3, h4, h5, h6, h7, h8, h9⟩ := h
  refine ⟨h1, h2, h3, h4, ?_, ?_, ?_, ?_, h9⟩
  · cases m <;> exact h5
  · cases m <;> exact h6
  · cases m <;> exact h7
  · cases m <;> exact h8

end Sys2Proof.Machine
end

