-- ==== Sys2Proof/Laws/Words.lean ====
section
/-! SUPPORT. The fields of assembled words (R61, R63, R67). -/

namespace Sys2Proof

theorem append_toNat {n m : Nat} (a : BitVec n) (b : BitVec m) : (a ++ b).toNat = a.toNat * 2 ^ m + b.toNat := by
  rw [BitVec.toNat_append, ← Nat.shiftLeft_add_eq_or_of_lt b.isLt, Nat.shiftLeft_eq]

/-- A CMD32 word as a number: the sum of its shifted fields (R61). -/
theorem cmdWord_toNat (o : Byte) (t : Target) (r v : Byte) :
    (cmdWord o t r v).toNat = o.toNat * 2 ^ 24 + t.toNat * 2 ^ 16 + r.toNat * 2 ^ 8 + v.toNat := by
  refine (append_toNat o (0#1 ++ (t ++ (r ++ v)))).trans ?_
  rw [append_toNat 0#1 (t ++ (r ++ v)), append_toNat t (r ++ v), append_toNat r v]
  simp only [BitVec.toNat_ofNat]
  ring

/-- An RA17 word as a number: the sum of its shifted fields (R67). -/
theorem raWord_toNat (we : BitVec 1) (off : Offset) (v : Byte) :
    (raWord we off v).toNat = we.toNat * 2 ^ 16 + off.toNat * 2 ^ 8 + v.toNat := by
  refine (append_toNat we (off ++ v)).trans ?_
  rw [append_toNat off v]
  ring

variable (o : Byte) (t : Target) (r v : Byte)

theorem cmdOpcode_cmdWord : cmdOpcode (cmdWord o t r v) = o := by
  apply BitVec.eq_of_toNat_eq
  simp only [cmdOpcode, BitVec.extractLsb'_toNat, cmdWord_toNat, Nat.shiftRight_eq_div_pow]
  have := o.isLt; have := t.isLt; have := r.isLt; have := v.isLt; omega

theorem cmdZ_cmdWord : cmdZ (cmdWord o t r v) = 0#1 := by
  apply BitVec.eq_of_toNat_eq
  simp only [cmdZ, BitVec.extractLsb'_toNat, cmdWord_toNat, Nat.shiftRight_eq_div_pow, BitVec.toNat_ofNat]
  have := o.isLt; have := t.isLt; have := r.isLt; have := v.isLt; omega

theorem cmdTarget_cmdWord : cmdTarget (cmdWord o t r v) = t := by
  apply BitVec.eq_of_toNat_eq
  simp only [cmdTarget, BitVec.extractLsb'_toNat, cmdWord_toNat, Nat.shiftRight_eq_div_pow]
  have := o.isLt; have := t.isLt; have := r.isLt; have := v.isLt; omega

theorem cmdRegaddr_cmdWord : cmdRegaddr (cmdWord o t r v) = r := by
  apply BitVec.eq_of_toNat_eq
  simp only [cmdRegaddr, BitVec.extractLsb'_toNat, cmdWord_toNat, Nat.shiftRight_eq_div_pow]
  have := o.isLt; have := t.isLt; have := r.isLt; have := v.isLt; omega

theorem cmdValue_cmdWord : cmdValue (cmdWord o t r v) = v := by
  apply BitVec.eq_of_toNat_eq
  simp only [cmdValue, BitVec.extractLsb'_toNat, cmdWord_toNat, Nat.shiftRight_eq_div_pow]
  have := o.isLt; have := t.isLt; have := r.isLt; have := v.isLt; omega

/-- `OP` takes the low two bits of `OPCODE` (R63). -/
theorem cmdOp_cmdWord : cmdOp (cmdWord o t r v) = o.extractLsb' 0 2 := by
  apply BitVec.eq_of_toNat_eq
  simp only [cmdOp, BitVec.extractLsb'_toNat, cmdWord_toNat, Nat.shiftRight_eq_div_pow]
  have := o.isLt; have := t.isLt; have := r.isLt; have := v.isLt; omega

/-- The operands `latch` takes from the word of a command (R63). -/
theorem rdregWord_fields : cmdOp (rdregWord t r v) = 1#2 ∧ cmdTarget (rdregWord t r v) = t
    ∧ cmdRegaddr (rdregWord t r v) = r ∧ cmdValue (rdregWord t r v) = v :=
  ⟨cmdOp_cmdWord _ _ _ _, cmdTarget_cmdWord _ _ _ _, cmdRegaddr_cmdWord _ _ _ _, cmdValue_cmdWord _ _ _ _⟩

theorem wrregWord_fields : cmdOp (wrregWord t r v) = 2#2 ∧ cmdTarget (wrregWord t r v) = t
    ∧ cmdRegaddr (wrregWord t r v) = r ∧ cmdValue (wrregWord t r v) = v :=
  ⟨cmdOp_cmdWord _ _ _ _, cmdTarget_cmdWord _ _ _ _, cmdRegaddr_cmdWord _ _ _ _, cmdValue_cmdWord _ _ _ _⟩

theorem chkidleWord_fields : cmdOp (chkidleWord t r v) = 3#2 ∧ cmdTarget (chkidleWord t r v) = t
    ∧ cmdRegaddr (chkidleWord t r v) = r ∧ cmdValue (chkidleWord t r v) = v :=
  ⟨cmdOp_cmdWord _ _ _ _, cmdTarget_cmdWord _ _ _ _, cmdRegaddr_cmdWord _ _ _ _, cmdValue_cmdWord _ _ _ _⟩

variable (we : BitVec 1) (off : Offset)

theorem raWe_raWord : raWe (raWord we off v) = we := by
  apply BitVec.eq_of_toNat_eq
  simp only [raWe, BitVec.extractLsb'_toNat, raWord_toNat, Nat.shiftRight_eq_div_pow]
  have := we.isLt; have := off.isLt; have := v.isLt; omega

theorem raOffset_raWord : raOffset (raWord we off v) = off := by
  apply BitVec.eq_of_toNat_eq
  simp only [raOffset, BitVec.extractLsb'_toNat, raWord_toNat, Nat.shiftRight_eq_div_pow]
  have := we.isLt; have := off.isLt; have := v.isLt; omega

theorem raWdata_raWord : raWdata (raWord we off v) = v := by
  apply BitVec.eq_of_toNat_eq
  simp only [raWdata, BitVec.extractLsb'_toNat, raWord_toNat, Nat.shiftRight_eq_div_pow]
  have := we.isLt; have := off.isLt; have := v.isLt; omega

/-- A word with bit 23 clear is the word of its own fields. -/
theorem cmdWord_fields (w : BitVec 32) (h : cmdZ w = 0#1) :
    cmdWord (cmdOpcode w) (cmdTarget w) (cmdRegaddr w) (cmdValue w) = w := by
  have h := congrArg BitVec.toNat h
  apply BitVec.eq_of_toNat_eq
  simp only [cmdZ, cmdOpcode, cmdTarget, cmdRegaddr, cmdValue, BitVec.extractLsb'_toNat, cmdWord_toNat,
    Nat.shiftRight_eq_div_pow, BitVec.toNat_ofNat] at h ⊢
  have := w.isLt; omega

/-- An RA17 word is the word of its own fields. -/
theorem raWord_fields (w : BitVec 17) : raWord (raWe w) (raOffset w) (raWdata w) = w := by
  apply BitVec.eq_of_toNat_eq
  simp only [raWe, raOffset, raWdata, BitVec.extractLsb'_toNat, raWord_toNat, Nat.shiftRight_eq_div_pow]
  have := w.isLt; omega

end Sys2Proof
end

