-- ==== Sys2Proof/Laws/Step.lean ====
section
/-! SUPPORT. What each shared operation and one step can do: an inversion lemma ("if it answers next, then …") and a
forward lemma ("on such a state it answers …") for each, which proofs cite instead of unfolding. -/

namespace Sys2Proof.Machine

variable {s t : State}

/-! ## The shared operations -/

theorem whenIssued_next {i : Instr} {perform : MicroState → Host.Outcome State Fault Refusal}
    (h : whenIssued i perform s = .next t) :
    ∃ m, s.micro = some m ∧ microOp m s = some i ∧ s.mapped = true ∧ perform m = .next t := by
  unfold whenIssued at h
  split at h
  · cases h
  · rename_i m hm
    split at h
    · rename_i hi
      split at h
      · rename_i hmap
        exact ⟨m, hm, hi, hmap, h⟩
      · cases h
    · cases h

theorem whenIssued_eq {i : Instr} {m : MicroState} {perform : MicroState → Host.Outcome State Fault Refusal}
    (hm : s.micro = some m) (hi : microOp m s = some i) (hmap : s.mapped = true) :
    whenIssued i perform s = perform m := by
  simp [whenIssued, hm, hi, hmap]

theorem acceptWord_next {w : BitVec 32} {dispatch : State → State} (h : acceptWord w dispatch s = .next t) :
    (cmdReady s = true ∧ configOk s.cfg = true ∧ s.outcome ≠ 6#3 ∧ t = dispatch (latch w s))
      ∨ (cmdReady s = false ∧ t = s.leaveWaiting w) := by
  unfold acceptWord at h
  split at h
  · cases h
  · rename_i m hm
    split at h
    · split at h
      · cases h
        exact .inl ⟨‹_›, ‹_›, (micro_eq_some.mp hm).1, rfl⟩
      · cases h
    · cases h
      exact .inr ⟨by simpa using ‹¬cmdReady s = true›, rfl⟩

theorem acceptWord_ready {w : BitVec 32} {dispatch : State → State} (hs : s.seq = MicroState.sIdle.code)
    (hmap : s.mapped = true) (hc : configOk s.cfg = true) (ho : s.outcome ≠ 6#3) :
    acceptWord w dispatch s = .next (dispatch (latch w s)) := by
  simp [acceptWord, micro_of_seq ho hs, cmdReady, hs, hmap, hc]

theorem deliver_next (h : deliver s = .next t) :
    s.mapped = true ∧
      ((∃ rest, s.inputs = .take :: rest ∧ t = (s.useInput.record (.deliver (resWord s))).goto .sIdle)
        ∨ t = s.useInput) := by
  unfold deliver at h
  split at h
  · refine ⟨‹_›, ?_⟩
    split at h
    · cases h; exact .inl ⟨_, ‹_›, rfl⟩
    · cases h; exact .inr rfl
  · cases h

/-! ## The micro-operations -/

theorem execRegrd_next {off : Offset} (h : execRegrd off s = .next t) :
    ∃ m, s.micro = some m ∧ microOp m s = some (.regrd off) ∧ s.mapped = true ∧
      ((∃ b rest, s.inputs = .answer b :: rest ∧ afterRead m b (s.readDone off b) = .next t) ∨ t = s.useInput) := by
  obtain ⟨m, hm, hi, hmap, hp⟩ := whenIssued_next h
  refine ⟨m, hm, hi, hmap, ?_⟩
  split at hp
  · exact .inl ⟨_, _, ‹_›, hp⟩
  · cases hp; exact .inr rfl

theorem execRegwr_next {off : Offset} {v : Byte} (h : execRegwr off v s = .next t) :
    ∃ m, s.micro = some m ∧ microOp m s = some (.regwr off v) ∧ s.mapped = true ∧
      ((∃ rest, s.inputs = .written :: rest ∧ afterWrite m (s.writeDone off v) = .next t) ∨ t = s.useInput) := by
  obtain ⟨m, hm, hi, hmap, hp⟩ := whenIssued_next h
  refine ⟨m, hm, hi, hmap, ?_⟩
  split at hp
  · exact .inl ⟨_, ‹_›, hp⟩
  · cases hp; exact .inr rfl

theorem execDelay_next {us : BitVec 16} (h : execDelay us s = .next t) :
    ∃ m, s.micro = some m ∧ microOp m s = some (.delay us) ∧ s.mapped = true ∧
      ((∃ rest, s.inputs = .delayDone :: rest ∧ afterDelay m (s.delayOver us) = .next t) ∨ t = s.useInput) := by
  obtain ⟨m, hm, hi, hmap, hp⟩ := whenIssued_next h
  refine ⟨m, hm, hi, hmap, ?_⟩
  split at hp
  · exact .inl ⟨_, ‹_›, hp⟩
  · cases hp; exact .inr rfl

section Forward
variable {m : MicroState} {rest : List EnvEvent}

theorem execRegrd_answered {off : Offset} {b : Byte} (hm : s.micro = some m) (hi : microOp m s = some (.regrd off))
    (hmap : s.mapped = true) (hin : s.inputs = .answer b :: rest) :
    execRegrd off s = afterRead m b (s.readDone off b) := by
  simp [execRegrd, whenIssued_eq hm hi hmap, hin]

theorem execRegwr_written {off : Offset} {v : Byte} (hm : s.micro = some m) (hi : microOp m s = some (.regwr off v))
    (hmap : s.mapped = true) (hin : s.inputs = .written :: rest) :
    execRegwr off v s = afterWrite m (s.writeDone off v) := by
  simp [execRegwr, whenIssued_eq hm hi hmap, hin]

theorem execDelay_done {us : BitVec 16} (hm : s.micro = some m) (hi : microOp m s = some (.delay us))
    (hmap : s.mapped = true) (hin : s.inputs = .delayDone :: rest) :
    execDelay us s = afterDelay m (s.delayOver us) := by
  simp [execDelay, whenIssued_eq hm hi hmap, hin]

end Forward

/-! ## What the sequencer fetches -/

/-- A micro-state with a micro-operation is neither `S_IDLE` nor `S_RESULT`. -/
theorem microOp_some {m : MicroState} {i : Instr} (h : microOp m s = some i) : m ≠ .sIdle ∧ m ≠ .sResult := by
  constructor <;> rintro rfl <;> cases h

/-- The sequencer issues micro-operations only, never a command. -/
theorem microOp_kind {m : MicroState} {i : Instr} (h : microOp m s = some i) :
    (∃ off, i = .regrd off) ∨ (∃ off v, i = .regwr off v) ∨ ∃ us, i = .delay us := by
  cases m <;> simp [microOp, rmwClear, acknowledge] at h <;> try subst h <;> simp
  obtain ⟨go, -, rfl⟩ := h
  simp

theorem fetch_microOp {m : MicroState} {i : Instr} (hm : s.micro = some m) (hi : microOp m s = some i) :
    fetch s = .microOp i := by
  obtain ⟨h1, h2⟩ := microOp_some hi
  unfold fetch
  rw [hm]
  split
  · cases ‹some m = none›
  · cases ‹some m = some _›; exact absurd rfl h1
  · cases ‹some m = some _›; exact absurd rfl h2
  · cases ‹some m = some _›; rw [hi]

theorem fetch_cases (s : State) :
    (s.micro = none ∧ fetch s = .refused .unlistedCode)
      ∨ (s.micro = some .sIdle ∧ ((∃ w ws, s.cmds = w :: ws ∧ s.mapped = true ∧ fetch s = .command w)
          ∨ ((s.cmds = [] ∨ s.mapped = false) ∧ fetch s = .waiting)))
      ∨ (s.micro = some .sResult ∧ fetch s = .result)
      ∨ (∃ m i, s.micro = some m ∧ microOp m s = some i ∧ fetch s = .microOp i)
      ∨ (∃ m, s.micro = some m ∧ m ≠ .sIdle ∧ m ≠ .sResult ∧ microOp m s = none ∧ fetch s = .refused .noRowForOp) := by
  cases hm : s.micro with
  | none => exact .inl ⟨rfl, by simp [fetch, hm]⟩
  | some m =>
    by_cases h1 : m = .sIdle
    · subst h1
      refine .inr (.inl ⟨rfl, ?_⟩)
      cases hc : s.cmds with
      | nil => exact .inr ⟨.inl rfl, by simp [fetch, hm, hc]⟩
      | cons w ws =>
        cases hmap : s.mapped with
        | true => exact .inl ⟨w, ws, rfl, rfl, by simp [fetch, hm, hc, hmap]⟩
        | false => exact .inr ⟨.inr rfl, by simp [fetch, hm, hc, hmap]⟩
    · by_cases h2 : m = .sResult
      · subst h2; exact .inr (.inr (.inl ⟨rfl, by simp [fetch, hm]⟩))
      · cases hi : microOp m s with
        | some i => exact .inr (.inr (.inr (.inl ⟨m, i, rfl, hi, fetch_microOp hm hi⟩)))
        | none =>
          refine .inr (.inr (.inr (.inr ⟨m, rfl, h1, h2, hi, ?_⟩)))
          unfold fetch
          rw [hm]
          split
          · cases ‹some m = none›
          · cases ‹some m = some _›; exact absurd rfl h1
          · cases ‹some m = some _›; exact absurd rfl h2
          · cases ‹some m = some _›; rw [hi]

/-! ## The dispatch of a word (R148) -/

/-- What the block does with an accepted word after the latching. -/
def dispatchOf (w : BitVec 32) : State → State :=
  match decodeCmd32 w with
  | .ok (.rdreg _ _ _) => fun s => s.goto .sRAux1Rd
  | .ok (.wrreg _ _ _) => dispatchWrite
  | .ok (.chkidle _ _ _) => fun s => s.goto .sGStsRd1
  | .ok (.regrd _) | .ok (.regwr _ _) | .ok (.delay _) | .error _ => finish .illegalCommand 0x00#8

theorem decodeCmd32_cases (w : BitVec 32) :
    (∃ e, decodeCmd32 w = .error e)
      ∨ (∃ t r v, decodeCmd32 w = .ok (.rdreg t r v) ∧ rdregWord t r v = w)
      ∨ (∃ t r v, decodeCmd32 w = .ok (.wrreg t r v) ∧ wrregWord t r v = w)
      ∨ (∃ t r v, decodeCmd32 w = .ok (.chkidle t r v) ∧ chkidleWord t r v = w) := by
  unfold decodeCmd32
  split
  · exact .inl ⟨_, rfl⟩
  · have hz : cmdZ w = 0#1 := not_not.mp ‹_›
    have hw := cmdWord_fields w hz
    split
    · rename_i ho; rw [ho] at hw; exact .inr (.inl ⟨_, _, _, rfl, hw⟩)
    · split
      · rename_i ho; rw [ho] at hw; exact .inr (.inr (.inl ⟨_, _, _, rfl, hw⟩))
      · split
        · rename_i ho; rw [ho] at hw; exact .inr (.inr (.inr ⟨_, _, _, rfl, hw⟩))
        · exact .inl ⟨_, rfl⟩

/-- Whatever the word, the block's answer to it is the accept step with `dispatchOf`. -/
theorem blockStep_command {w : BitVec 32} (h : fetch s = .command w) :
    blockStep s = acceptWord w (dispatchOf w) s.takeCommand := by
  unfold blockStep dispatchOf
  rw [h]
  simp only [decode]
  obtain ⟨e, he⟩ | ⟨t, r, v, he, hw⟩ | ⟨t, r, v, he, hw⟩ | ⟨t, r, v, he, hw⟩ := decodeCmd32_cases w <;>
    simp only [he]
  · rfl
  · simp only [exec, execRdreg, hw]
  · simp only [exec, execWrreg, hw]
  · simp only [exec, execChkidle, hw]

/-! ## The block's own step -/

/-- Everything the block's own step can do. -/
inductive BlockMove (s : State) : State → Prop where
  /-- nothing: it waits -/
  | waits : BlockMove s s.useInput
  /-- it accepts the word at the command port -/
  | accepts (w : BitVec 32) (ws : List (BitVec 32)) (hm : s.micro = some .sIdle) (hc : s.cmds = w :: ws)
      (hmap : s.mapped = true) (hcfg : configOk s.cfg = true) :
      BlockMove s (dispatchOf w (latch w s.takeCommand))
  /-- a read is answered -/
  | reads (m : MicroState) (off : Offset) (b : Byte) (rest : List EnvEvent) (t : State) (hm : s.micro = some m)
      (hi : microOp m s = some (.regrd off)) (hmap : s.mapped = true) (hin : s.inputs = .answer b :: rest)
      (ha : afterRead m b (s.readDone off b) = .next t) : BlockMove s t
  /-- a write is complete -/
  | writes (m : MicroState) (off : Offset) (v : Byte) (rest : List EnvEvent) (t : State) (hm : s.micro = some m)
      (hi : microOp m s = some (.regwr off v)) (hmap : s.mapped = true) (hin : s.inputs = .written :: rest)
      (ha : afterWrite m (s.writeDone off v) = .next t) : BlockMove s t
  /-- a delay is over -/
  | delays (m : MicroState) (us : BitVec 16) (rest : List EnvEvent) (t : State) (hm : s.micro = some m)
      (hi : microOp m s = some (.delay us)) (hmap : s.mapped = true) (hin : s.inputs = .delayDone :: rest)
      (ha : afterDelay m (s.delayOver us) = .next t) : BlockMove s t
  /-- the result is taken -/
  | delivers (rest : List EnvEvent) (hm : s.micro = some .sResult) (hmap : s.mapped = true)
      (hin : s.inputs = .take :: rest) :
      BlockMove s ((s.useInput.record (.deliver (resWord s))).goto .sIdle)

theorem blockStep_next (h : blockStep s = .next t) : BlockMove s t := by
  obtain ⟨-, hf⟩ | ⟨hm, ⟨w, ws, hc, hmap, hf⟩ | ⟨-, hf⟩⟩ | ⟨hm, hf⟩ | ⟨m, i, hm, hi, hf⟩ | ⟨m, hm, -, -, -, hf⟩ :=
    fetch_cases s
  · simp [blockStep, hf] at h
  · rw [blockStep_command hf] at h
    have hr : cmdReady s.takeCommand = true := by simp [cmdReady, (micro_eq_some.mp hm).2, hmap]
    obtain ⟨-, hcfg, -, rfl⟩ | ⟨hn, -⟩ := acceptWord_next h
    · exact .accepts w ws hm hc hmap hcfg
    · rw [hr] at hn; cases hn
  · simp only [blockStep, hf] at h; cases h; exact .waits
  · simp only [blockStep, hf] at h
    obtain ⟨hmap, ⟨rest, hin, rfl⟩ | rfl⟩ := deliver_next h
    · exact .delivers rest hm hmap hin
    · exact .waits
  · simp only [blockStep, hf] at h
    obtain ⟨off, rfl⟩ | ⟨off, v, rfl⟩ | ⟨us, rfl⟩ := microOp_kind hi
    · obtain ⟨m', hm', hi', hmap, ⟨b, rest, hin, ha⟩ | rfl⟩ := execRegrd_next h
      · exact .reads m' off b rest t hm' hi' hmap hin ha
      · exact .waits
    · obtain ⟨m', hm', hi', hmap, ⟨rest, hin, ha⟩ | rfl⟩ := execRegwr_next h
      · exact .writes m' off v rest t hm' hi' hmap hin ha
      · exact .waits
    · obtain ⟨m', hm', hi', hmap, ⟨rest, hin, ha⟩ | rfl⟩ := execDelay_next h
      · exact .delays m' us rest t hm' hi' hmap hin ha
      · exact .waits
  · simp [blockStep, hf] at h

/-! ## One step -/

/-- Everything one step can do. -/
theorem step_next (h : step s = .next t) :
    (∃ rest, s.inputs = .reset :: rest ∧ t = applyReset s.useInput)
      ∨ (∃ b rest, s.inputs = .mapPin b :: rest ∧ (b = true ∨ s.seq = MicroState.sIdle.code)
          ∧ t = { s.useInput with mapped := b })
      ∨ (∃ w rest, s.inputs = .present w :: rest ∧ BlockMove (presentWord w s) t)
      ∨ ((∀ e, s.inputs.head? = some e → e ≠ .reset ∧ (∀ b, e ≠ .mapPin b) ∧ ∀ w, e ≠ .present w)
          ∧ BlockMove s t) := by
  unfold step at h
  split at h
  · cases h; exact .inl ⟨_, ‹_›, rfl⟩
  · rename_i b rest hin
    unfold changeMapped at h
    split at h
    · cases h
    · rename_i hn
      cases h
      refine .inr (.inl ⟨b, rest, hin, ?_, rfl⟩)
      cases b <;> simp_all
  · exact .inr (.inr (.inl ⟨_, _, ‹_›, blockStep_next h⟩))
  · rename_i h1 h2 h3
    refine .inr (.inr (.inr ⟨?_, blockStep_next h⟩))
    intro e he
    cases hin : s.inputs with
    | nil => simp [hin] at he
    | cons e' rest =>
      simp only [hin, List.head?_cons, Option.some.injEq] at he
      subst he
      exact ⟨fun hr => h1 rest (by rw [hin, hr]), fun b hb => h2 b rest (by rw [hin, hb]),
        fun w hw => h3 w rest (by rw [hin, hw])⟩

section Forward
variable {m : MicroState} {rest : List EnvEvent}

theorem step_answer {off : Offset} {b : Byte} (hin : s.inputs = .answer b :: rest) (hm : s.micro = some m)
    (hi : microOp m s = some (.regrd off)) (hmap : s.mapped = true) :
    step s = afterRead m b (s.readDone off b) := by
  simp only [step, hin, blockStep, fetch_microOp hm hi, exec]
  exact execRegrd_answered hm hi hmap hin

theorem step_written {off : Offset} {v : Byte} (hin : s.inputs = .written :: rest) (hm : s.micro = some m)
    (hi : microOp m s = some (.regwr off v)) (hmap : s.mapped = true) :
    step s = afterWrite m (s.writeDone off v) := by
  simp only [step, hin, blockStep, fetch_microOp hm hi, exec]
  exact execRegwr_written hm hi hmap hin

theorem step_delayDone {us : BitVec 16} (hin : s.inputs = .delayDone :: rest) (hm : s.micro = some m)
    (hi : microOp m s = some (.delay us)) (hmap : s.mapped = true) :
    step s = afterDelay m (s.delayOver us) := by
  simp only [step, hin, blockStep, fetch_microOp hm hi, exec]
  exact execDelay_done hm hi hmap hin

theorem step_quiet_accept {w : BitVec 32} {ws : List (BitVec 32)} (hin : s.inputs = .quiet :: rest)
    (hm : s.micro = some .sIdle) (hc : s.cmds = w :: ws) (hmap : s.mapped = true) (hcfg : configOk s.cfg = true) :
    step s = .next (dispatchOf w (latch w s.takeCommand)) := by
  have hf : fetch s = .command w := by simp [fetch, hm, hc, hmap]
  obtain ⟨ho, hs⟩ := micro_eq_some.mp hm
  simp only [step, hin, blockStep_command hf]
  exact acceptWord_ready (by simpa using hs) (by simpa using hmap) (by simpa using hcfg) (by simpa using ho)

theorem step_take (hin : s.inputs = .take :: rest) (hm : s.micro = some .sResult) (hmap : s.mapped = true) :
    step s = .next ((s.useInput.record (.deliver (resWord s))).goto .sIdle) := by
  have hf : fetch s = .result := by simp [fetch, hm]
  simp [step, hin, blockStep, hf, deliver, hmap]

end Forward

end Sys2Proof.Machine
end

