-- ==== Sys2Proof/Laws/Moves.lean ====
section
/-! SUPPORT. What the rows of the transition table (spec/45_sequencer_fsm.md rule R149) leave alone, where they may
lead, and the port event a step makes. -/

namespace Sys2Proof.Machine

variable {s t : State}

/-- What no row of the transition table changes: the request latches, the parameters, the pin, the ports' queues and
the records. -/
structure SameFrame (s t : State) : Prop where
  op : t.op = s.op
  tgt : t.tgt = s.tgt
  reg : t.reg = s.reg
  val : t.val = s.val
  cfg : t.cfg = s.cfg
  mapped : t.mapped = s.mapped
  cmds : t.cmds = s.cmds
  inputs : t.inputs = s.inputs
  trace : t.trace = s.trace
  surface : t.surface = s.surface
  forgotten : t.forgotten = s.forgotten

/-- The micro-states that may follow a read (R149). -/
def readSuccessors : MicroState → List MicroState
  | .sRAux1Rd => [.sRAux1Wr]
  | .sRAux2Rd => [.sRAux2Wr]
  | .sWAuxRd => [.sWAuxWr]
  | .sGStsRd1 => [.sResult, .sGStsClr, .sGStsRd2]
  | .sGStsRd2 => [.sResult, .sStartWr]
  | .sPStsRd => [.sAckWr, .sPDelay, .sDataRd, .sResult]
  | .sDataRd => [.sResult]
  | .sIdle | .sRAux1Wr | .sRAddrWr | .sRCmdWr | .sRAux2Wr | .sWAddrWr | .sWCmdWr | .sWDataWr | .sWAuxWr
  | .sGStsClr | .sStartWr | .sPDelay | .sAckWr | .sResult => []

/-- The micro-states that may follow a write (R149). -/
def writeSuccessors : MicroState → List MicroState
  | .sRAux1Wr => [.sRAddrWr]
  | .sRAddrWr => [.sRCmdWr]
  | .sRCmdWr => [.sRAux2Rd]
  | .sRAux2Wr => [.sGStsRd1]
  | .sWAddrWr => [.sWCmdWr]
  | .sWCmdWr => [.sWDataWr]
  | .sWDataWr => [.sWAuxRd]
  | .sWAuxWr => [.sGStsRd1]
  | .sGStsClr => [.sGStsRd2]
  | .sStartWr => [.sPDelay]
  | .sAckWr => [.sDataRd, .sResult]
  | .sIdle | .sRAux1Rd | .sRAux2Rd | .sWAuxRd | .sGStsRd1 | .sGStsRd2 | .sPDelay | .sPStsRd | .sDataRd
  | .sResult => []

theorem afterRead_frame {m : MicroState} {b : Byte} (h : afterRead m b s = .next t) : SameFrame s t := by
  cases m <;> simp only [afterRead] at h
  case sGStsRd2 =>
    unfold afterGuardRead2 guardPassed at h; dsimp only at h; split at h
    · cases h; constructor <;> rfl
    · split at h
      · cases h; constructor <;> rfl
      · split at h <;> cases h; constructor <;> rfl
  case sGStsRd1 =>
    cases h; unfold afterGuardRead1; dsimp only; split
    · constructor <;> rfl
    · split <;> constructor <;> rfl
  case sPStsRd =>
    cases h; unfold afterPollRead pollTimedOut; dsimp only; split
    · constructor <;> simp
    · split
      · split
        · constructor <;> simp
        · split <;> constructor <;> simp
      · constructor <;> simp
  all_goals cases h
  all_goals constructor <;> rfl

theorem afterRead_seq {m : MicroState} {b : Byte} (h : afterRead m b s = .next t) :
    ∃ m' ∈ readSuccessors m, t.seq = m'.code := by
  cases m <;> simp only [afterRead] at h
  case sGStsRd2 =>
    unfold afterGuardRead2 guardPassed at h; dsimp only at h; split at h
    · cases h; simp [readSuccessors]
    · split at h
      · cases h; simp [readSuccessors]
      · split at h <;> cases h; simp [readSuccessors]
  case sGStsRd1 =>
    cases h; unfold afterGuardRead1; dsimp only; split
    · simp [readSuccessors]
    · split <;> simp [readSuccessors]
  case sPStsRd =>
    cases h; unfold afterPollRead pollTimedOut; dsimp only; split
    · simp [readSuccessors]
    · split
      · split
        · simp [readSuccessors]
        · split <;> simp [readSuccessors]
      · simp [readSuccessors]
  all_goals cases h
  all_goals simp [readSuccessors]

theorem afterWrite_frame {m : MicroState} (h : afterWrite m s = .next t) : SameFrame s t := by
  cases m <;> simp only [afterWrite] at h
  case sAckWr =>
    unfold afterAck at h; split at h
    · cases h; constructor <;> rfl
    · split at h <;> cases h; constructor <;> rfl
  all_goals cases h
  all_goals constructor <;> rfl

theorem afterWrite_seq {m : MicroState} (h : afterWrite m s = .next t) :
    ∃ m' ∈ writeSuccessors m, t.seq = m'.code := by
  cases m <;> simp only [afterWrite] at h
  case sAckWr =>
    unfold afterAck at h; split at h
    · cases h; simp [writeSuccessors]
    · split at h <;> cases h; simp [writeSuccessors]
  all_goals cases h
  all_goals simp [writeSuccessors]

theorem afterDelay_next {m : MicroState} (h : afterDelay m s = .next t) : m = .sPDelay ∧ t = s.goto .sPStsRd := by
  cases m <;> simp only [afterDelay] at h
  all_goals cases h
  exact ⟨rfl, rfl⟩

theorem dispatchOf_frame (w : BitVec 32) : SameFrame s (dispatchOf w s) := by
  unfold dispatchOf dispatchWrite
  obtain ⟨e, he⟩ | ⟨t, r, v, he, -⟩ | ⟨t, r, v, he, -⟩ | ⟨t, r, v, he, -⟩ := decodeCmd32_cases w <;> simp only [he]
  · constructor <;> rfl
  · constructor <;> rfl
  · split <;> constructor <;> rfl
  · constructor <;> rfl

/-- Where a dispatch may lead: the three entries and the result (R148). -/
theorem dispatchOf_seq (w : BitVec 32) :
    ∃ m ∈ [MicroState.sRAux1Rd, .sWAddrWr, .sGStsRd1, .sResult], (dispatchOf w s).seq = m.code := by
  unfold dispatchOf dispatchWrite
  obtain ⟨e, he⟩ | ⟨t, r, v, he, -⟩ | ⟨t, r, v, he, -⟩ | ⟨t, r, v, he, -⟩ := decodeCmd32_cases w <;> simp only [he]
  · simp
  · simp
  · split <;> simp
  · simp

/-- A move either waits or makes one port event, and the record of writes follows that event. -/
theorem blockMove_event (h : BlockMove s t) :
    t = s.useInput ∨ ∃ e, t.trace = e :: s.trace ∧ t.surface = surfaceAfter [e] s.surface := by
  cases h with
  | waits => exact .inl rfl
  | accepts w ws hm hc hmap hcfg =>
    exact .inr ⟨.accept w, by rw [(dispatchOf_frame w).trace]; simp,
      by rw [(dispatchOf_frame w).surface]; simp [surfaceAfter]⟩
  | reads m off b rest t hm hi hmap hin ha =>
    exact .inr ⟨.read off b, by rw [(afterRead_frame ha).trace]; simp,
      by rw [(afterRead_frame ha).surface]; simp [surfaceAfter]⟩
  | writes m off v rest t hm hi hmap hin ha =>
    exact .inr ⟨.write off v, by rw [(afterWrite_frame ha).trace]; simp,
      by rw [(afterWrite_frame ha).surface]; simp [surfaceAfter]⟩
  | delays m us rest t hm hi hmap hin ha =>
    obtain ⟨-, rfl⟩ := afterDelay_next ha
    exact .inr ⟨.delay us, by simp, by simp [surfaceAfter]⟩
  | delivers rest hm hmap hin => exact .inr ⟨_, rfl, by simp [surfaceAfter]⟩

/-- A step with nothing to disturb it is the block's own step. -/
theorem step_calm (h : undisturbed s) (hp : ∀ w rest, s.inputs ≠ .present w :: rest) : step s = blockStep s := by
  unfold step
  split
  · exact absurd rfl (h _ (by rw [‹s.inputs = _›]; rfl)).1
  · exact absurd rfl ((h _ (by rw [‹s.inputs = _›]; rfl)).2 _)
  · exact absurd ‹_› (hp _ _)
  · rfl

/-- A state with a reserved code has no micro-state. -/
theorem micro_none (h : s.outcome = 6#3 ∨ ∀ m : MicroState, s.seq ≠ m.code) : s.micro = none := by
  cases hm : s.micro with
  | none => rfl
  | some m =>
    obtain ⟨h1, h2⟩ := micro_eq_some.mp hm
    exact h.elim (fun h => absurd h h1) (fun h => absurd h2 (h m))

end Sys2Proof.Machine
end

