-- ==== Sys2Proof/Laws/Late.lean ====
section
/-! SUPPORT. What a reset forgets and what the coming inputs decide (spec/70_reset_and_hazards.md rule R193): the
outstanding request, the forgotten ones, and that nothing but the use of an input looks at the inputs to come. -/

namespace Sys2Proof.Machine

variable {s t : State}

/-! ## The outstanding request and the forgotten ones -/

theorem outstanding_of_micro {m : MicroState} (hm : s.micro = some m) :
    outstanding s = if s.mapped then microOp m s else none := by simp [outstanding, hm]

/-- An issued micro-operation is the outstanding request. -/
theorem outstanding_of_microOp {m : MicroState} {i : Instr} (hm : s.micro = some m) (hi : microOp m s = some i)
    (hmap : s.mapped = true) : outstanding s = some i := by
  rw [outstanding_of_micro hm, hmap, if_pos rfl, hi]

/-- An idle block, and one that holds a result out, awaits nothing. -/
theorem outstanding_none (h : s.seq = MicroState.sIdle.code ∨ s.seq = MicroState.sResult.code) : outstanding s = none := by
  cases hm : s.micro with
  | none => simp [outstanding, hm]
  | some m =>
    have hs := (micro_eq_some.mp hm).2
    rw [hs, code_inj, code_inj] at h
    obtain rfl | rfl := h
    all_goals simp [outstanding_of_micro hm, microOp]

/-- The block's own step forgets nothing. -/
theorem blockMove_forgotten (h : BlockMove s t) : t.forgotten = s.forgotten := by
  cases h with
  | waits => rfl
  | accepts w => rw [(dispatchOf_frame w).forgotten]; rfl
  | reads m off b rest t hm hi hmap hin ha => rw [(afterRead_frame ha).forgotten]; rfl
  | writes m off v rest t hm hi hmap hin ha => rw [(afterWrite_frame ha).forgotten]; rfl
  | delays m us rest t hm hi hmap hin ha => obtain ⟨-, rfl⟩ := afterDelay_next ha; rfl
  | delivers => rfl

/-! ## Other inputs to come -/

/-- The same state with other inputs to come. -/
abbrev State.withInputs (l : List EnvEvent) (s : State) : State := { s with inputs := l }

/-- The state an outcome holds, changed by `f`. -/
def onNext (f : State → State) : Host.Outcome State Fault Refusal → Host.Outcome State Fault Refusal
  | .next s => .next (f s)
  | .fault r => .fault r
  | .refused r => .refused r

@[simp] theorem onNext_next (f : State → State) : onNext f (.next s) = .next (f s) := rfl
@[simp] theorem onNext_fault (f : State → State) (r : Fault) : onNext f (.fault r) = .fault r := rfl
@[simp] theorem onNext_refused (f : State → State) (r : Refusal) : onNext f (.refused r) = .refused r := rfl

theorem nextOf_onNext (f : State → State) (o : Host.Outcome State Fault Refusal) :
    nextOf (onNext f o) = (nextOf o).map f := by cases o <;> rfl

theorem onNext_congr {f g : State → State} {o : Host.Outcome State Fault Refusal} (h : ∀ t, o = .next t → f t = g t) :
    onNext f o = onNext g o := by
  cases o with
  | next s => exact congrArg _ (h s rfl)
  | fault r => rfl
  | refused r => rfl

theorem microOp_withInputs (m : MicroState) (l : List EnvEvent) : microOp m (s.withInputs l) = microOp m s := by
  cases m <;> rfl

theorem fetch_withInputs (l : List EnvEvent) : fetch (s.withInputs l) = fetch s := by
  unfold fetch
  simp only [microOp_withInputs]
  rfl

theorem outstanding_withInputs (l : List EnvEvent) : outstanding (s.withInputs l) = outstanding s := by
  unfold outstanding
  simp only [microOp_withInputs]
  rfl

theorem afterRead_withInputs (m : MicroState) (b : Byte) (l : List EnvEvent) :
    afterRead m b (s.withInputs l) = onNext (State.withInputs l) (afterRead m b s) := by
  cases m <;> try rfl
  case sGStsRd1 => simp only [afterRead, afterGuardRead1]; split_ifs <;> rfl
  case sGStsRd2 => simp only [afterRead, afterGuardRead2, guardPassed]; split_ifs <;> rfl
  case sPStsRd => simp only [afterRead, afterPollRead, pollTimedOut, decideRead]; split_ifs <;> rfl

theorem afterWrite_withInputs (m : MicroState) (l : List EnvEvent) :
    afterWrite m (s.withInputs l) = onNext (State.withInputs l) (afterWrite m s) := by
  cases m <;> try rfl
  case sAckWr => simp only [afterWrite, afterAck]; split_ifs <;> rfl

theorem dispatchOf_withInputs (w : BitVec 32) (l : List EnvEvent) :
    dispatchOf w (s.withInputs l) = (dispatchOf w s).withInputs l := by
  unfold dispatchOf dispatchWrite
  obtain ⟨e, he⟩ | ⟨t, r, v, he, -⟩ | ⟨t, r, v, he, -⟩ | ⟨t, r, v, he, -⟩ := decodeCmd32_cases w <;> simp only [he]
  · rfl
  · rfl
  · split <;> rfl
  · rfl

end Sys2Proof.Machine
end

