-- ==== Sys2Proof/Laws/PerInstr.lean ====
section
/-! SUPPORT. For each instruction: its word lies in the row that spec/opcode_table.json gives its mnemonic, by the row's
match and mask. -/

namespace Sys2Proof.Laws.TableRow

open Sys2Proof

/-- A port word of a format, as a number, agrees with a row's match under its mask. -/
def inRow (mask mtch : Nat) (w : Nat) : Bool := w &&& mask == mtch

/-- The word of an instruction lies in its row of the opcode table (R62, R67, R68). -/
def Statement (i : Instr) : Prop :=
  match i, encode i with
  | .rdreg _ _ _, .cmd32 w => inRow 0xFF800000 0x01000000 w.toNat = true
  | .wrreg _ _ _, .cmd32 w => inRow 0xFF800000 0x02000000 w.toNat = true
  | .chkidle _ _ _, .cmd32 w => inRow 0xFF800000 0x03000000 w.toNat = true
  | .regrd _, .ra17 w => inRow 0x100FF 0x00000 w.toNat = true
  | .regwr _ _, .ra17 w => inRow 0x10000 0x10000 w.toNat = true
  | .delay us, .dly16 w => w = us
  | _, _ => False

/-- Masking the top nine of 32 bits. -/
theorem and_top9 (n : Nat) (h : n < 2 ^ 32) : n &&& 0xFF800000 = n / 2 ^ 23 * 2 ^ 23 := by
  have e : n &&& 0xFF800000 = (n >>> 23) <<< 23 := by
    apply Nat.eq_of_testBit_eq
    intro i
    rw [Nat.testBit_and, Nat.testBit_shiftLeft, Nat.testBit_shiftRight]
    by_cases h1 : 23 ≤ i
    · by_cases h2 : i < 32
      · have : Nat.testBit 0xFF800000 i = true := by interval_cases i <;> rfl
        simp [this, h1]
      · have : n.testBit i = false := Nat.testBit_lt_two_pow (lt_of_lt_of_le h (Nat.pow_le_pow_right (by omega) (by omega)))
        have e2 : 23 + (i - 23) = i := by omega
        simp [this, e2]
    · have : Nat.testBit 0xFF800000 i = false := by
        have : i < 23 := by omega
        interval_cases i <;> rfl
      simp [this, h1]
  rw [e, Nat.shiftLeft_eq, Nat.shiftRight_eq_div_pow]

theorem cmd_row (o : Byte) (t : Target) (r v : Byte) :
    inRow 0xFF800000 (o.toNat * 2 ^ 24) (cmdWord o t r v).toNat = true := by
  unfold inRow
  rw [and_top9 _ (cmdWord o t r v).isLt, cmdWord_toNat]
  have := o.isLt; have := t.isLt; have := r.isLt; have := v.isLt
  simp only [beq_iff_eq]
  omega

theorem rdreg (t : Target) (r v : Byte) : Statement (.rdreg t r v) := cmd_row 0x01#8 t r v

theorem wrreg (t : Target) (r v : Byte) : Statement (.wrreg t r v) := cmd_row 0x02#8 t r v

theorem chkidle (t : Target) (r v : Byte) : Statement (.chkidle t r v) := cmd_row 0x03#8 t r v

theorem regrd (off : Offset) : Statement (.regrd off) := by
  have h : ∀ off : Offset, inRow 0x100FF 0x00000 (raWord 0#1 off 0x00#8).toNat = true := by decide +kernel
  exact h off

theorem regwr (off : Offset) (v : Byte) : Statement (.regwr off v) := by
  have h : (raWord 1#1 off v).toNat / 2 ^ 16 = 1 := by
    rw [raWord_toNat]
    have := off.isLt; have := v.isLt
    simp only [BitVec.toNat_ofNat]
    omega
  have hb : (raWord 1#1 off v).toNat &&& 0x10000 = 0x10000 := by
    have := Nat.and_two_pow (raWord 1#1 off v).toNat 16
    rw [show (0x10000 : Nat) = 2 ^ 16 from rfl, this, Nat.testBit_eq_decide_div_mod_eq, h]
    rfl
  show inRow 0x10000 0x10000 (raWord 1#1 off v).toNat = true
  unfold inRow
  rw [hb]
  rfl

theorem delay (us : BitVec 16) : Statement (.delay us) := rfl

end Sys2Proof.Laws.TableRow
end

