-- ==== Sys2Proof/Laws/Runs.lean ====
section
/-! SUPPORT. How a run is put together from its steps: one lemma for each kind of port event, which says what the rest of
the run has to start from. -/

namespace Sys2Proof.Machine

variable {s t s1 : State} {evs : List PortEvent}

theorem surfaceAfter_cons (e : PortEvent) (evs : List PortEvent) (m : Memory) :
    surfaceAfter (e :: evs) m = surfaceAfter evs (surfaceAfter [e] m) := by cases e <;> rfl

/-- No event: the end state is the state itself, but for inputs, events and record. -/
theorem performs_nil
    (h : { s with inputs := [] } = { t with inputs := [], trace := s.trace, surface := s.surface }) : Performs s [] t := by
  intro rest
  simp only [List.length_nil, Host.Core.run, List.map_nil, List.nil_append, List.reverse_nil, surfaceAfter]
  exact congrArg _ (congrArg (fun x : State => ({ x with inputs := rest } : State)) h)

/-- One step that makes the event `e`, then the rest. -/
theorem performs_cons {e : PortEvent}
    (h1 : ∀ rest, step { s with inputs := respond e :: rest } = .next { s1 with inputs := rest })
    (htr : s1.trace = e :: s.trace) (hsf : s1.surface = surfaceAfter [e] s.surface) (h2 : Performs s1 evs t) :
    Performs s (e :: evs) t := by
  intro rest
  have h1' := h1 (evs.map respond ++ rest)
  have h2' := h2 rest
  simp only [List.length_cons, Host.Core.run, List.map_cons, List.cons_append, core]
  rw [h1']
  simp only
  rw [surfaceAfter_cons, ← hsf]
  refine h2'.trans ?_
  rw [htr]
  simp
  rfl

theorem surfaceAfter_append (evs evs' : List PortEvent) (m : Memory) :
    surfaceAfter (evs ++ evs') m = surfaceAfter evs' (surfaceAfter evs m) := by
  induction evs generalizing m with
  | nil => rfl
  | cons e es ih => rw [List.cons_append, surfaceAfter_cons, ih, ← surfaceAfter_cons]

theorem run_add (M : Host.Core) (j k : Nat) (a b : M.State) (h : M.run j a = .next b) :
    M.run (j + k) a = M.run k b := by
  induction j generalizing a with
  | zero => cases h; rw [Nat.zero_add]
  | succ j ih =>
    rw [Nat.succ_add]
    simp only [Host.Core.run] at h ⊢
    split at h
    · exact ih _ h
    · cases h
    · cases h

/-- Two stretches of a run, the second from the state the first ends in, with its events and record. -/
theorem performs_append {evs' : List PortEvent} {t' : State} (h1 : Performs s evs t)
    (h2 : Performs { t with trace := evs.reverse ++ s.trace, surface := surfaceAfter evs s.surface } evs' t') :
    Performs s (evs ++ evs') t' := by
  intro rest
  have h1' := h1 (evs'.map respond ++ rest)
  have h2' := h2 rest
  rw [List.length_append, List.map_append, List.append_assoc]
  refine (run_add core _ _ _ _ h1').trans (h2'.trans ?_)
  rw [surfaceAfter_append, List.reverse_append, List.append_assoc]

/-! ## The rows of the transition table do not look at the inputs -/

theorem afterRead_inputs {m : MicroState} {b : Byte} (r : List EnvEvent) (h : afterRead m b s = .next s1) :
    afterRead m b { s with inputs := r } = .next { s1 with inputs := r } := by
  cases m <;> simp only [afterRead] at h ⊢
  case sGStsRd1 =>
    cases h; unfold afterGuardRead1; dsimp only
    split
    · rfl
    · split <;> rfl
  case sGStsRd2 =>
    unfold afterGuardRead2 guardPassed at h ⊢; dsimp only at h ⊢
    split at h
    · rename_i hc; rw [if_pos hc]; cases h; rfl
    · rename_i hc; rw [if_neg hc]
      split at h
      · rename_i hc; rw [if_pos hc]; cases h; rfl
      · rename_i hc; rw [if_neg hc]
        split at h
        · rename_i hc; rw [if_pos hc]; cases h; rfl
        · cases h
  case sPStsRd =>
    cases h; unfold afterPollRead pollTimedOut decideRead; dsimp only
    repeat (first | rfl | split)
  all_goals cases h
  all_goals rfl

theorem afterWrite_inputs {m : MicroState} (r : List EnvEvent) (h : afterWrite m s = .next s1) :
    afterWrite m { s with inputs := r } = .next { s1 with inputs := r } := by
  cases m <;> simp only [afterWrite] at h ⊢
  case sAckWr =>
    unfold afterAck at h ⊢; dsimp only at h ⊢
    split at h
    · rename_i hc; rw [if_pos hc]; cases h; rfl
    · rename_i hc; rw [if_neg hc]
      split at h
      · rename_i hc; rw [if_pos hc]; cases h; rfl
      · cases h
  all_goals cases h
  all_goals rfl

theorem dispatchOf_inputs (w : BitVec 32) (r : List EnvEvent) :
    dispatchOf w { s with inputs := r } = { dispatchOf w s with inputs := r } := by
  unfold dispatchOf dispatchWrite
  obtain ⟨e, he⟩ | ⟨t, r, v, he, -⟩ | ⟨t, r, v, he, -⟩ | ⟨t, r, v, he, -⟩ := decodeCmd32_cases w <;> simp only [he]
  · rfl
  · rfl
  · split <;> rfl
  · rfl

theorem micro_inputs {m : MicroState} (ho : s.outcome ≠ 6#3) (hs : s.seq = m.code) (l : List EnvEvent) :
    State.micro { s with inputs := l } = some m := micro_of_seq (s := { s with inputs := l }) ho hs

theorem microOp_inputs {m : MicroState} {i : Instr} (l : List EnvEvent) (h : microOp m s = some i) :
    microOp m { s with inputs := l } = some i := by rw [← h]; cases m <;> rfl

/-! ## One event, then the rest -/

theorem performs_read {m : MicroState} {off : Offset} {b : Byte} (ho : s.outcome ≠ 6#3) (hs : s.seq = m.code)
    (hi : microOp m s = some (.regrd off)) (hmap : s.mapped = true)
    (ha : afterRead m b { s with trace := .read off b :: s.trace } = .next s1) (h2 : Performs s1 evs t) :
    Performs s (.read off b :: evs) t := by
  have hf := afterRead_frame ha
  refine performs_cons (s1 := s1) (fun rest => ?_) hf.trace hf.surface h2
  exact (step_answer (s := { s with inputs := .answer b :: rest }) rfl (micro_inputs ho hs _) (microOp_inputs _ hi)
    hmap).trans (afterRead_inputs rest ha)

theorem performs_write {m : MicroState} {off : Offset} {v : Byte} (ho : s.outcome ≠ 6#3) (hs : s.seq = m.code)
    (hi : microOp m s = some (.regwr off v)) (hmap : s.mapped = true)
    (ha : afterWrite m { s with trace := .write off v :: s.trace, surface := s.surface.write off.toNat v } = .next s1)
    (h2 : Performs s1 evs t) : Performs s (.write off v :: evs) t := by
  have hf := afterWrite_frame ha
  refine performs_cons (s1 := s1) (fun rest => ?_) hf.trace hf.surface h2
  exact (step_written (s := { s with inputs := .written :: rest }) rfl (micro_inputs ho hs _) (microOp_inputs _ hi)
    hmap).trans (afterWrite_inputs rest ha)

theorem performs_delay (ho : s.outcome ≠ 6#3) (hs : s.seq = MicroState.sPDelay.code) (hmap : s.mapped = true)
    (h2 : Performs { s with seq := MicroState.sPStsRd.code, trace := .delay s.cfg.pollIntervalUs :: s.trace } evs t) :
    Performs s (.delay s.cfg.pollIntervalUs :: evs) t := by
  refine performs_cons (fun rest => ?_) (by rfl) (by rfl) h2
  exact step_delayDone (s := { s with inputs := .delayDone :: rest }) (m := .sPDelay) rfl (micro_inputs ho hs _) rfl hmap

theorem performs_deliver (ho : s.outcome ≠ 6#3) (hs : s.seq = MicroState.sResult.code) (hmap : s.mapped = true)
    (h2 : Performs { s with seq := MicroState.sIdle.code, trace := .deliver (s.outcome ++ s.data) :: s.trace } evs t) :
    Performs s (.deliver (s.outcome ++ s.data) :: evs) t := by
  refine performs_cons (fun rest => ?_) (by rfl) (by rfl) h2
  exact step_take (s := { s with inputs := .take :: rest }) rfl (micro_inputs ho hs _) hmap

theorem performs_accept {w : BitVec 32} (hr : readyFor w s)
    (h2 : Performs
      (dispatchOf w
        { s with
          op := cmdOp w, tgt := cmdTarget w, reg := cmdRegaddr w, val := cmdValue w, pollcnt := 0#9, timedout := false
          data := 0x00#8, resValid := false, cmds := s.cmds.tail, trace := .accept w :: s.trace })
      evs t) :
    Performs s (.accept w :: evs) t := by
  obtain ⟨hs, hmap, hcfg, ho, hw⟩ := hr
  obtain ⟨ws, hc⟩ : ∃ ws, s.cmds = w :: ws := by cases h : s.cmds <;> simp_all
  refine performs_cons (fun rest => ?_) ?_ ?_ h2
  · refine (step_quiet_accept (s := { s with inputs := .quiet :: rest }) rfl (micro_inputs ho hs _) hc hmap hcfg).trans ?_
    rw [← dispatchOf_inputs]
    rfl
  · exact (dispatchOf_frame w).trace
  · exact (dispatchOf_frame w).surface

/-! ## The dispatch of the three commands -/

theorem dispatchOf_rdreg (a : Target) (r v : Byte) : dispatchOf (rdregWord a r v) s = s.goto .sRAux1Rd := by
  simp [dispatchOf, decodeCmd32, rdregWord, cmdZ_cmdWord, cmdOpcode_cmdWord]

theorem dispatchOf_wrreg (a : Target) (r v : Byte) : dispatchOf (wrregWord a r v) s = dispatchWrite s := by
  simp [dispatchOf, decodeCmd32, wrregWord, cmdZ_cmdWord, cmdOpcode_cmdWord]

theorem dispatchOf_chkidle (a : Target) (r v : Byte) : dispatchOf (chkidleWord a r v) s = s.goto .sGStsRd1 := by
  simp [dispatchOf, decodeCmd32, chkidleWord, cmdZ_cmdWord, cmdOpcode_cmdWord]

end Sys2Proof.Machine
end

