-- ==== Sys2Proof/Tests/Slice0.lean ====
section
/-! SUPPORT. Tests of the model, and for each obligation a state that meets its hypotheses. Expected values come from the
tables of spec/95_test_vectors.md (named beside each test), never from the model. -/

namespace Sys2Proof.Tests

open Sys2Proof Sys2Proof.Machine

/-! ## Decoding: words written out from R61, R62, R67, R68 (tables B1, B3) -/

/-- 00000001 0 0101100 00010000 11111111 -/
theorem test_decode_rdreg :
    decode (.cmd32 0b00000001001011000001000011111111#32) = .ok (.rdreg 0x2C#7 0x10#8 0xFF#8) := by decide
/-- 00000010 0 0101100 00010000 10100101 -/
theorem test_decode_wrreg :
    decode (.cmd32 0b00000010001011000001000010100101#32) = .ok (.wrreg 0x2C#7 0x10#8 0xA5#8) := by decide
/-- 00000011 0 0101011 11001101 11101111 -/
theorem test_decode_chkidle :
    decode (.cmd32 0b00000011001010111100110111101111#32) = .ok (.chkidle 0x2B#7 0xCD#8 0xEF#8) := by decide
/-- 0 00001101 00000000 (`RD AUXCTL`) -/
theorem test_decode_regrd : decode (.ra17 0b00000110100000000#17) = .ok (.regrd 0x0D#8) := by decide
/-- 1 00000101 10100101 (`WR DATA0 <- 0xA5`) -/
theorem test_decode_regwr : decode (.ra17 0b10000010110100101#17) = .ok (.regwr 0x05#8 0xA5#8) := by decide
/-- 0000000110010000 (`DLY 400`) -/
theorem test_decode_delay : decode (.dly16 0b0000000110010000#16) = .ok (.delay 400#16) := by decide
/-- The extremes of the fields (table B1). -/
theorem test_decode_extremes :
    decode (.cmd32 0x027FFFFF#32) = .ok (.wrreg 0x7F#7 0xFF#8 0xFF#8) ∧
    decode (.cmd32 0x01000000#32) = .ok (.rdreg 0x00#7 0x00#8 0x00#8) := by decide
/-- The illegal words of table B1. -/
theorem test_decode_illegal :
    decode (.cmd32 0x03ABCDEF#32) = .error .reservedBitSet ∧ decode (.cmd32 0x01800000#32) = .error .reservedBitSet ∧
    decode (.cmd32 0x02D000FF#32) = .error .reservedBitSet ∧ decode (.cmd32 0x00000000#32) = .error (.unknownOpcode 0x00#8) ∧
    decode (.cmd32 0x04000000#32) = .error (.unknownOpcode 0x04#8) ∧
    decode (.cmd32 0xFF2C1000#32) = .error (.unknownOpcode 0xFF#8) := by decide
/-- `wdata` is 0x00 when `we` = 0 (R67). -/
theorem test_decode_read_with_data : decode (.ra17 0x00D01#17) = .error (.readWithData 0x01#8) := by decide
/-- Table B1, column "word", and table B3. -/
theorem test_encode :
    encode (.rdreg 0x7F#7 0xFF#8 0x00#8) = .cmd32 0x017FFF00#32 ∧ encode (.chkidle 0#7 0#8 0#8) = .cmd32 0x03000000#32 ∧
    encode (.regwr 0x04#8 0x59#8) = .ra17 0x10459#17 ∧ encode (.regrd 0x05#8) = .ra17 0x00500#17 := by decide
/-- Result words of table B3. -/
theorem test_result_words :
    resultWord .success 0xA5#8 = 0x0A5#11 ∧ resultWord .busy 0x00#8 = 0x100#11 ∧ resultWord .timeout 0x01#8 = 0x201#11 ∧
    resultWord .deviceError 0x00#8 = 0x300#11 ∧ resultWord .configurationError 0x00#8 = 0x400#11 ∧
    resultWord .accessDenied 0x00#8 = 0x500#11 ∧ resultWord .illegalCommand 0x00#8 = 0x700#11 := by decide
/-- Table B2. -/
theorem test_address_byte :
    readAddrByte 0x2C#7 = 0x59#8 ∧ writeAddrByte 0x2C#7 = 0x58#8 ∧ readAddrByte 0x7F#7 = 0xFF#8 ∧
    writeAddrByte 0x7F#7 = 0xFE#8 ∧ readAddrByte 0x00#7 = 0x01#8 := by decide
/-- The derived constants of R6. -/
theorem test_derived_constants :
    stsErrMask Config.default = 0x1C#8 ∧ stsAckMask Config.default = 0x1E#8 ∧ stsStickyMask Config.default = 0x9E#8 ∧
    cntReadGo Config.default = 0x68#8 ∧ cntWriteGo Config.default = 0x48#8 ∧ reservedTop Config.default = 0x57#7 ∧
    budgetUs Config.default = 160000 := by decide
/-- Table B6, columns "completed" and "outcome". -/
theorem test_poll_exit :
    pollCompleted Config.default 0x02#8 = true ∧ pollCompleted Config.default 0x03#8 = false ∧
    pollCompleted Config.default 0x80#8 = false ∧ pollCompleted Config.default 0x84#8 = true ∧
    classify Config.default false 0x08#8 = .success ∧ classify Config.default false 0x1E#8 = .deviceError ∧
    classify Config.default true 0x05#8 = .timeout := by decide

/-! ## Well-formedness: one ill-formed term for each check -/

theorem test_illformed_regrd : (Instr.regrd 0x02#8).wellFormed Config.default = false := by decide
theorem test_illformed_regwr : (Instr.regwr 0x01#8 0x00#8).wellFormed Config.default = false := by decide
theorem test_illformed_delay : (Instr.delay 401#16).wellFormed Config.default = false := by decide
theorem test_default_config_ok : configOk Config.default = true := by decide
/-- R7 (a): two offsets equal. -/
theorem test_illformed_offsets : configOk { Config.default with offCmd := 0x05#8 } = false := by decide
/-- R7 (b): a mask with two bits, and two masks equal. -/
theorem test_illformed_status :
    configOk { Config.default with stsIntr := 0x22#8 } = false ∧
    configOk { Config.default with stsFailed := 0x01#8 } = false := by decide
/-- R7 (c): start and last-byte equal, overlap with the mode, a zero mode. -/
theorem test_illformed_control :
    configOk { Config.default with cntStart := 0x20#8 } = false ∧
    configOk { Config.default with cntStart := 0x08#8 } = false ∧
    configOk { Config.default with cntByteData := 0x00#8 } = false := by decide
/-- R7 (d) -/
theorem test_illformed_aux :
    configOk { Config.default with auxExtMask := 0x00#8 } = false ∧
    configOk { Config.default with auxSqMask := 0x00#8 } = false := by decide
/-- R7 (e) -/
theorem test_illformed_poll :
    configOk { Config.default with pollMax := 0#9 } = false ∧
    configOk { Config.default with pollIntervalUs := 0#16 } = false := by decide
/-- R7 (f): 0x78 is the highest base, 0x79 too high; the length is 8. -/
theorem test_illformed_window :
    configOk { Config.default with reservedBase := 0x78#7 } = true ∧
    configOk { Config.default with reservedBase := 0x79#7 } = false ∧
    configOk { Config.default with reservedLen := 7#4 } = false := by decide

/-! ## One step -/

/-- A block in micro-state `m` with `OP` = `op`, the outside about to do `e`. -/
def at_ (m : MicroState) (op : BitVec 2) (e : EnvEvent) : State :=
  { State.reset with seq := m.code, op := op, inputs := [e] }

/-- An idle block with `w` at its command port. -/
def idleWith (w : BitVec 32) : State := { State.reset with cmds := [w] }

/-- The micro-state, `OUTCOME` and newest port event after a step. -/
def seen (o : Host.Outcome State Fault Refusal) : Option (BitVec 6 × BitVec 3 × Option PortEvent) :=
  (nextOf o).map fun s => (s.seq, s.outcome, s.trace.head?)

/-- Table B1: the latches. -/
theorem test_rdreg_latches :
    (nextOf (step (idleWith 0x012C10FF#32))).map (fun s => (s.op, s.tgt, s.reg, s.val))
      = some (1#2, 0x2C#7, 0x10#8, 0xFF#8) := by decide
/-- Table B7: a read of the window is not checked. -/
theorem test_rdreg_window :
    seen (step (idleWith 0x01500000#32)) = some (0x10#6, 0#3, some (.accept 0x01500000#32)) := by decide
/-- Table B7: `WRREG 0x50` and `WRREG 0x57` are denied. -/
theorem test_wrreg_denied :
    seen (step (idleWith 0x025000FF#32)) = some (0x3F#6, 5#3, some (.accept 0x025000FF#32)) ∧
    seen (step (idleWith 0x02570200#32)) = some (0x3F#6, 5#3, some (.accept 0x02570200#32)) := by decide
/-- Table B7: `WRREG 0x4F` and `WRREG 0x58` pass the policy. -/
theorem test_wrreg_passes :
    seen (step (idleWith 0x024F0000#32)) = some (0x20#6, 0#3, some (.accept 0x024F0000#32)) ∧
    seen (step (idleWith 0x02580000#32)) = some (0x20#6, 0#3, some (.accept 0x02580000#32)) := by decide
/-- Table B1: `CHKIDLE` goes to the guard. -/
theorem test_chkidle :
    seen (step (idleWith 0x03000000#32)) = some (0x30#6, 0#3, some (.accept 0x03000000#32)) := by decide
/-- Table B1, last row: `IllegalCommand`, not `AccessDenied`. -/
theorem test_illegal_word :
    (nextOf (step (idleWith 0x02D000FF#32))).map (fun s => (s.seq, resWord s)) = some (0x3F#6, 0x700#11) := by decide
/-- Table B5: 0x9F is `Busy`, nothing cleared; 0xDE leads to the clear; 0x60 to the second read. -/
theorem test_regrd_guard :
    seen (step (at_ .sGStsRd1 1#2 (.answer 0x9F#8))) = some (0x3F#6, 1#3, some (.read 0x00#8 0x9F#8)) ∧
    seen (step (at_ .sGStsRd1 1#2 (.answer 0xDE#8))) = some (0x31#6, 0#3, some (.read 0x00#8 0xDE#8)) ∧
    seen (step (at_ .sGStsRd1 1#2 (.answer 0x60#8))) = some (0x32#6, 0#3, some (.read 0x00#8 0x60#8)) := by decide
/-- Table B6, boundary: the 400th status byte 0x04 completes, 0x05 times out with an acknowledge, 0x01 without. -/
theorem test_regrd_poll :
    seen (step { at_ .sPStsRd 1#2 (.answer 0x04#8) with pollcnt := 399#9 })
      = some (0x36#6, 3#3, some (.read 0x00#8 0x04#8)) ∧
    seen (step { at_ .sPStsRd 1#2 (.answer 0x05#8) with pollcnt := 399#9 })
      = some (0x36#6, 2#3, some (.read 0x00#8 0x05#8)) ∧
    seen (step { at_ .sPStsRd 2#2 (.answer 0x01#8) with pollcnt := 399#9 })
      = some (0x3F#6, 2#3, some (.read 0x00#8 0x01#8)) ∧
    seen (step { at_ .sPStsRd 2#2 (.answer 0x01#8) with pollcnt := 398#9 })
      = some (0x34#6, 0#3, some (.read 0x00#8 0x01#8)) := by decide
/-- Tables B4 and B6: the write halves 0x07 to 0x04 and 0x07 to 0x03, the acknowledge of 0x62. -/
theorem test_regwr :
    seen (step { at_ .sRAux1Wr 1#2 .written with auxtmp := 0x07#8 })
      = some (0x12#6, 0#3, some (.write 0x0D#8 0x04#8)) ∧
    seen (step { at_ .sWAuxWr 2#2 .written with auxtmp := 0x07#8 })
      = some (0x30#6, 0#3, some (.write 0x0D#8 0x03#8)) ∧
    seen (step { at_ .sAckWr 2#2 .written with stsCap := 0x62#8 })
      = some (0x3F#6, 0#3, some (.write 0x00#8 0x02#8)) := by decide
/-- P1, events 1 and 8, and the start trigger of its second command. -/
theorem test_regwr_address_and_start :
    seen (step { at_ .sWAddrWr 2#2 .written with tgt := 0x2C#7 })
      = some (0x21#6, 0#3, some (.write 0x04#8 0x58#8)) ∧
    seen (step (at_ .sStartWr 2#2 .written)) = some (0x34#6, 0#3, some (.write 0x02#8 0x48#8)) ∧
    seen (step (at_ .sStartWr 1#2 .written)) = some (0x34#6, 0#3, some (.write 0x02#8 0x68#8)) := by decide
/-- Table B3, `DLY 400`. -/
theorem test_delay :
    seen (step (at_ .sPDelay 1#2 .delayDone)) = some (0x35#6, 0#3, some (.delay 400#16)) := by decide
/-- Table B9: reset in `S_P_DELAY` after 17 iterations; R193: the outstanding delay is forgotten. -/
theorem test_reset :
    nextOf (step { at_ .sPDelay 1#2 .reset with pollcnt := 17#9, stsCap := 0x01#8, tgt := 0x2C#7 })
      = some { State.reset with forgotten := [.delay 400#16] } := by
  decide
/-- R193: a late answer is no answer to the status read, the write or the delay awaited now. -/
theorem test_late_answer_ignored :
    seen (step (at_ .sPStsRd 1#2 (.late (.regrd 0x00#8) 0x02#8))) = some (0x35#6, 0#3, none) ∧
    seen (step (at_ .sStartWr 1#2 (.late (.regwr 0x02#8 0x68#8) 0x00#8))) = some (0x33#6, 0#3, none) ∧
    seen (step (at_ .sPDelay 1#2 (.late (.delay 400#16) 0x00#8))) = some (0x34#6, 0#3, none) := by decide

/-! ## Placed words run as the first step from reset -/

/-- The command rows. -/
theorem test_placed_commands :
    seen (step (State.reset.withFetchWord 32 0x01000000)) = some (0x10#6, 0#3, some (.accept 0x01000000#32)) ∧
    seen (step (State.reset.withFetchWord 32 0x02000000)) = some (0x20#6, 0#3, some (.accept 0x02000000#32)) ∧
    seen (step (State.reset.withFetchWord 32 0x03000000)) = some (0x30#6, 0#3, some (.accept 0x03000000#32)) := by decide
/-- The rows REGRD, REGWR and DELAY with all operand bits 0. -/
theorem test_placed_micro_operations :
    seen (step (State.reset.withFetchWord 24 0x00000)) = some (0x32#6, 0#3, some (.read 0x00#8 0x00#8)) ∧
    seen (step (State.reset.withFetchWord 24 0x10000)) = some (0x32#6, 0#3, some (.write 0x00#8 0x00#8)) ∧
    seen (step (State.reset.withFetchWord 16 0x0000)) = some (0x35#6, 0#3, some (.delay 0#16)) := by decide
/-- A write that no micro-state makes with the default parameters, in a block whose offsets differ. -/
theorem test_placed_write_elsewhere :
    (seen (step (State.reset.withFetchWord 24 0x177AB))).map (fun p => p.2.2) = some (some (.write 0x77#8 0xAB#8)) := by
  decide
theorem test_table_words :
    decodeTableWord 32 0x022C10A5 = some (.wrreg 0x2C#7 0x10#8 0xA5#8) ∧
    decodeTableWord 24 0x105A5 = some (.regwr 0x05#8 0xA5#8) ∧ decodeTableWord 24 0x00500 = some (.regrd 0x05#8) ∧
    decodeTableWord 16 0x0190 = some (.delay 400#16) ∧ decodeTableWord 32 0x01800000 = none ∧
    decodeTableWord 24 0x20000 = none := by decide

/-! ## Witnesses: a concrete state and operands that meet the hypotheses of each obligation, for each of its clauses -/

/-- The next state of a step, with a default that a witness shows is not used. -/
def after (s : State) : State := (nextOf (step s)).getD s

theorem witness_EncodeOfDecodeIsTheWord : decode (.ra17 0x105A5#17) = .ok (.regwr 0x05#8 0xA5#8) := by decide

theorem witness_CommandWordsByMatchAndMask :
    0x017FFFFF#32 &&& 0xFF800000#32 = 0x01000000#32 ∧ 0x02000000#32 &&& 0xFF800000#32 = 0x02000000#32 ∧
    0x037FFFFF#32 &&& 0xFF800000#32 = 0x03000000#32 ∧
    (0x01800000#32 &&& 0xFF800000#32 ≠ 0x01000000#32 ∧ 0x01800000#32 &&& 0xFF800000#32 ≠ 0x02000000#32 ∧
      0x01800000#32 &&& 0xFF800000#32 ≠ 0x03000000#32) := by decide

/-- A legal word and an illegal one. -/
theorem witness_AcceptLatchesAndDispatches :
    (readyFor 0x025700A5#32 { idleWith 0x025700A5#32 with inputs := [.quiet] }) ∧
    (readyFor 0x00800000#32 { idleWith 0x00800000#32 with inputs := [.quiet] }) :=
  ⟨⟨rfl, rfl, by decide, by decide, rfl⟩, ⟨rfl, rfl, by decide, by decide, rfl⟩⟩

/-- The hypotheses of `RdregIsAccepted` and `ChkidleIsAccepted`. -/
theorem witness_RdregIsAccepted_ChkidleIsAccepted :
    State.reset.seq = MicroState.sIdle.code ∧ State.reset.mapped = true ∧ configOk State.reset.cfg = true ∧
      State.reset.outcome ≠ 6#3 := by decide

/-- Targets 0x50 and 0x57 are in the window, 0x4F and 0x58 are not. -/
theorem witness_WrregIsAcceptedOrDenied :
    let c := State.reset.cfg
    (c.reservedBase.toNat ≤ (0x50#7).toNat ∧ (0x50#7).toNat ≤ c.reservedBase.toNat + 7) ∧
    (c.reservedBase.toNat ≤ (0x57#7).toNat ∧ (0x57#7).toNat ≤ c.reservedBase.toNat + 7) ∧
    ¬(c.reservedBase.toNat ≤ (0x4F#7).toNat ∧ (0x4F#7).toNat ≤ c.reservedBase.toNat + 7) ∧
    ¬(c.reservedBase.toNat ≤ (0x58#7).toNat ∧ (0x58#7).toNat ≤ c.reservedBase.toNat + 7) := by decide

/-- A running block, an unmapped one, and a ready one with `POLL_MAX` = 0. -/
theorem witness_CommandsWaitOrAreRefused :
    ((at_ .sPDelay 1#2 .quiet).seq = MicroState.sPDelay.code ∧ (at_ .sPDelay 1#2 .quiet).outcome ≠ 6#3) ∧
    ({ State.reset with mapped := false }.seq = MicroState.sIdle.code) ∧
    (configOk { Config.default with pollMax := 0#9 } = false) := by decide

theorem witness_CommandFrame :
    exec (.rdreg 0x2C#7 0x10#8 0x00#8) State.reset = .next (after (idleWith 0x012C1000#32)) ∧
    exec (.wrreg 0x50#7 0x00#8 0xFF#8) State.reset = .next (after (idleWith 0x025000FF#32)) ∧
    exec (.chkidle 0x00#7 0x00#8 0x00#8) State.reset = .next (after (idleWith 0x03000000#32)) := ⟨rfl, rfl, rfl⟩

/-- The hypotheses of the statements about an answered REGRD, in each micro-state that issues one. -/
theorem witness_answered_regrd :
    ∀ m ∈ [MicroState.sRAux1Rd, .sRAux2Rd, .sWAuxRd, .sGStsRd1, .sGStsRd2, .sPStsRd, .sDataRd],
      let s := at_ m 1#2 (.answer 0x02#8)
      s.mapped = true ∧ s.outcome ≠ 6#3 ∧ s.inputs = [.answer 0x02#8] ∧ s.seq = m.code ∧ s.timedout = false := by decide

/-- The status bytes that lead to each case of the guard's two reads, with the default masks. -/
theorem witness_GuardFirstRead_GuardSecondRead :
    (0x9F#8 &&& Config.default.stsBusy ≠ 0#8) ∧
    (0x02#8 &&& Config.default.stsBusy = 0#8 ∧ 0x02#8 &&& stsStickyMask Config.default ≠ 0#8) ∧
    (0x60#8 &&& Config.default.stsBusy = 0#8 ∧ 0x60#8 &&& stsStickyMask Config.default = 0#8) := by decide

theorem witness_PollReadCompletes :
    let c := Config.default
    (0x02#8 &&& c.stsBusy = 0#8) ∧ 0x02#8 &&& (c.stsIntr ||| (c.stsDevErr ||| c.stsBusErr ||| c.stsFailed)) ≠ 0#8 := by
  decide

/-- Below the budget, at it with a flag, at it without. -/
theorem witness_PollReadGoesOnOrTimesOut :
    let c := Config.default
    let ackSet : Byte → Prop := fun b => b &&& (c.stsIntr ||| (c.stsDevErr ||| c.stsBusErr ||| c.stsFailed)) ≠ 0#8
    (¬(0x03#8 &&& c.stsBusy = 0#8 ∧ ackSet 0x03#8) ∧ ackSet 0x03#8) ∧
    (¬(0x80#8 &&& c.stsBusy = 0#8 ∧ ackSet 0x80#8) ∧ ¬ackSet 0x80#8) ∧
    398#9 + 1#9 ≠ c.pollMax ∧ 399#9 + 1#9 = c.pollMax := by decide

/-- The hypotheses of the statements about a completed REGWR, in each micro-state that issues one. -/
theorem witness_completed_regwr :
    ∀ m ∈ [MicroState.sRAux1Wr, .sRAddrWr, .sRCmdWr, .sRAux2Wr, .sWAddrWr, .sWCmdWr, .sWDataWr, .sWAuxWr, .sGStsClr,
        .sStartWr, .sAckWr],
      ∀ op ∈ [0#2, 1#2, 2#2, 3#2],
        let s := at_ m op .written
        s.mapped = true ∧ s.outcome ≠ 6#3 ∧ s.inputs = [.written] ∧ s.seq = m.code ∧ s.op = op := by decide

theorem witness_DelayGoesOnToTheStatusRead :
    let s := at_ .sPDelay 1#2 .delayDone
    s.mapped = true ∧ s.outcome ≠ 6#3 ∧ s.inputs = [.delayDone] ∧ s.seq = MicroState.sPDelay.code := by decide

/-- A read, a write and a delay, each issued and not answered. -/
theorem witness_UnansweredMicroOpsWait :
    microOp .sGStsRd1 (at_ .sGStsRd1 1#2 .quiet) = some (.regrd 0x00#8) ∧
    microOp .sRCmdWr (at_ .sRCmdWr 1#2 .quiet) = some (.regwr 0x03#8 0x00#8) ∧
    microOp .sPDelay (at_ .sPDelay 1#2 .quiet) = some (.delay 400#16) := by decide

/-- Not issued; issued with `mapped` = 0. -/
theorem witness_MicroOpsStopWhenNotIssuedOrUnmapped :
    microOp .sIdle State.reset ≠ some (.regrd 0x00#8) ∧
    microOp .sGStsRd1 { at_ .sGStsRd1 1#2 .quiet with mapped := false } = some (.regrd 0x00#8) := by decide

theorem witness_IssuedMicroOpsAreWellFormed :
    microOp .sStartWr (at_ .sStartWr 1#2 .quiet) = some (.regwr 0x02#8 0x68#8) := by decide

/-- The hypotheses of the three frames of the micro-operations. -/
theorem witness_RegrdFrame_RegwrFrame_DelayFrame :
    exec (.regrd 0x00#8) (at_ .sGStsRd1 1#2 (.answer 0x01#8)) = .next (after (at_ .sGStsRd1 1#2 (.answer 0x01#8))) ∧
    exec (.regwr 0x00#8 0x00#8) (at_ .sAckWr 2#2 .written) = .next (after (at_ .sAckWr 2#2 .written)) ∧
    exec (.regwr 0x02#8 0x48#8) (at_ .sStartWr 2#2 .written) = .next (after (at_ .sStartWr 2#2 .written)) ∧
    exec (.delay 400#16) (at_ .sPDelay 2#2 .delayDone) = .next (after (at_ .sPDelay 2#2 .delayDone)) :=
  ⟨rfl, rfl, rfl, rfl⟩

theorem undisturbed_of_quiet (s : State) (h : s.inputs = [.quiet]) : undisturbed s := by
  simp [undisturbed, h]

/-- Both clauses: quiet outside, and a word presented. -/
theorem witness_StepRunsTheCommandAtThePort :
    decode (.cmd32 0x022C10A5#32) = .ok (.wrreg 0x2C#7 0x10#8 0xA5#8) ∧
    undisturbed { idleWith 0x022C10A5#32 with inputs := [.quiet] } ∧
    { idleWith 0x022C10A5#32 with inputs := [.present 0#32] }.inputs = [.present 0#32] :=
  ⟨by decide, undisturbed_of_quiet _ rfl, rfl⟩

theorem witness_StepRunsTheIssuedMicroOp :
    microOp .sDataRd (at_ .sDataRd 1#2 .quiet) = some (.regrd 0x05#8) ∧ undisturbed (at_ .sDataRd 1#2 .quiet) :=
  ⟨by decide, undisturbed_of_quiet _ rfl⟩

theorem witness_ResultIsDelivered :
    let s := at_ .sResult 1#2 .take
    s.seq = MicroState.sResult.code ∧ s.mapped = true ∧ s.outcome ≠ 6#3 ∧ s.inputs = [.take] ∧
      (at_ .sResult 1#2 .quiet).inputs = [.quiet] := by decide

theorem witness_ResetClearsTheRegisters : (at_ .sPDelay 1#2 .reset).inputs = [.reset] := rfl

/-- A reset with a delay outstanding, one in `S_IDLE`, one in `S_RESULT`; a step that is no reset; a late answer to an idle
block, and one to a block that awaits an answer of the same kind. -/
theorem witness_LateAnswersAreIgnored :
    microOp .sPDelay (at_ .sPDelay 1#2 .reset) = some (.delay 400#16) ∧
    (at_ .sIdle 1#2 .reset).seq = MicroState.sIdle.code ∧ (at_ .sResult 1#2 .reset).seq = MicroState.sResult.code ∧
    step (at_ .sIdle 1#2 .quiet) = .next (after (at_ .sIdle 1#2 .quiet)) ∧
    (at_ .sIdle 1#2 (.late (.delay 400#16) 0#8)).inputs = [.late (.delay 400#16) 0#8] ∧
    microOp .sPStsRd (at_ .sPStsRd 1#2 (.late (.regrd 0x00#8) 0x02#8)) = some (.regrd 0x00#8) :=
  ⟨by decide, by decide, by decide, rfl, rfl, by decide⟩

/-- The pin rises, falls in `S_IDLE`, falls during a command; an unmapped idle block. -/
theorem witness_MappedGatesTheBlock :
    (at_ .sPDelay 1#2 (.mapPin true)).inputs = [.mapPin true] ∧ (at_ .sIdle 1#2 (.mapPin false)).seq = 0x00#6 ∧
    (at_ .sPDelay 1#2 (.mapPin false)).seq ≠ MicroState.sIdle.code ∧
    outsideSilent { State.reset with mapped := false } :=
  ⟨rfl, by decide, by decide, by simp [outsideSilent, State.reset]⟩

/-- The outcome code 6, and the codes 0x01 and 0x3E of `SEQ`. -/
theorem witness_UnlistedCodesAreRefused :
    undisturbed { State.reset with outcome := 6#3 } ∧ (∀ m : MicroState, 0x01#6 ≠ m.code) ∧
      ∀ m : MicroState, 0x3E#6 ≠ m.code :=
  ⟨by simp [undisturbed, State.reset], by intro m; cases m <;> decide, by intro m; cases m <;> decide⟩

/-- The reset state is good. -/
theorem reset_good : Good State.reset :=
  ⟨.sIdle, ⟨by decide, by decide, by decide, trivial, ⟨by decide, by decide⟩, trivial, trivial, trivial, by decide⟩⟩

/-- The hypotheses of the statements about a step from a good state: an accept from reset, the four record predicates
holding there. -/
theorem witness_steps_from_good_states :
    Good (idleWith 0x012C1000#32) ∧ step (idleWith 0x012C1000#32) = .next (after (idleWith 0x012C1000#32)) ∧
    SurfaceAgrees (idleWith 0x012C1000#32) ∧ StartsGuarded (idleWith 0x012C1000#32) ∧
    Programmed (idleWith 0x012C1000#32) ∧ PollCounted (idleWith 0x012C1000#32) ∧ undisturbed (idleWith 0x012C1000#32) ∧
    (idleWith 0x012C1000#32).inputs.head? ≠ some .reset ∧
    macroState (idleWith 0x012C1000#32) = some .idle ∧
    macroState (after (idleWith 0x012C1000#32)) = some .addressValidated := by
  refine ⟨⟨.sIdle, ⟨by decide, by decide, by decide, trivial, ⟨by decide, by decide⟩, trivial, trivial, trivial, by decide⟩⟩, rfl,
    fun _ => rfl, ⟨trivial, fun h => absurd h (by decide)⟩, ?_, ?_, ?_, by decide, by decide, by decide⟩
  · intro m h; cases m <;> trivial
  · intro m h; cases m <;> trivial
  · simp [undisturbed, idleWith, State.reset]

/-- The two stops of a good state. -/
theorem witness_GoodStatesDoNotStop :
    Good { State.reset with cfg := { Config.default with pollMax := 0#9 }, cmds := [0x03000000#32] } ∧
    Good { at_ .sGStsRd1 3#2 (.mapPin false) with tgt := 0x2C#7 } :=
  ⟨⟨.sIdle, ⟨by decide, by decide, by decide, trivial, ⟨by decide, by decide⟩, trivial, trivial, trivial, by decide⟩⟩,
    ⟨.sGStsRd1, ⟨by decide, by decide, by decide, .inr (.inr rfl), ⟨by decide, by decide⟩, trivial, ⟨by decide, by decide⟩,
      fun h => absurd h (by decide), by decide⟩⟩⟩

/-- An RDREG with `POLL_MAX` = 1 whose one status read is about to answer 0x01. -/
def lastPoll : State :=
  { at_ .sPStsRd 1#2 (.answer 0x01#8) with
    cfg := { Config.default with pollMax := 1#9 }
    trace := [.delay 400#16, .write 0x02#8 0x68#8, .read 0x00#8 0x00#8] }

theorem witness_TimeoutTakesExactlyTheBudget :
    Good lastPoll ∧ PollCounted lastPoll ∧ step lastPoll = .next (after lastPoll) ∧ undisturbed lastPoll ∧
      lastPoll.seq = MicroState.sPStsRd.code ∧ (after lastPoll).timedout = true := by
  refine ⟨⟨.sPStsRd, ⟨by decide, by decide, by decide, .inl rfl, ⟨by decide, by decide⟩, trivial, ⟨by decide, by decide⟩,
    fun h => absurd h (by decide), by decide⟩⟩, ?_, rfl, ?_, by decide, by decide⟩
  · intro m h; cases m <;> first | exact ⟨by decide, by decide⟩ | exact absurd h (by decide)
  · simp [undisturbed, lastPoll, at_]

/-- A WRREG of 0xA5 to register 0x10 of target 0x2C at its start trigger. -/
def startingWrite : State :=
  { at_ .sStartWr 2#2 .written with
    tgt := 0x2C#7, reg := 0x10#8, val := 0xA5#8, trace := [.read 0x00#8 0x00#8]
    surface := [(0x03, 0x10#8), (0x04, 0x58#8), (0x05, 0xA5#8)] }

theorem witness_NoWriteIsStartedIntoTheWindow :
    Good startingWrite ∧ Programmed startingWrite ∧ step startingWrite = .next (after startingWrite) ∧
      startingWrite.op = 2#2 ∧ (after startingWrite).trace = .write startingWrite.cfg.offCnt 0x48#8 :: startingWrite.trace := by
  refine ⟨⟨.sStartWr, ⟨by decide, by decide, by decide, .inr rfl, ⟨by decide, by decide⟩, (by decide : stickyFlag Config.default 0x00#8 = false),
    ⟨by decide, by decide⟩, fun _ => by decide, by decide⟩⟩, ?_, rfl, by decide, by decide⟩
  intro m h
  cases m <;> trivial

/-- A running block that takes a step while a word waits. -/
theorem witness_running_steps :
    running startingWrite ∧ step startingWrite = .next (after startingWrite) ∧ startingWrite.inputs.head? ≠ some .reset ∧
      running { startingWrite with cmds := [0x03000000#32] } := by
  refine ⟨?_, rfl, by decide, ?_⟩ <;> simp [running, startingWrite, at_, MicroState.code]

/-- The accept of a CHKIDLE, and a guard read after it: each makes an event. -/
theorem witness_EventsBringTheResultNearer :
    Inv (idleWith 0x03000000#32) .sIdle ∧ Inv (after (idleWith 0x03000000#32)) .sGStsRd1 ∧
    (after (idleWith 0x03000000#32)).trace ≠ (idleWith 0x03000000#32).trace ∧
    Inv (at_ .sGStsRd1 3#2 (.answer 0x00#8)) .sGStsRd1 ∧ Inv (after (at_ .sGStsRd1 3#2 (.answer 0x00#8))) .sGStsRd2 ∧
    (after (at_ .sGStsRd1 3#2 (.answer 0x00#8))).trace ≠ (at_ .sGStsRd1 3#2 (.answer 0x00#8)).trace := by
  refine ⟨⟨by decide, by decide, by decide, trivial, ⟨by decide, by decide⟩, trivial, trivial, trivial, by decide⟩, ?_, by decide,
    ?_, ?_, by decide⟩ <;>
    exact ⟨by decide, by decide, by decide, .inr (.inr rfl), ⟨by decide, by decide⟩, trivial, ⟨by decide, by decide⟩,
      fun h => absurd h (by decide), by decide⟩

theorem witness_ARunningBlockIsOwedAnEvent : Good startingWrite ∧ running startingWrite :=
  ⟨witness_NoWriteIsStartedIntoTheWindow.1, witness_running_steps.1⟩

/-- The guard's clear, the acknowledge, and the write half of a read-modify-write. -/
theorem witness_WritesClearAndNeverSet :
    configOk Config.default = true ∧
    microOp .sGStsClr { at_ .sGStsClr 1#2 .written with stsCap := 0xDE#8 } = some (.regwr Config.default.offSts 0x9E#8) ∧
    microOp .sAckWr { at_ .sAckWr 1#2 .written with stsCap := 0x1F#8 } = some (.regwr Config.default.offSts 0x1E#8) ∧
    microOp .sRAux1Wr { at_ .sRAux1Wr 1#2 .written with auxtmp := 0xFF#8 } = some (.regwr Config.default.offAuxctl 0xFC#8) := by
  decide

/-- Two idle blocks that differ in every register of an earlier command. -/
theorem witness_StaleRegistersDoNotMatter :
    let s := idleWith 0x012C1000#32
    let t := { s with
      op := 2#2, tgt := 0x48#7, reg := 1#8, val := 2#8, auxtmp := 3#8, stsCap := 4#8, pollcnt := 400#9, timedout := true,
      outcome := 2#3, data := 5#8, resValid := true }
    Good s ∧ Good t ∧ liveView s = liveView t ∧ s ≠ t :=
  ⟨⟨.sIdle, ⟨by decide, by decide, by decide, trivial, ⟨by decide, by decide⟩, trivial, trivial, trivial, by decide⟩⟩,
    ⟨.sIdle, ⟨by decide, by decide, by decide, trivial, ⟨by decide, by decide⟩, trivial, trivial, trivial, by decide⟩⟩, rfl, by decide⟩

theorem ready (w : BitVec 32) : readyFor w (idleWith w) :=
  ⟨rfl, rfl, test_default_config_ok, (by decide : 0#3 ≠ 6#3), rfl⟩

/-- The hypotheses of `RdregRunsItsSequence` and `WrregRunsItsSequence`: three iterations (P7, `L` = 2), and with
`POLL_MAX` = 1 a completed and a timed-out loop. -/
theorem witness_commands_that_start :
    readyFor (rdregWord 0x2C#7 0x10#8 0x00#8) (idleWith (rdregWord 0x2C#7 0x10#8 0x00#8)) ∧
    readyFor (wrregWord 0x58#7 0x10#8 0xA5#8) (idleWith (wrregWord 0x58#7 0x10#8 0xA5#8)) ∧
    inReservedWindow Config.default 0x58#7 = false ∧ busyFlag Config.default 0x9E#8 = false ∧
    stickyFlag Config.default 0x01#8 = false ∧ pollEnds Config.default [0x01#8, 0x01#8] 0x02#8 ∧
    pollEnds { Config.default with pollMax := 1#9 } [] 0x02#8 ∧ pollEnds { Config.default with pollMax := 1#9 } [] 0x03#8 := by
  refine ⟨ready _, ready _, by decide, by decide, by decide, ?_, ?_, ?_⟩
  · exact ⟨by decide, .inl (by decide)⟩
  · exact ⟨by decide, .inl (by decide)⟩
  · exact ⟨by decide, .inr (by decide)⟩

/-- The hypotheses of the statements about commands that do not start: both ends of the window, busy, a flag that stays. -/
theorem witness_commands_that_do_not_start :
    readyFor (wrregWord 0x50#7 0x00#8 0xFF#8) (idleWith (wrregWord 0x50#7 0x00#8 0xFF#8)) ∧
    readyFor (chkidleWord 0x00#7 0x00#8 0x00#8) (idleWith (chkidleWord 0x00#7 0x00#8 0x00#8)) ∧
    inReservedWindow Config.default 0x50#7 = true ∧ inReservedWindow Config.default 0x57#7 = true ∧
    inReservedWindow Config.default 0x4F#7 = false ∧ busyFlag Config.default 0x9F#8 = true ∧
    busyFlag Config.default 0x04#8 = false ∧ stickyFlag Config.default 0x04#8 = true := by
  exact ⟨ready _, ready _, by decide, by decide, by decide, by decide, by decide, by decide⟩

/-- A word still to be presented: an idle block with an empty port is not at the end of the run (R156). -/
theorem test_pending_word_is_not_the_end : ¬runOver { State.reset with inputs := [.present 0x03000000#32] } :=
  fun h => h.2.1.2 0x03000000#32 (List.mem_singleton.mpr rfl)

/-- The last result of a run, about to be taken. -/
def lastResult : State := { at_ .sResult 3#2 .take with trace := [.accept 0x03000000#32] }

/-- A run that is over and stays so, and the delivery that ends one. -/
theorem witness_RunsEndAtTheLastDelivery :
    OwesResult State.reset ∧ step State.reset = .next (after State.reset) ∧ runOver State.reset ∧
    OwesResult lastResult ∧ step lastResult = .next (after lastResult) ∧ ¬runOver lastResult ∧ runOver (after lastResult) := by
  refine ⟨fun h => absurd rfl h, rfl, ⟨rfl, ⟨rfl, by simp [State.reset]⟩, rfl⟩, fun _ => rfl, rfl,
    fun h => absurd h.1 (by decide), ⟨by decide, ⟨by decide, ?_⟩, by decide⟩⟩
  intro w h
  cases h

/-- The events of table P5's RDREG from the guard's last status read on, and those of the CHKIDLE after it. -/
def absentTarget : List PortEvent :=
  transferEvents Config.default 0x00#8 0x68#8 [] 0x04#8 ++
    (ackEvents Config.default 0x04#8 ++ [.read 0x05#8 0x00#8] ++ [.deliver 0x300#11] ++
      cleanCheckEvents Config.default 0x03000000#32 0x00#8 0x00#8)

/-- The status register along them: device-error rises before the poll's read and falls with the acknowledge. -/
def absentTargetStatus (k : Nat) : Byte := if k = 3 ∨ k = 4 then 0x04#8 else 0x00#8

theorem absentTarget_bound (k : Nat) (e : PortEvent) (h : absentTarget[k]? = some e) : k < 10 :=
  (List.getElem?_eq_some_iff.mp h).1

/-- A controller that meets the premises of R176, on program P5; a write to 0x2C starts a transfer too. -/
theorem witness_NextCheckFindsNoLeftoverFlag :
    CleanController Config.default 3 absentTargetStatus absentTarget ∧
    StartsTransfer Config.default (rdregWord 0x30#7 0x05#8 0x00#8) (readSetup Config.default 0x30#7 0x05#8 0#8 0#8) 0x68#8
      [.read 0x05#8 0x00#8] 0x00#8 ∧
    StartsTransfer Config.default (wrregWord 0x2C#7 0x10#8 0xA5#8) (writeSetup Config.default 0x2C#7 0x10#8 0xA5#8 0#8) 0x48#8
      [] 0x00#8 ∧
    pollEnds Config.default [] 0x04#8 ∧
    readyFor (rdregWord 0x30#7 0x05#8 0x00#8) { State.reset with cmds := [rdregWord 0x30#7 0x05#8 0x00#8, 0x03000000#32] } := by
  refine ⟨⟨?_, ?_, ?_, ?_⟩, .read _ _ _ _ _ _, .write _ _ _ _ (by decide), ⟨by simp, .inl (by decide)⟩,
    ⟨rfl, rfl, test_default_config_ok, (by decide : 0#3 ≠ 6#3), rfl⟩⟩
  · intro k b h
    have := absentTarget_bound k _ h
    interval_cases k <;> first | (cases h; rfl) | cases h
  · intro k v h
    have := absentTarget_bound k _ h
    interval_cases k <;> first | (cases h; rfl) | cases h
  · intro k h1 h2
    have : k < 10 := h2
    interval_cases k <;> rfl
  · intro k h2
    have : k < 10 := h2
    interval_cases k <;> rfl

end Sys2Proof.Tests
end

section
/-! The stops of the machine (spec/00_scope.md rule R7, spec/60_exceptions.md rule R187): where each shared operation has
a next state, and what a command meets that is not accepted. -/

namespace Sys2Proof.Machine

variable {s : State} {m : MicroState}

/-! ## The accept step of a command that is not accepted (R146, R7) -/

theorem cmdReady_eq_true : cmdReady s = true ↔ s.seq = MicroState.sIdle.code ∧ s.mapped = true := by
  simp [cmdReady]

/-- A block that is not ready leaves the word at the port. -/
theorem acceptWord_notReady {w : BitVec 32} {dispatch : State → State} (hm : s.micro = some m)
    (hr : m ≠ .sIdle ∨ s.mapped = false) : acceptWord w dispatch s = .next (s.leaveWaiting w) := by
  have hseq : s.seq = m.code := (micro_eq_some.mp hm).2
  have hn : ¬cmdReady s = true := by
    rw [cmdReady_eq_true, hseq, code_inj]
    rintro ⟨hidle, hmap⟩
    exact hr.elim (· hidle) (by simp [hmap])
  simp [acceptWord, hm, hn]

/-- A ready block refuses every word while its parameters are not well formed. -/
theorem acceptWord_illFormed {w : BitVec 32} {dispatch : State → State} (hm : s.micro = some .sIdle)
    (hmap : s.mapped = true) (hcfg : configOk s.cfg = false) : acceptWord w dispatch s = .refused .illFormedConfig := by
  have hr : cmdReady s = true := cmdReady_eq_true.mpr ⟨(micro_eq_some.mp hm).2, hmap⟩
  simp [acceptWord, hm, hr, hcfg]

/-! ## Each command is the accept step with its own word and dispatch (R125, R136, R107) -/

theorem exec_rdreg (t : Target) (r v : Byte) (s : State) :
    exec (.rdreg t r v) s = acceptWord (rdregWord t r v) (fun s1 => s1.goto .sRAux1Rd) s := rfl

theorem exec_wrreg (t : Target) (r v : Byte) (s : State) :
    exec (.wrreg t r v) s = acceptWord (wrregWord t r v) dispatchWrite s := rfl

theorem exec_chkidle (t : Target) (r v : Byte) (s : State) :
    exec (.chkidle t r v) s = acceptWord (chkidleWord t r v) (fun s1 => s1.goto .sGStsRd1) s := rfl

/-- Settles O10: each command is the accept step with its own word, and the accept step asks for a ready block before it
asks for a well-formed configuration. -/
theorem commandsWaitOrAreRefused : Obligations.CommandsWaitOrAreRefused := by
  intro s m t r v hseq ho
  have hm : s.micro = some m := micro_of_seq ho hseq
  rw [exec_rdreg, exec_wrreg, exec_chkidle]
  constructor
  · intro hr
    exact ⟨acceptWord_notReady hm hr, acceptWord_notReady hm hr, acceptWord_notReady hm hr⟩
  · rintro rfl hmap hcfg
    exact ⟨acceptWord_illFormed hm hmap hcfg, acceptWord_illFormed hm hmap hcfg, acceptWord_illFormed hm hmap hcfg⟩

/-! ## The rows of the transition table give a next state for every `OP` their micro-state serves (R149) -/

theorem guardPassed_isNext (ho : s.op = 1#2 ∨ s.op = 2#2 ∨ s.op = 3#2) : ∃ t, guardPassed s = .next t := by
  obtain h | h | h := ho <;> simp [guardPassed, h]

theorem afterGuardRead2_isNext (b : Byte) (ho : s.op = 1#2 ∨ s.op = 2#2 ∨ s.op = 3#2) :
    ∃ t, afterGuardRead2 b s = .next t := by
  unfold afterGuardRead2
  dsimp only
  split
  · exact ⟨_, rfl⟩
  · exact guardPassed_isNext ho

theorem afterAck_isNext (ho : s.op = 1#2 ∨ s.op = 2#2) : ∃ t, afterAck s = .next t := by
  obtain h | h := ho <;> simp [afterAck, h]

theorem afterRead_isNext {off : Offset} (b : Byte) (hi : microOp m s = some (.regrd off)) (ho : opServed m s.op) :
    ∃ t, afterRead m b (s.readDone off b) = .next t := by
  cases m
  case sGStsRd2 => exact afterGuardRead2_isNext b ho
  case sRAux1Rd | sRAux2Rd | sWAuxRd | sGStsRd1 | sPStsRd | sDataRd => exact ⟨_, rfl⟩
  all_goals simp [microOp, rmwClear, acknowledge] at hi

theorem afterWrite_isNext {off : Offset} {v : Byte} (hi : microOp m s = some (.regwr off v)) (ho : opServed m s.op) :
    ∃ t, afterWrite m (s.writeDone off v) = .next t := by
  cases m
  case sAckWr => exact afterAck_isNext ho
  case sIdle | sRAux1Rd | sRAux2Rd | sWAuxRd | sGStsRd1 | sGStsRd2 | sPDelay | sPStsRd | sDataRd | sResult =>
    simp [microOp] at hi
  all_goals exact ⟨_, rfl⟩

theorem afterDelay_isNext {us : BitVec 16} (hi : microOp m s = some (.delay us)) :
    ∃ t, afterDelay m (s.delayOver us) = .next t := by
  cases m
  case sPDelay => exact ⟨_, rfl⟩
  all_goals simp [microOp, rmwClear, acknowledge] at hi

/-! ## Every micro-state of a running command issues a micro-operation, which has a next state (R41, R69) -/

/-- `S_START_WR` is where this rests on `OP`: there is a control byte for 1 and 2 only. -/
theorem microOp_isSome (h1 : m ≠ .sIdle) (h2 : m ≠ .sResult) (ho : opServed m s.op) : ∃ i, microOp m s = some i := by
  cases m
  case sIdle => exact absurd rfl h1
  case sResult => exact absurd rfl h2
  case sStartWr =>
    have hop : s.op = 1#2 ∨ s.op = 2#2 := ho
    obtain h | h := hop <;> simp [microOp, controlGo, h]
  all_goals exact ⟨_, rfl⟩

/-- An issued micro-operation waits, or its answer leads to the next row. -/
theorem exec_microOp_isNext {i : Instr} (hm : s.micro = some m) (hi : microOp m s = some i) (hmap : s.mapped = true)
    (ho : opServed m s.op) : ∃ t, exec i s = .next t := by
  obtain ⟨off, rfl⟩ | ⟨off, v, rfl⟩ | ⟨us, rfl⟩ := microOp_kind hi
  · simp only [exec, execRegrd, whenIssued_eq hm hi hmap]
    split
    · exact afterRead_isNext _ hi ho
    · exact ⟨_, rfl⟩
  · simp only [exec, execRegwr, whenIssued_eq hm hi hmap]
    split
    · exact afterWrite_isNext hi ho
    · exact ⟨_, rfl⟩
  · simp only [exec, execDelay, whenIssued_eq hm hi hmap]
    split
    · exact afterDelay_isNext hi
    · exact ⟨_, rfl⟩

theorem deliver_isNext (hmap : s.mapped = true) : ∃ t, deliver s = .next t := by
  unfold deliver
  rw [if_pos hmap]
  split <;> exact ⟨_, rfl⟩

/-! ## The block's own step, and the pin -/

/-- From a state that meets the invariant the block's own step stops on an ill-formed configuration only, and only where an
idle block meets a command. -/
theorem Inv.blockStep_isNext_or_refused (h : Inv s m) :
    (∃ t, blockStep s = .next t) ∨
      (configOk s.cfg = false ∧ s.seq = MicroState.sIdle.code ∧ blockStep s = .refused .illFormedConfig) := by
  obtain ⟨hm, -⟩ | ⟨hm, ⟨w, ws, -, hmap, hf⟩ | ⟨-, hf⟩⟩ | ⟨hm, hf⟩ | ⟨m', i, hm, hi, hf⟩ | ⟨m', hm, h1, h2, hi, -⟩ :=
    fetch_cases s
  · rw [h.micro] at hm; cases hm
  · obtain ⟨ho, hidle⟩ := micro_eq_some.mp hm
    rw [blockStep_command hf]
    cases hcfg : configOk s.cfg with
    | true => exact .inl ⟨_, acceptWord_ready hidle hmap hcfg ho⟩
    | false => exact .inr ⟨rfl, hidle, acceptWord_illFormed (s := s.takeCommand) hm hmap hcfg⟩
  · exact .inl ⟨s.useInput, by simp only [blockStep, hf]⟩
  · obtain rfl := h.micro_unique hm
    simp only [blockStep, hf]
    exact .inl (deliver_isNext (h.underway (by decide)).1)
  · obtain rfl := h.micro_unique hm
    simp only [blockStep, hf]
    exact .inl (exec_microOp_isNext hm hi (h.underway (microOp_some hi).1).1 h.op)
  · obtain rfl := h.micro_unique hm
    obtain ⟨i, hi'⟩ := microOp_isSome h1 h2 h.op
    rw [hi] at hi'; cases hi'

/-- The pin may change but for its fall during a command (R187). -/
theorem changeMapped_isNext_or_fault (b : Bool) (s : State) :
    (∃ t, changeMapped b s = .next t) ∨
      (b = false ∧ s.seq ≠ MicroState.sIdle.code ∧ changeMapped b s = .fault .unmappedDuringCommand) := by
  unfold changeMapped
  split
  · rename_i hfall
    exact .inr (by simpa using hfall)
  · exact .inl ⟨_, rfl⟩

/-- Settles O38: by what comes in from outside. A reset always has a next state, the pin has the one stop, and the block's
own step, which a presented word does not take out of the invariant, has the other. -/
theorem goodStatesDoNotStop : Obligations.GoodStatesDoNotStop := by
  rintro s ⟨m, h⟩
  unfold step
  split
  · exact .inl ⟨_, rfl⟩
  · rename_i b rest hin
    obtain hnext | ⟨rfl, hrun, hfault⟩ := changeMapped_isNext_or_fault b s.useInput
    · exact .inl hnext
    · exact .inr (.inl ⟨by rw [hin]; rfl, hrun, hfault⟩)
  · rename_i w rest hin
    exact (h.present w).blockStep_isNext_or_refused.imp_right .inr
  · exact h.blockStep_isNext_or_refused.imp_right .inr

end Sys2Proof.Machine
end

section
/-! The rows of the transition table (spec/45_sequencer_fsm.md rule R149) said once: every next state a read, a write and
a dispatched word may lead to, with the test that leads there. -/

namespace Sys2Proof.Machine

variable {s t : State} {m : MicroState} {b : Byte}

/-! ## The rows of a read -/

/-- The read and write halves of the three read-modify-writes (R93). -/
def auxReadRows : List (MicroState × MicroState) :=
  [(.sRAux1Rd, .sRAux1Wr), (.sRAux2Rd, .sRAux2Wr), (.sWAuxRd, .sWAuxWr)]

/-- The captured status and the counter after a status read of the poll loop (R111). -/
def polled (b : Byte) (s : State) : State := { s with stsCap := b, pollcnt := s.pollcnt + 1#9 }

/-- Everything that may follow a read answered with `b`. -/
inductive ReadRow (b : Byte) (s : State) : MicroState → State → Prop where
  | aux {m m' : MicroState} (h : (m, m') ∈ auxReadRows) : ReadRow b s m ({ s with auxtmp := b }.goto m')
  | guardBusy (hb : busyFlag s.cfg b = true) : ReadRow b s .sGStsRd1 (finish .busy 0x00#8 { s with stsCap := b })
  | guardClears (hb : busyFlag s.cfg b = false) (hf : stickyFlag s.cfg b = true) :
    ReadRow b s .sGStsRd1 ({ s with stsCap := b }.goto .sGStsClr)
  | guardGoesOn (hb : busyFlag s.cfg b = false) (hf : stickyFlag s.cfg b = false) :
    ReadRow b s .sGStsRd1 ({ s with stsCap := b }.goto .sGStsRd2)
  | guardFails (hf : stickyFlag s.cfg b = true) :
    ReadRow b s .sGStsRd2 (finish .configurationError 0x00#8 { s with stsCap := b })
  | guardStarts (hf : stickyFlag s.cfg b = false) (ho : s.op = 1#2 ∨ s.op = 2#2) :
    ReadRow b s .sGStsRd2 ({ s with stsCap := b }.goto .sStartWr)
  | guardEnds (hf : stickyFlag s.cfg b = false) (ho : s.op = 3#2) :
    ReadRow b s .sGStsRd2 (finish .success 0x00#8 { s with stsCap := b })
  | pollCompletes (hc : pollCompleted s.cfg b = true) : ReadRow b s .sPStsRd ((decideRead (polled b s)).goto .sAckWr)
  | pollGoesOn (hc : pollCompleted s.cfg b = false) (hn : s.pollcnt + 1#9 ≠ s.cfg.pollMax) :
    ReadRow b s .sPStsRd ((polled b s).goto .sPDelay)
  | timesOut (hc : pollCompleted s.cfg b = false) (hn : s.pollcnt + 1#9 = s.cfg.pollMax) (ha : ackFlag s.cfg b = true) :
    ReadRow b s .sPStsRd ((decideRead { polled b s with timedout := true }).goto .sAckWr)
  | timesOutToData (hc : pollCompleted s.cfg b = false) (hn : s.pollcnt + 1#9 = s.cfg.pollMax)
      (ha : ackFlag s.cfg b = false) (ho : s.op = 1#2) :
    ReadRow b s .sPStsRd ((decideRead { polled b s with timedout := true }).goto .sDataRd)
  | timesOutEnds (hc : pollCompleted s.cfg b = false) (hn : s.pollcnt + 1#9 = s.cfg.pollMax)
      (ha : ackFlag s.cfg b = false) (ho : s.op ≠ 1#2) :
    ReadRow b s .sPStsRd (finish .timeout 0x00#8 { polled b s with timedout := true })
  | data : ReadRow b s .sDataRd (finishCode s.outcome b s)

/-- Only RDREG decides its outcome at the exit of the poll loop (R149). -/
theorem decideRead_of_op_ne (ho : s.op ≠ 1#2) : decideRead s = s := if_neg ho

theorem afterGuardRead1_row (b : Byte) (s : State) : ReadRow b s .sGStsRd1 (afterGuardRead1 b s) := by
  unfold afterGuardRead1
  split
  · exact .guardBusy ‹_›
  · rename_i hb
    split
    · exact .guardClears (by simpa using hb) ‹_›
    · exact .guardGoesOn (by simpa using hb) (by simpa using ‹¬stickyFlag s.cfg b = true›)

theorem afterGuardRead2_row (h : afterGuardRead2 b s = .next t) : ReadRow b s .sGStsRd2 t := by
  unfold afterGuardRead2 guardPassed at h
  dsimp only at h
  split at h
  · cases h; exact .guardFails ‹_›
  · have hf : stickyFlag s.cfg b = false := by simpa using ‹¬stickyFlag s.cfg b = true›
    split at h
    · cases h; exact .guardStarts hf ‹_›
    · split at h
      · cases h; exact .guardEnds hf ‹_›
      · cases h

theorem afterPollRead_row (b : Byte) (s : State) : ReadRow b s .sPStsRd (afterPollRead b s) := by
  unfold afterPollRead
  dsimp only
  split
  · exact .pollCompletes ‹_›
  · have hc : pollCompleted s.cfg b = false := by simpa using ‹¬pollCompleted s.cfg b = true›
    split
    · rename_i hn
      unfold pollTimedOut
      dsimp only
      split
      · exact .timesOut hc hn ‹_›
      · have ha : ackFlag s.cfg b = false := by simpa using ‹¬ackFlag s.cfg b = true›
        split
        · exact .timesOutToData hc hn ha ‹_›
        · rename_i ho
          rw [decideRead_of_op_ne (by exact ho)]
          exact .timesOutEnds hc hn ha ho
    · exact .pollGoesOn hc ‹_›

theorem afterRead_row (h : afterRead m b s = .next t) : ReadRow b s m t := by
  cases m <;> simp only [afterRead] at h
  case sGStsRd2 => exact afterGuardRead2_row h
  all_goals cases h
  case sGStsRd1 => exact afterGuardRead1_row b s
  case sPStsRd => exact afterPollRead_row b s
  case sDataRd => exact .data
  all_goals exact .aux (by decide)

/-! ## The rows of a write -/

/-- The rows of a write inside the read sequence, the write sequence and the guard. -/
def innerWriteRows : List (MicroState × MicroState) :=
  [(.sRAux1Wr, .sRAddrWr), (.sRAddrWr, .sRCmdWr), (.sRCmdWr, .sRAux2Rd), (.sWAddrWr, .sWCmdWr), (.sWCmdWr, .sWDataWr),
    (.sWDataWr, .sWAuxRd), (.sGStsClr, .sGStsRd2)]

/-- Everything that may follow a completed write. -/
inductive WriteRow (s : State) : MicroState → State → Prop where
  | inner {m m' : MicroState} (h : (m, m') ∈ innerWriteRows) : WriteRow s m (s.goto m')
  | readIsSetUp : WriteRow s .sRAux2Wr (s.goto .sGStsRd1)
  | writeIsSetUp : WriteRow s .sWAuxWr (s.goto .sGStsRd1)
  | starts : WriteRow s .sStartWr (s.goto .sPDelay)
  | ackToData (ho : s.op = 1#2) : WriteRow s .sAckWr (s.goto .sDataRd)
  | ackEnds (ho : s.op = 2#2) : WriteRow s .sAckWr (finish (classify s.cfg s.timedout s.stsCap) 0x00#8 s)

theorem afterAck_row (h : afterAck s = .next t) : WriteRow s .sAckWr t := by
  unfold afterAck at h
  split at h
  · cases h; exact .ackToData ‹_›
  · split at h
    · cases h; exact .ackEnds ‹_›
    · cases h

theorem afterWrite_row (h : afterWrite m s = .next t) : WriteRow s m t := by
  cases m <;> simp only [afterWrite] at h
  case sAckWr => exact afterAck_row h
  all_goals cases h
  case sRAux2Wr => exact .readIsSetUp
  case sWAuxWr => exact .writeIsSetUp
  case sStartWr => exact .starts
  all_goals exact .inner (by decide)

/-! ## The rows of an accepted word -/

/-- Everything that may follow the latching of a word (R148), with the `OP` that `latch` takes from it. -/
inductive DispatchRow (w : BitVec 32) (s : State) : State → Prop where
  | illegal : DispatchRow w s (finish .illegalCommand 0x00#8 s)
  | reads (ho : cmdOp w = 1#2) : DispatchRow w s (s.goto .sRAux1Rd)
  | denied : DispatchRow w s (finish .accessDenied 0x00#8 s)
  | writes (ho : cmdOp w = 2#2) (ht : inReservedWindow s.cfg s.tgt = false) : DispatchRow w s (s.goto .sWAddrWr)
  | checks (ho : cmdOp w = 3#2) : DispatchRow w s (s.goto .sGStsRd1)

theorem dispatchOf_row (w : BitVec 32) (s : State) : DispatchRow w s (dispatchOf w s) := by
  obtain ⟨e, he⟩ | ⟨t, r, v, -, rfl⟩ | ⟨t, r, v, -, rfl⟩ | ⟨t, r, v, -, rfl⟩ := decodeCmd32_cases w
  · unfold dispatchOf
    rw [he]
    exact .illegal
  · rw [dispatchOf_rdreg]
    exact .reads (rdregWord_fields t r v).1
  · rw [dispatchOf_wrreg]
    unfold dispatchWrite
    split
    · exact .denied
    · exact .writes (wrregWord_fields t r v).1 (by simpa using ‹¬inReservedWindow s.cfg s.tgt = true›)
  · rw [dispatchOf_chkidle]
    exact .checks (chkidleWord_fields t r v).1

end Sys2Proof.Machine
end

section
/-! The invariant holds after reset, and every step keeps it (spec/10_state.md rules R10 to R16). -/

namespace Sys2Proof.Machine

variable {s t : State} {m m' : MicroState}

/-! ## The invariant under updates that leave the block's registers alone -/

/-- The invariant does not look at the ports' queues and the events; of the pin it asks that a running command has it at
1, and of the record of writes that it is canonical. -/
theorem Inv.outside (h : Inv s m) {p : Bool} (hp : m ≠ .sIdle → p = true) (ws : List (BitVec 32)) (is : List EnvEvent)
    (es : List PortEvent) {mem : Memory} (hw : mem.wf = true) :
    Inv { s with mapped := p, cmds := ws, inputs := is, trace := es, surface := mem } m := by
  obtain ⟨hout, hseq, hund, hop, hpoll, hsts, hres, htgt, -⟩ := h
  refine ⟨hout, hseq, fun hm => ⟨hp hm, (hund hm).2⟩, hop, ?_, ?_, ?_, ?_, hw⟩
  · cases m <;> exact hpoll
  · cases m <;> exact hsts
  · cases m <;> exact hres
  · cases m <;> exact htgt

/-- The pin of a running command is 1. -/
theorem Inv.mapped (h : Inv s m) (hm : m ≠ .sIdle) : s.mapped = true := (h.underway hm).1

theorem Inv.readDone (h : Inv s m) (off : Offset) (b : Byte) : Inv (s.readDone off b) m :=
  h.outside h.mapped _ _ _ h.surface

theorem Inv.writeDone (h : Inv s m) (off : Offset) (v : Byte) : Inv (s.writeDone off v) m :=
  h.outside h.mapped _ _ _ (Memory.write_wf _ _ h.surface)

theorem Inv.delayOver (h : Inv s m) (us : BitVec 16) : Inv (s.delayOver us) m := h.outside h.mapped _ _ _ h.surface

theorem Inv.takeCommand (h : Inv s m) : Inv s.takeCommand m := h.outside h.mapped _ _ _ h.surface

/-! ## Reset -/

/-- Cleared poll registers are within the budget. -/
theorem pollServed_idle_of_cleared (hcnt : s.pollcnt = 0#9) (hto : s.timedout = false) : pollServed .sIdle s :=
  ⟨by bv_omega, by simp [hto]⟩

/-- An idle state whose poll registers are cleared meets the invariant: nothing else is asked of it. -/
theorem inv_idle_of_cleared (hseq : s.seq = MicroState.sIdle.code) (hout : s.outcome ≠ 6#3) (hcnt : s.pollcnt = 0#9)
    (hto : s.timedout = false) (hw : s.surface.wf = true) : Inv s .sIdle where
  outcomeListed := hout
  seqListed := hseq
  underway hm := absurd rfl hm
  op := trivial
  poll := pollServed_idle_of_cleared hcnt hto
  status := trivial
  result := trivial
  target := trivial
  surface := hw

theorem Inv.applyReset (h : Inv s m) : Inv (applyReset s) .sIdle :=
  inv_idle_of_cleared rfl (by simp) rfl rfl h.surface

/-- `S_IDLE` is the micro-state after reset, and no other one. -/
theorem reset_micro_unique (h : State.reset.seq = m.code) : m = .sIdle :=
  (code_inj.mp (show MicroState.sIdle.code = m.code from h)).symm

/-- Settles O36: the registers of the idle block are cleared, and the records are empty. -/
theorem resetIsGood : Obligations.ResetIsGood := by
  refine ⟨inv_idle_of_cleared rfl (by decide) rfl rfl Memory.reset_wf, by decide, rfl, rfl, fun _ => rfl,
    ⟨trivial, ?_⟩, ?_, ?_⟩
  · intro h
    cases reset_micro_unique h
  · intro m h
    obtain rfl := reset_micro_unique h
    trivial
  · intro m h
    obtain rfl := reset_micro_unique h
    trivial

/-! ## Moving on with the frame kept -/

/-- A running command goes on to `m'`, or to its end: what does not change keeps the parts of the invariant that speak of
it, and the parts that depend on `m'` are to be given. -/
theorem Inv.moves (h : Inv s m) (hrun : m ≠ .sIdle ∧ m ≠ .sResult) (hf : SameFrame s t) (m' : MicroState)
    (hseq : t.seq = m'.code) (hout : t.outcome ≠ 6#3) (hop : opServed m' s.op) (hpoll : pollServed m' t)
    (hsts : statusServed m' t) (hres : resultServed m' t) : Good t := by
  refine ⟨m', hout, hseq, fun _ => ?_, ?_, hpoll, hsts, hres, ?_, ?_⟩
  · rw [hf.mapped, hf.cfg]; exact h.underway hrun.1
  · rw [hf.op]; exact hop
  · have htgt : s.op = 2#2 → inReservedWindow s.cfg s.tgt = false := by
      have := h.target
      cases m
      case sIdle => exact absurd rfl hrun.1
      case sResult => exact absurd rfl hrun.2
      all_goals exact this
    rw [← hf.op, ← hf.tgt, ← hf.cfg] at htgt
    cases m'
    case sIdle | sResult => trivial
    all_goals exact htgt
  · rw [hf.surface]; exact h.surface

/-- In every micro-state the counter is within the budget, and at it where `TIMEDOUT` is set. -/
theorem Inv.pollServed_idle (h : Inv s m) : pollServed .sIdle s := by
  have hp := h.poll
  cases m
  case sIdle | sResult => exact hp
  case sAckWr | sDataRd => exact hp.2
  case sPDelay | sPStsRd => exact ⟨BitVec.le_of_lt hp.1, by simp [hp.2]⟩
  all_goals exact pollServed_idle_of_cleared hp.1 hp.2

/-! ## The exit of the poll loop -/

@[simp] theorem polled_stsCap (b : Byte) : (polled b s).stsCap = b := rfl
@[simp] theorem polled_pollcnt (b : Byte) : (polled b s).pollcnt = s.pollcnt + 1#9 := rfl
@[simp] theorem polled_timedout (b : Byte) : (polled b s).timedout = s.timedout := rfl
@[simp] theorem polled_op (b : Byte) : (polled b s).op = s.op := rfl
@[simp] theorem polled_data (b : Byte) : (polled b s).data = s.data := rfl
@[simp] theorem polled_resValid (b : Byte) : (polled b s).resValid = s.resValid := rfl
@[simp] theorem polled_cfg (b : Byte) : (polled b s).cfg = s.cfg := rfl

/-- RDREG's outcome at the exit of the poll loop is a listed one. -/
theorem decideRead_outcome_listed (h : s.outcome ≠ 6#3) : (decideRead s).outcome ≠ 6#3 := by
  rw [decideRead_outcome]
  split
  · exact outcome_code_listed _
  · exact h

/-- What RDREG's outcome is after the poll loop (R151). -/
theorem decideRead_outcome_of_read (ho : s.op = 1#2) :
    (decideRead s).outcome = (classify s.cfg s.timedout s.stsCap).code := by rw [decideRead_outcome, if_pos ho]

/-- A read of the poll loop counts from 1 up to the budget, which it does not pass (R113, R14). -/
theorem Inv.polled_bounds (h : Inv s .sPStsRd) : 0#9 < s.pollcnt + 1#9 ∧ s.pollcnt + 1#9 ≤ s.cfg.pollMax := by
  obtain ⟨hlt, -⟩ := h.poll
  constructor <;> bv_omega

/-- The status read that takes the poll loop to the acknowledge, where `d` holds what it captured, counted and decided
(R112, R113, R119). -/
theorem Inv.pollExit {d : State} {b : Byte} (h : Inv s .sPStsRd) (hf : SameFrame s ((decideRead d).goto .sAckWr))
    (hd : d = { polled b s with timedout := d.timedout }) (ha : ackFlag s.cfg b = true)
    (hc : d.timedout = false → pollCompleted s.cfg b = true) (hn : d.timedout = true → s.pollcnt + 1#9 = s.cfg.pollMax) :
    Good ((decideRead d).goto .sAckWr) := by
  obtain ⟨hpos, hle⟩ := h.polled_bounds
  obtain ⟨hv, hdat⟩ := h.result
  rw [hd] at hf ⊢
  refine h.moves (by decide) hf .sAckWr rfl (decideRead_outcome_listed h.outcomeListed) h.op ?_ ?_ ?_
  · simpa [pollServed] using ⟨hpos, hle, hn⟩
  · simpa [statusServed] using ⟨ha, hc⟩
  · refine ⟨by simpa using hv, by simpa using hdat, fun ho => ?_⟩
    simpa using decideRead_outcome_of_read (by simpa using ho)

/-! ## Every row keeps the invariant -/

theorem Inv.readRow {b : Byte} (h : Inv s m) (hrun : m ≠ .sIdle ∧ m ≠ .sResult) (hf : SameFrame s t)
    (hr : ReadRow b s m t) : Good t := by
  have move := h.moves hrun hf
  cases hr with
  | @aux m m' hmem =>
    simp only [auxReadRows, List.mem_cons, List.not_mem_nil, or_false, Prod.mk.injEq] at hmem
    obtain ⟨rfl, rfl⟩ | ⟨rfl, rfl⟩ | ⟨rfl, rfl⟩ := hmem
    all_goals exact move _ (State.goto_seq _ _) h.outcomeListed h.op h.poll trivial h.result
  | guardBusy hb => exact move .sResult rfl (by simp) trivial h.pollServed_idle trivial rfl
  | guardClears hb hs => exact move .sGStsClr rfl h.outcomeListed h.op h.poll ⟨hb, hs⟩ h.result
  | guardGoesOn hb hs => exact move .sGStsRd2 rfl h.outcomeListed h.op h.poll trivial h.result
  | guardFails hs => exact move .sResult rfl (by simp) trivial h.pollServed_idle trivial rfl
  | guardStarts hs ho => exact move .sStartWr rfl h.outcomeListed ho h.poll hs h.result
  | guardEnds hs ho => exact move .sResult rfl (by simp) trivial h.pollServed_idle trivial rfl
  | pollCompletes hc =>
    have hto : s.timedout = false := h.poll.2
    exact h.pollExit hf rfl (Bool.and_eq_true_iff.mp hc).2 (fun _ => hc) (by simp [hto])
  | pollGoesOn hc hn =>
    have hle := h.polled_bounds.2
    have hlt : s.pollcnt + 1#9 < s.cfg.pollMax := by bv_omega
    exact move .sPDelay rfl h.outcomeListed h.op ⟨hlt, h.poll.2⟩ trivial h.result
  | timesOut hc hn ha => exact h.pollExit hf rfl ha (by simp) (fun _ => hn)
  | timesOutToData hc hn ha ho =>
    obtain ⟨hv, hdat⟩ := h.result
    refine move .sDataRd rfl (decideRead_outcome_listed h.outcomeListed) ho ?_ (by simp [statusServed]) ?_
    · simpa [pollServed] using ⟨h.polled_bounds.1, h.polled_bounds.2, hn⟩
    · exact ⟨by simpa using hv, by simpa using hdat, by simpa using decideRead_outcome_of_read (by exact ho)⟩
  | timesOutEnds hc hn ha ho =>
    exact move .sResult rfl (by simp) trivial ⟨h.polled_bounds.2, fun _ => hn⟩ trivial rfl
  | data => exact move .sResult rfl h.outcomeListed trivial h.pollServed_idle trivial rfl

theorem Inv.writeRow (h : Inv s m) (hrun : m ≠ .sIdle ∧ m ≠ .sResult) (hf : SameFrame s t) (hr : WriteRow s m t) :
    Good t := by
  have move := h.moves hrun hf
  cases hr with
  | @inner m m' hmem =>
    simp only [innerWriteRows, List.mem_cons, List.not_mem_nil, or_false, Prod.mk.injEq] at hmem
    obtain ⟨rfl, rfl⟩ | ⟨rfl, rfl⟩ | ⟨rfl, rfl⟩ | ⟨rfl, rfl⟩ | ⟨rfl, rfl⟩ | ⟨rfl, rfl⟩ | ⟨rfl, rfl⟩ := hmem
    all_goals exact move _ (State.goto_seq _ _) h.outcomeListed h.op h.poll trivial h.result
  | readIsSetUp => exact move .sGStsRd1 rfl h.outcomeListed (.inl h.op) h.poll trivial h.result
  | writeIsSetUp => exact move .sGStsRd1 rfl h.outcomeListed (.inr (.inl h.op)) h.poll trivial h.result
  | starts =>
    obtain ⟨hcnt, hto⟩ := h.poll
    have hpos := configOk_pollMax (h.underway hrun.1).2
    exact move .sPDelay rfl h.outcomeListed h.op ⟨hcnt ▸ hpos, hto⟩ trivial h.result
  | ackToData ho =>
    obtain ⟨hv, hdat, hout⟩ := h.result
    exact move .sDataRd rfl h.outcomeListed ho h.poll h.status.2 ⟨hv, hdat, hout ho⟩
  | ackEnds ho => exact move .sResult rfl (by simp) trivial h.pollServed_idle trivial rfl

theorem Inv.delayRow (h : Inv s .sPDelay) : Good (s.goto .sPStsRd) :=
  h.moves (by decide) (by constructor <;> rfl) .sPStsRd rfl h.outcomeListed h.op h.poll trivial h.result

/-- The latching clears what the entries and the result of a command ask for (R147). -/
theorem Inv.dispatchRow {w : BitVec 32} (h : Inv s .sIdle) (hmap : s.mapped = true) (hcfg : configOk s.cfg = true)
    (hr : DispatchRow w (latch w s) t) : Good t := by
  cases hr with
  | illegal =>
    exact ⟨.sResult, by simp, rfl, fun _ => ⟨hmap, hcfg⟩, trivial, pollServed_idle_of_cleared rfl rfl, trivial,
      rfl, trivial, h.surface⟩
  | denied =>
    exact ⟨.sResult, by simp, rfl, fun _ => ⟨hmap, hcfg⟩, trivial, pollServed_idle_of_cleared rfl rfl, trivial,
      rfl, trivial, h.surface⟩
  | reads ho =>
    exact ⟨.sRAux1Rd, h.outcomeListed, rfl, fun _ => ⟨hmap, hcfg⟩, ho, ⟨rfl, rfl⟩, trivial, ⟨rfl, rfl⟩,
      fun ho' => absurd (ho.symm.trans ho') (by decide), h.surface⟩
  | writes ho ht =>
    exact ⟨.sWAddrWr, h.outcomeListed, rfl, fun _ => ⟨hmap, hcfg⟩, ho, ⟨rfl, rfl⟩, trivial, ⟨rfl, rfl⟩, fun _ => ht,
      h.surface⟩
  | checks ho =>
    exact ⟨.sGStsRd1, h.outcomeListed, rfl, fun _ => ⟨hmap, hcfg⟩, .inr (.inr ho), ⟨rfl, rfl⟩, trivial, ⟨rfl, rfl⟩,
      fun ho' => absurd (ho.symm.trans ho') (by decide), h.surface⟩

/-- Whatever the block itself does keeps the invariant. -/
theorem Inv.blockMove (h : Inv s m) (hmv : BlockMove s t) : Good t := by
  cases hmv with
  | waits => exact ⟨m, h.useInput⟩
  | accepts w ws hm hc hmap hcfg =>
    obtain rfl := h.micro_unique hm
    exact h.takeCommand.dispatchRow hmap hcfg (dispatchOf_row w _)
  | reads m' off b rest t hm hi hmap hin ha =>
    obtain rfl := h.micro_unique hm
    exact (h.readDone off b).readRow (microOp_some hi) (afterRead_frame ha) (afterRead_row ha)
  | writes m' off v rest t hm hi hmap hin ha =>
    obtain rfl := h.micro_unique hm
    exact (h.writeDone off v).writeRow (microOp_some hi) (afterWrite_frame ha) (afterWrite_row ha)
  | delays m' us rest t hm hi hmap hin ha =>
    obtain rfl := h.micro_unique hm
    obtain ⟨rfl, rfl⟩ := afterDelay_next ha
    exact (h.delayOver us).delayRow
  | delivers rest hm hmap hin =>
    obtain rfl := h.micro_unique hm
    exact ⟨.sIdle, h.outcomeListed, rfl, fun hn => absurd rfl hn, trivial, h.pollServed_idle, trivial, trivial, trivial,
      h.surface⟩

/-- Settles O37: by what a step can do. A reset clears the registers, the pin falls in `S_IDLE` only, and a presented word
does not take the block out of the invariant, which its own step keeps row by row. -/
theorem stepKeepsGood : Obligations.StepKeepsGood := by
  rintro s t ⟨m, h⟩ hstep
  obtain ⟨rest, -, rfl⟩ | ⟨b, rest, -, hb, rfl⟩ | ⟨w, rest, -, hmv⟩ | ⟨-, hmv⟩ := step_next hstep
  · exact ⟨.sIdle, h.useInput.applyReset⟩
  · have hb' : m ≠ .sIdle → b = true := fun hm => hb.resolve_right (by rwa [h.seqListed, code_inj])
    exact ⟨m, h.outside hb' _ _ _ h.surface⟩
  · exact (h.present w).blockMove hmv
  · exact h.blockMove hmv

end Sys2Proof.Machine
end

section
/-! The poll counter counts the status reads and the delays since the start trigger (spec/42_poll_classify_ack.md rules
R111, R113). -/

namespace Sys2Proof.Machine

variable {s t : State} {m : MicroState} {b : Byte}

/-! ## Counting one event more -/

section Counting
variable (c : Config) (evs : List PortEvent) (off : Offset) (b : Byte)

@[simp] theorem sinceStart_read : sinceStart c (.read off b :: evs) = .read off b :: sinceStart c evs := rfl

@[simp] theorem sinceStart_delay (us : BitVec 16) : sinceStart c (.delay us :: evs) = .delay us :: sinceStart c evs := rfl

/-- The start trigger begins the count. -/
@[simp] theorem sinceStart_start : sinceStart c (.write c.offCnt b :: evs) = [] := if_pos rfl

theorem sinceStart_write_other (h : off ≠ c.offCnt) :
    sinceStart c (.write off b :: evs) = .write off b :: sinceStart c evs := if_neg h

@[simp] theorem delaysIn_nil : delaysIn c [] = 0 := rfl

@[simp] theorem delaysIn_delay : delaysIn c (.delay c.pollIntervalUs :: evs) = delaysIn c evs + 1 := by simp [delaysIn]

@[simp] theorem delaysIn_read : delaysIn c (.read off b :: evs) = delaysIn c evs := by simp [delaysIn]

@[simp] theorem delaysIn_write : delaysIn c (.write off b :: evs) = delaysIn c evs := by simp [delaysIn]

@[simp] theorem statusReadsIn_nil : statusReadsIn c [] = 0 := rfl

@[simp] theorem statusReadsIn_read : statusReadsIn c (.read c.offSts b :: evs) = statusReadsIn c evs + 1 := by
  simp [statusReadsIn, isReadOf]

@[simp] theorem statusReadsIn_delay (us : BitVec 16) : statusReadsIn c (.delay us :: evs) = statusReadsIn c evs := by
  simp [statusReadsIn, isReadOf]

@[simp] theorem statusReadsIn_write : statusReadsIn c (.write off b :: evs) = statusReadsIn c evs := by
  simp [statusReadsIn, isReadOf]

end Counting

/-- R7 (a): the status and the control register have different offsets. -/
theorem offSts_ne_offCnt {c : Config} (h : configOk c = true) : c.offSts ≠ c.offCnt := by
  have hd := configOk_offsets h
  simp only [configOffsets, List.nodup_cons, List.mem_cons, not_or] at hd
  exact hd.1.1

/-! ## The count by micro-state -/

/-- Only the current micro-state is asked. -/
theorem pollCounted_of_seq (hseq : s.seq = m.code) (h : pollCountedAt m s) : PollCounted s := by
  intro m' hm'
  obtain rfl : m = m' := code_inj.mp (hseq.symm.trans hm')
  exact h

theorem pollCounted_congr (hseq : t.seq = s.seq) (hcfg : t.cfg = s.cfg) (htr : t.trace = s.trace)
    (hcnt : t.pollcnt = s.pollcnt) (h : PollCounted s) : PollCounted t := by
  intro m hm
  have hp := h m (hseq ▸ hm)
  cases m
  case sPDelay | sPStsRd | sAckWr | sDataRd => simpa only [pollCountedAt, hcfg, htr, hcnt] using hp
  all_goals trivial

/-! ## Every row keeps the count -/

/-- The status read of the poll loop catches up with its delay: it counts, in `POLLCNT` and in the events. -/
theorem pollBalanced_of_read (h : Inv s .sPStsRd) (hp : pollCountedAt .sPStsRd s) (hcfg : t.cfg = s.cfg)
    (htr : t.trace = .read s.cfg.offSts b :: s.trace) (hcnt : t.pollcnt = s.pollcnt + 1#9) :
    delaysIn t.cfg (sinceStart t.cfg t.trace) = t.pollcnt.toNat
      ∧ statusReadsIn t.cfg (sinceStart t.cfg t.trace) = t.pollcnt.toNat := by
  obtain ⟨hd, hr⟩ := hp
  obtain ⟨hlt, -⟩ := h.poll
  have hsucc : (s.pollcnt + 1#9).toNat = s.pollcnt.toNat + 1 := by bv_omega
  simp [hcfg, htr, hcnt, hsucc, hd, hr]

theorem pollCounted_readRow {off : Offset} (h : Inv s m) (hp : pollCountedAt m s)
    (hi : microOp m s = some (.regrd off)) (hf : SameFrame (s.readDone off b) t) (hr : ReadRow b (s.readDone off b) m t) :
    PollCounted t := by
  cases hr with
  | @aux m m' hmem =>
    simp only [auxReadRows, List.mem_cons, List.not_mem_nil, or_false, Prod.mk.injEq] at hmem
    obtain ⟨rfl, rfl⟩ | ⟨rfl, rfl⟩ | ⟨rfl, rfl⟩ := hmem
    all_goals exact pollCounted_of_seq (State.goto_seq _ _) trivial
  | guardBusy | guardFails | guardEnds | timesOutEnds | data => exact pollCounted_of_seq (m := .sResult) rfl trivial
  | guardClears => exact pollCounted_of_seq (m := .sGStsClr) rfl trivial
  | guardGoesOn => exact pollCounted_of_seq (m := .sGStsRd2) rfl trivial
  | guardStarts => exact pollCounted_of_seq (m := .sStartWr) rfl trivial
  | pollCompletes | timesOut =>
    cases hi
    exact pollCounted_of_seq (m := .sAckWr) rfl (pollBalanced_of_read h hp hf.cfg hf.trace (by simp))
  | pollGoesOn =>
    cases hi
    exact pollCounted_of_seq (m := .sPDelay) rfl (pollBalanced_of_read h hp hf.cfg hf.trace (by simp))
  | timesOutToData =>
    cases hi
    exact pollCounted_of_seq (m := .sDataRd) rfl (pollBalanced_of_read h hp hf.cfg hf.trace (by simp))

/-- The start trigger writes the control register. -/
theorem microOp_sStartWr {off : Offset} {v : Byte} (h : microOp .sStartWr s = some (.regwr off v)) :
    off = s.cfg.offCnt := by
  simp only [microOp, Option.map_eq_some_iff, Instr.regwr.injEq] at h
  obtain ⟨-, -, hoff, -⟩ := h
  exact hoff.symm

theorem pollCounted_writeRow {off : Offset} {v : Byte} (h : Inv s m) (hp : pollCountedAt m s)
    (hi : microOp m s = some (.regwr off v)) (hr : WriteRow (s.writeDone off v) m t) : PollCounted t := by
  cases hr with
  | @inner m m' hmem =>
    simp only [innerWriteRows, List.mem_cons, List.not_mem_nil, or_false, Prod.mk.injEq] at hmem
    obtain ⟨rfl, rfl⟩ | ⟨rfl, rfl⟩ | ⟨rfl, rfl⟩ | ⟨rfl, rfl⟩ | ⟨rfl, rfl⟩ | ⟨rfl, rfl⟩ | ⟨rfl, rfl⟩ := hmem
    all_goals exact pollCounted_of_seq (State.goto_seq _ _) trivial
  | readIsSetUp | writeIsSetUp => exact pollCounted_of_seq (m := .sGStsRd1) rfl trivial
  | starts =>
    obtain rfl := microOp_sStartWr hi
    obtain ⟨hcnt, -⟩ := h.poll
    exact pollCounted_of_seq (m := .sPDelay) rfl (by simp [pollCountedAt, hcnt])
  | ackToData =>
    cases hi
    have hne := offSts_ne_offCnt (h.underway (by decide)).2
    exact pollCounted_of_seq (m := .sDataRd) rfl (by simpa [pollCountedAt, sinceStart_write_other _ _ _ _ hne] using hp)
  | ackEnds => exact pollCounted_of_seq (m := .sResult) rfl trivial

theorem pollCounted_delayRow {us : BitVec 16} (hp : pollCountedAt .sPDelay s)
    (hi : microOp .sPDelay s = some (.delay us)) : PollCounted ((s.delayOver us).goto .sPStsRd) := by
  cases hi
  exact pollCounted_of_seq (m := .sPStsRd) rfl (by simpa [pollCountedAt] using hp)

theorem pollCounted_dispatchRow {w : BitVec 32} (hr : DispatchRow w s t) : PollCounted t := by
  cases hr with
  | illegal | denied => exact pollCounted_of_seq (m := .sResult) rfl trivial
  | reads => exact pollCounted_of_seq (m := .sRAux1Rd) rfl trivial
  | writes => exact pollCounted_of_seq (m := .sWAddrWr) rfl trivial
  | checks => exact pollCounted_of_seq (m := .sGStsRd1) rfl trivial

theorem pollCounted_blockMove (h : Inv s m) (hp : PollCounted s) (hmv : BlockMove s t) : PollCounted t := by
  have hat := hp m h.seqListed
  cases hmv with
  | waits => exact pollCounted_congr rfl rfl rfl rfl hp
  | accepts w => exact pollCounted_dispatchRow (dispatchOf_row w _)
  | reads m' off b rest t hm hi hmap hin ha =>
    obtain rfl := h.micro_unique hm
    exact pollCounted_readRow h hat hi (afterRead_frame ha) (afterRead_row ha)
  | writes m' off v rest t hm hi hmap hin ha =>
    obtain rfl := h.micro_unique hm
    exact pollCounted_writeRow h hat hi (afterWrite_row ha)
  | delays m' us rest t hm hi hmap hin ha =>
    obtain rfl := h.micro_unique hm
    obtain ⟨rfl, rfl⟩ := afterDelay_next ha
    exact pollCounted_delayRow hat hi
  | delivers => exact pollCounted_of_seq (m := .sIdle) rfl trivial

/-- Settles O42: row by row. The start trigger begins the count at 0, a delay runs ahead by one, and the status read after
it catches up. -/
theorem stepKeepsPollCounted : Obligations.StepKeepsPollCounted := by
  rintro s t ⟨m, h⟩ hp hstep
  obtain ⟨rest, -, rfl⟩ | ⟨b, rest, -, -, rfl⟩ | ⟨w, rest, -, hmv⟩ | ⟨-, hmv⟩ := step_next hstep
  · exact pollCounted_of_seq (m := .sIdle) rfl trivial
  · exact pollCounted_congr rfl rfl rfl rfl hp
  · exact pollCounted_blockMove (h.present w) (pollCounted_congr rfl rfl rfl rfl hp) hmv
  · exact pollCounted_blockMove h hp hmv

end Sys2Proof.Machine
end

section
/-! What the block does is a function of the registers still live in its micro-state (spec/10_state.md rules R17, R33):
every operation commutes with blanking the others. -/

namespace Sys2Proof.Machine

variable {s : State} {m : MicroState} {b : Byte}

/-! ## The view of a state -/

/-- The view depends on nothing of the port side but takes it over: the pin and the queues stay, the records are
blanked. -/
theorem liveView_outside (s : State) (p : Bool) (ws : List (BitVec 32)) (is : List EnvEvent) (es : List PortEvent)
    (mem : Memory) (is' : List Instr) :
    liveView { s with mapped := p, cmds := ws, inputs := is, trace := es, surface := mem, forgotten := is' }
      = { liveView s with mapped := p, cmds := ws, inputs := is } := by
  unfold liveView
  cases microOfCode s.seq with
  | none => rfl
  | some m =>
    cases m
    case sAckWr => dsimp only; split <;> rfl
    all_goals rfl

theorem liveView_port (s : State) : liveView s = { liveView s with mapped := s.mapped, cmds := s.cmds, inputs := s.inputs } :=
  liveView_outside s s.mapped s.cmds s.inputs s.trace s.surface s.forgotten

@[simp] theorem liveView_mapped (s : State) : (liveView s).mapped = s.mapped :=
  (congrArg State.mapped (liveView_port s) :)
@[simp] theorem liveView_cmds (s : State) : (liveView s).cmds = s.cmds :=
  (congrArg State.cmds (liveView_port s) :)
@[simp] theorem liveView_inputs (s : State) : (liveView s).inputs = s.inputs :=
  (congrArg State.inputs (liveView_port s) :)

theorem liveView_seq_cfg (s : State) : (liveView s).seq = s.seq ∧ (liveView s).cfg = s.cfg := by
  unfold liveView
  cases microOfCode s.seq with
  | none => exact ⟨rfl, rfl⟩
  | some m =>
    cases m
    case sAckWr => dsimp only; split <;> exact ⟨rfl, rfl⟩
    all_goals exact ⟨rfl, rfl⟩

@[simp] theorem liveView_seq (s : State) : (liveView s).seq = s.seq := (liveView_seq_cfg s).1
@[simp] theorem liveView_cfg (s : State) : (liveView s).cfg = s.cfg := (liveView_seq_cfg s).2

/-- The working registers and the records blanked. -/
def workingBlanked (s : State) : State :=
  { s with auxtmp := 0#8, stsCap := 0#8, outcome := 0#3, trace := [], surface := [], forgotten := [] }

/-- The micro-states that neither have a byte to write back nor have decided an outcome. -/
def blankStates : List MicroState :=
  [.sRAux1Rd, .sRAddrWr, .sRCmdWr, .sRAux2Rd, .sWAddrWr, .sWCmdWr, .sWDataWr, .sWAuxRd, .sGStsRd1, .sGStsRd2, .sStartWr,
    .sPDelay, .sPStsRd]

theorem liveView_of_blank (hs : s.seq = m.code) (hm : m ∈ blankStates) : liveView s = workingBlanked s := by
  have hc : microOfCode s.seq = some m := microOfCode_eq_some.mpr hs
  unfold liveView
  rw [hc]
  revert hm
  cases m
  case sIdle | sRAux1Wr | sRAux2Wr | sWAuxWr | sGStsClr | sAckWr | sDataRd | sResult => exact fun hm => absurd hm (by decide)
  all_goals exact fun _ => rfl

theorem liveView_sIdle (hs : s.seq = MicroState.sIdle.code) :
    liveView s = { s with
      op := 0#2, tgt := 0#7, reg := 0#8, val := 0#8, auxtmp := 0#8, stsCap := 0#8, pollcnt := 0#9, timedout := false
      outcome := 0#3, data := 0#8, resValid := false, trace := [], surface := [], forgotten := [] } := by
  have hc : microOfCode s.seq = some .sIdle := microOfCode_eq_some.mpr hs
  unfold liveView
  rw [hc]

theorem liveView_auxWrite (hs : s.seq = m.code) (hm : m = .sRAux1Wr ∨ m = .sRAux2Wr ∨ m = .sWAuxWr) :
    liveView s = { s with stsCap := 0#8, outcome := 0#3, trace := [], surface := [], forgotten := [] } := by
  have hc : microOfCode s.seq = some m := microOfCode_eq_some.mpr hs
  unfold liveView
  rw [hc]
  obtain rfl | rfl | rfl := hm <;> rfl

theorem liveView_sGStsClr (hs : s.seq = MicroState.sGStsClr.code) :
    liveView s = { s with auxtmp := 0#8, outcome := 0#3, trace := [], surface := [], forgotten := [] } := by
  have hc : microOfCode s.seq = some .sGStsClr := microOfCode_eq_some.mpr hs
  unfold liveView
  rw [hc]

theorem liveView_sAckWr (hs : s.seq = MicroState.sAckWr.code) :
    liveView s = { s with
      auxtmp := 0#8, outcome := if s.op = 1#2 then s.outcome else 0#3, trace := [], surface := [], forgotten := [] } := by
  have hc : microOfCode s.seq = some .sAckWr := microOfCode_eq_some.mpr hs
  unfold liveView
  rw [hc]
  dsimp only
  split <;> rfl

theorem liveView_decided (hs : s.seq = m.code) (hm : m = .sDataRd ∨ m = .sResult) :
    liveView s = { s with auxtmp := 0#8, stsCap := 0#8, trace := [], surface := [], forgotten := [] } := by
  have hc : microOfCode s.seq = some m := microOfCode_eq_some.mpr hs
  unfold liveView
  rw [hc]
  obtain rfl | rfl := hm <;> rfl

/-! ## The rows of the transition table -/

/-- At the acknowledge the outcome is live for an RDREG only, which has decided it from what is live (R151). -/
theorem liveView_pollExit (d : State) :
    liveView ((decideRead d).goto .sAckWr)
      = liveView ((decideRead { d with auxtmp := 0#8, outcome := 0#3, trace := [], surface := [], forgotten := [] }).goto .sAckWr) := by
  by_cases ho : d.op = 1#2 <;> simp [decideRead, ho, liveView, State.goto]

theorem afterRead_blanked (hm : m ∈ blankStates) :
    onNext liveView (afterRead m b s) = onNext liveView (afterRead m b (workingBlanked s)) := by
  cases m
  case sGStsRd1 => dsimp only [afterRead, afterGuardRead1, workingBlanked]; split_ifs <;> rfl
  case sGStsRd2 => dsimp only [afterRead, afterGuardRead2, guardPassed, workingBlanked]; split_ifs <;> rfl
  case sPStsRd =>
    dsimp only [afterRead, afterPollRead, pollTimedOut, workingBlanked]
    split_ifs
    · exact congrArg Host.Outcome.next (liveView_pollExit _)
    · exact congrArg Host.Outcome.next (liveView_pollExit _)
    · simp [decideRead, *, State.goto, liveView]
    · simp [decideRead, *, liveView, finish, finishCode]
    · rfl
  case sDataRd => exact absurd hm (by decide)
  all_goals rfl

theorem afterRead_liveView (hs : s.seq = m.code) (b : Byte) :
    onNext liveView (afterRead m b s) = onNext liveView (afterRead m b (liveView s)) := by
  by_cases hm : m ∈ blankStates
  · rw [liveView_of_blank hs hm]
    exact afterRead_blanked hm
  · cases m
    case sDataRd => rw [liveView_decided hs (.inl rfl)]; rfl
    case sIdle | sRAux1Wr | sRAux2Wr | sWAuxWr | sGStsClr | sAckWr | sResult => rfl
    all_goals exact absurd (by decide) hm

theorem afterWrite_liveView (hs : s.seq = m.code) :
    onNext liveView (afterWrite m s) = onNext liveView (afterWrite m (liveView s)) := by
  cases m
  case sAckWr =>
    rw [liveView_sAckWr hs]
    simp only [afterWrite, afterAck]
    split_ifs <;> simp [State.goto, finish, finishCode, liveView, *]
  case sRAux1Wr | sRAux2Wr | sWAuxWr => rw [liveView_auxWrite hs (by decide)]; rfl
  case sGStsClr => rw [liveView_sGStsClr hs]; rfl
  case sRAddrWr | sRCmdWr | sWAddrWr | sWCmdWr | sWDataWr | sStartWr => rw [liveView_of_blank hs (by decide)]; rfl
  all_goals rfl

theorem afterDelay_liveView (hs : s.seq = m.code) :
    onNext liveView (afterDelay m s) = onNext liveView (afterDelay m (liveView s)) := by
  cases m
  case sPDelay => rw [liveView_of_blank hs (by decide)]; rfl
  all_goals rfl

/-- The operands of an issued micro-operation are live. -/
theorem microOp_liveView (hs : s.seq = m.code) : microOp m (liveView s) = microOp m s := by
  cases m
  case sIdle | sResult => rfl
  case sAckWr => rw [liveView_sAckWr hs]; rfl
  case sDataRd => rw [liveView_decided hs (.inl rfl)]; rfl
  case sRAux1Wr | sRAux2Wr | sWAuxWr => rw [liveView_auxWrite hs (by decide)]; rfl
  case sGStsClr => rw [liveView_sGStsClr hs]; rfl
  all_goals rw [liveView_of_blank hs (by decide)]; rfl

/-- The result word is live (R65). -/
theorem resWord_liveView (hs : s.seq = MicroState.sResult.code) : resWord (liveView s) = resWord s := by
  rw [liveView_decided hs (.inr rfl)]; rfl

theorem dispatchWrite_denied (h : inReservedWindow s.cfg s.tgt = true) :
    dispatchWrite s = finish .accessDenied 0x00#8 s := if_pos h

theorem dispatchWrite_allowed (h : inReservedWindow s.cfg s.tgt = false) : dispatchWrite s = s.goto .sWAddrWr :=
  if_neg (by simp [h])

/-- An accepted word overwrites whatever of the earlier command is left (R147); the window test sees the parameters and the
word only. -/
theorem dispatchOf_liveView (w : BitVec 32) (hs : s.seq = MicroState.sIdle.code) :
    liveView (dispatchOf w (latch w s)) = liveView (dispatchOf w (latch w (liveView s))) := by
  rw [liveView_sIdle hs]
  unfold dispatchOf
  obtain ⟨e, he⟩ | ⟨t, r, v, he, -⟩ | ⟨t, r, v, he, -⟩ | ⟨t, r, v, he, -⟩ := decodeCmd32_cases w <;> simp only [he]
  · rfl
  · rfl
  · cases hw : inReservedWindow s.cfg (cmdTarget w) with
    | true => rw [dispatchWrite_denied (s := latch w s) hw, dispatchWrite_denied hw]; rfl
    | false => rw [dispatchWrite_allowed (s := latch w s) hw, dispatchWrite_allowed hw]; rfl
  · rfl

theorem deliver_liveView (hs : s.seq = MicroState.sResult.code) (res : BitVec 11) :
    liveView ((s.useInput.record (.deliver res)).goto .sIdle)
      = liveView (((liveView s).useInput.record (.deliver res)).goto .sIdle) := by
  rw [liveView_decided hs (.inr rfl)]; rfl

end Sys2Proof.Machine
end

section
/-! Two good states with the same view take the same step (spec/10_state.md rules R17, R33). -/

namespace Sys2Proof.Machine

variable {s t : State} {m : MicroState}

/-! ## Outcomes that cannot be told apart -/

/-- Two outcomes, reached from the traces `tr` and `tr'`, with the same new events and the same view, or the same stop. -/
inductive Alike (tr tr' : List PortEvent) :
    Host.Outcome State Fault Refusal → Host.Outcome State Fault Refusal → Prop where
  | next {s' t' : State} (es : List PortEvent) (hv : liveView s' = liveView t') (hs : s'.trace = es ++ tr)
      (ht : t'.trace = es ++ tr') : Alike tr tr' (.next s') (.next t')
  | fault (r : Fault) : Alike tr tr' (.fault r) (.fault r)
  | refused (r : Refusal) : Alike tr tr' (.refused r) (.refused r)

/-- Outcomes that agree up to the view are alike, if both make the events `es`. -/
theorem alike_of_onNext {tr tr' : List PortEvent} {o o' : Host.Outcome State Fault Refusal} (es : List PortEvent)
    (h : onNext liveView o = onNext liveView o') (hs : ∀ u, o = .next u → u.trace = es ++ tr)
    (ht : ∀ u, o' = .next u → u.trace = es ++ tr') : Alike tr tr' o o' := by
  cases o with
  | next u =>
    cases o' with
    | next u' =>
      simp only [onNext_next, Host.Outcome.next.injEq] at h
      exact .next es h (hs u rfl) (ht u' rfl)
    | fault r | refused r => simp at h
  | fault r =>
    cases o' with
    | fault r' => exact .fault .unmappedDuringCommand
    | next u | refused r => simp at h
  | refused r =>
    cases o' with
    | refused r' =>
      simp only [onNext_refused, Host.Outcome.refused.injEq] at h
      exact h ▸ .refused r
    | next u | fault r => simp at h

/-! ## What equal views share -/

section SameView
variable (hv : liveView s = liveView t)
include hv

theorem seq_of_sameView : t.seq = s.seq := by simpa using congrArg State.seq hv.symm

theorem cfg_of_sameView : t.cfg = s.cfg := by simpa using congrArg State.cfg hv.symm

theorem mapped_of_sameView : t.mapped = s.mapped := by simpa using congrArg State.mapped hv.symm

theorem cmds_of_sameView : t.cmds = s.cmds := by simpa using congrArg State.cmds hv.symm

theorem inputs_of_sameView : t.inputs = s.inputs := by simpa using congrArg State.inputs hv.symm

theorem microOp_of_sameView (hs : s.seq = m.code) : microOp m t = microOp m s := by
  rw [← microOp_liveView hs, hv, microOp_liveView ((seq_of_sameView hv).trans hs)]

/-- The same changes to the pin and the queues, and any records, keep the views the same. -/
theorem sameView_outside {p p' : Bool} {ws ws' : List (BitVec 32)} {is is' : List EnvEvent} (hp : p' = p) (hw : ws' = ws)
    (hi : is' = is) (es es' : List PortEvent) (mem mem' : Memory) :
    liveView { s with mapped := p, cmds := ws, inputs := is, trace := es, surface := mem }
      = liveView { t with mapped := p', cmds := ws', inputs := is', trace := es', surface := mem' } := by
  subst hp hw hi
  have hs := liveView_outside s p' ws' is' es mem s.forgotten
  have ht := liveView_outside t p' ws' is' es' mem' t.forgotten
  rw [hv] at hs
  exact hs.trans ht.symm

/-- One input used up, any records. -/
theorem sameView_useInput (es es' : List PortEvent) (mem mem' : Memory) :
    liveView { s.useInput with trace := es, surface := mem } = liveView { t.useInput with trace := es', surface := mem' } :=
  sameView_outside hv (mapped_of_sameView hv) (cmds_of_sameView hv) (congrArg List.tail (inputs_of_sameView hv)) ..

end SameView

/-! ## The micro-operations -/

theorem afterDelay_trace {u : State} (h : afterDelay m s = .next u) : u.trace = s.trace := by
  obtain ⟨-, rfl⟩ := afterDelay_next h
  rfl

/-- A row that commutes with the view and keeps the trace has alike outcomes, on states with the same view in which the
event has been recorded. -/
theorem row_alike {F : State → Host.Outcome State Fault Refusal} {tr tr' : List PortEvent} (es : List PortEvent)
    (hF : ∀ u : State, u.seq = m.code → onNext liveView (F u) = onNext liveView (F (liveView u)))
    (htrace : ∀ u u', F u = .next u' → u'.trace = u.trace) (hv : liveView s = liveView t) (hs : s.seq = m.code)
    (hse : s.trace = es ++ tr) (hte : t.trace = es ++ tr') : Alike tr tr' (F s) (F t) := by
  refine alike_of_onNext es ?_ (fun u hu => (htrace s u hu).trans hse) (fun u hu => (htrace t u hu).trans hte)
  rw [hF s hs, hv, ← hF t ((seq_of_sameView hv).trans hs)]

section SameView
variable (hv : liveView s = liveView t)
include hv

theorem waits_alike : Alike s.trace t.trace (.next s.useInput) (.next t.useInput) :=
  .next [] (sameView_useInput hv ..) rfl rfl

theorem afterRead_alike (hs : s.seq = m.code) (off : Offset) (b : Byte) :
    Alike s.trace t.trace (afterRead m b (s.readDone off b)) (afterRead m b (t.readDone off b)) :=
  row_alike [.read off b] (fun _ hu => afterRead_liveView hu b) (fun _ _ hu => (afterRead_frame hu).trace)
    (sameView_useInput hv ..) hs rfl rfl

theorem afterWrite_alike (hs : s.seq = m.code) (off : Offset) (v : Byte) :
    Alike s.trace t.trace (afterWrite m (s.writeDone off v)) (afterWrite m (t.writeDone off v)) :=
  row_alike [.write off v] (fun _ hu => afterWrite_liveView hu) (fun _ _ hu => (afterWrite_frame hu).trace)
    (sameView_useInput hv ..) hs rfl rfl

theorem afterDelay_alike (hs : s.seq = m.code) (us : BitVec 16) :
    Alike s.trace t.trace (afterDelay m (s.delayOver us)) (afterDelay m (t.delayOver us)) :=
  row_alike [.delay us] (fun _ hu => afterDelay_liveView hu) (fun _ _ hu => afterDelay_trace hu)
    (sameView_useInput hv ..) hs rfl rfl

theorem exec_alike {i : Instr} (hm : s.micro = some m) (hm' : t.micro = some m) (hi : microOp m s = some i)
    (hmap : s.mapped = true) : Alike s.trace t.trace (exec i s) (exec i t) := by
  have hs := (micro_eq_some.mp hm).2
  have hi' : microOp m t = some i := (microOp_of_sameView hv hs).trans hi
  have hmap' : t.mapped = true := (mapped_of_sameView hv).trans hmap
  have hin := inputs_of_sameView hv
  obtain ⟨off, rfl⟩ | ⟨off, v, rfl⟩ | ⟨us, rfl⟩ := microOp_kind hi
  · simp only [exec, execRegrd, whenIssued_eq hm hi hmap, whenIssued_eq hm' hi' hmap', hin]
    split
    · exact afterRead_alike hv hs off _
    · exact waits_alike hv
  · simp only [exec, execRegwr, whenIssued_eq hm hi hmap, whenIssued_eq hm' hi' hmap', hin]
    split
    · exact afterWrite_alike hv hs off v
    · exact waits_alike hv
  · simp only [exec, execDelay, whenIssued_eq hm hi hmap, whenIssued_eq hm' hi' hmap', hin]
    split
    · exact afterDelay_alike hv hs us
    · exact waits_alike hv

/-! ## Delivery and accept -/

theorem deliver_alike (hs : s.seq = MicroState.sResult.code) : Alike s.trace t.trace (deliver s) (deliver t) := by
  have ht : t.seq = MicroState.sResult.code := (seq_of_sameView hv).trans hs
  have hres : resWord t = resWord s := by rw [← resWord_liveView ht, ← hv, resWord_liveView hs]
  unfold deliver
  rw [mapped_of_sameView hv, inputs_of_sameView hv, hres]
  split
  · split
    · refine .next [.deliver (resWord s)] ?_ rfl rfl
      rw [deliver_liveView hs, hv, ← deliver_liveView ht]
    · exact waits_alike hv
  · exact .fault _

theorem acceptWord_alike (w : BitVec 32) (hm : s.micro = some .sIdle) (hm' : t.micro = some .sIdle)
    (hmap : s.mapped = true) :
    Alike s.trace t.trace (acceptWord w (dispatchOf w) s.takeCommand) (acceptWord w (dispatchOf w) t.takeCommand) := by
  obtain ⟨ho, hs⟩ := micro_eq_some.mp hm
  obtain ⟨ho', ht⟩ := micro_eq_some.mp hm'
  have hmap' : t.mapped = true := (mapped_of_sameView hv).trans hmap
  have hv' : liveView s.takeCommand = liveView t.takeCommand :=
    sameView_outside hv (mapped_of_sameView hv) (congrArg List.tail (cmds_of_sameView hv)) (inputs_of_sameView hv) ..
  cases hcfg : configOk s.cfg with
  | true =>
    have hcfg' : configOk t.cfg = true := by rw [cfg_of_sameView hv, hcfg]
    rw [acceptWord_ready (s := s.takeCommand) hs hmap hcfg ho, acceptWord_ready (s := t.takeCommand) ht hmap' hcfg' ho']
    refine .next [.accept w] ?_ (dispatchOf_frame w).trace (dispatchOf_frame w).trace
    rw [dispatchOf_liveView (s := s.takeCommand) w hs, hv', ← dispatchOf_liveView (s := t.takeCommand) w ht]
  | false =>
    have hcfg' : configOk t.cfg = false := by rw [cfg_of_sameView hv, hcfg]
    rw [acceptWord_illFormed (s := s.takeCommand) hm hmap hcfg, acceptWord_illFormed (s := t.takeCommand) hm' hmap' hcfg']
    exact .refused _

/-! ## The step -/

theorem fetch_of_sameView (hm : s.micro = some m) (hm' : t.micro = some m) : fetch t = fetch s := by
  have hi := microOp_of_sameView hv (micro_eq_some.mp hm).2
  cases m <;> simp only [fetch, hm, hm', hi, cmds_of_sameView hv, mapped_of_sameView hv]

theorem blockStep_alike (h : Inv s m) (h' : Inv t m) : Alike s.trace t.trace (blockStep s) (blockStep t) := by
  have hft := fetch_of_sameView hv h.micro h'.micro
  obtain ⟨hm, -⟩ | ⟨hm, ⟨w, ws, -, hmap, hf⟩ | ⟨-, hf⟩⟩ | ⟨hm, hf⟩ | ⟨m', i, hm, hi, hf⟩ | ⟨m', hm, h1, h2, hi, hf⟩ :=
    fetch_cases s
  · rw [h.micro] at hm; cases hm
  · obtain rfl := h.micro_unique hm
    rw [blockStep_command hf, blockStep_command (hft.trans hf)]
    exact acceptWord_alike hv w hm h'.micro hmap
  · simp only [blockStep, hft, hf]
    exact waits_alike hv
  · simp only [blockStep, hft, hf]
    exact deliver_alike hv (micro_eq_some.mp hm).2
  · obtain rfl := h.micro_unique hm
    simp only [blockStep, hft, hf]
    exact exec_alike hv hm h'.micro hi (h.mapped (microOp_some hi).1)
  · simp only [blockStep, hft, hf]
    exact .refused _

theorem changeMapped_alike (b : Bool) :
    Alike s.trace t.trace (changeMapped b s.useInput) (changeMapped b t.useInput) := by
  have hseq : t.useInput.seq = s.useInput.seq := (seq_of_sameView hv :)
  unfold changeMapped
  by_cases hfall : (!b && s.useInput.seq != MicroState.sIdle.code) = true
  · rw [if_pos hfall, if_pos (hseq ▸ hfall)]
    exact .fault _
  · rw [if_neg hfall, if_neg (hseq ▸ hfall)]
    exact .next [] (sameView_outside hv rfl (cmds_of_sameView hv) (congrArg List.tail (inputs_of_sameView hv)) ..) rfl rfl

end SameView

/-- After a reset only what is not the block's own is left to see (R190, R193). -/
theorem liveView_applyReset (s : State) :
    liveView (applyReset s) = { State.reset with cfg := s.cfg, mapped := s.mapped, cmds := s.cmds, inputs := s.inputs } :=
  rfl

theorem applyReset_alike (hv : liveView s = liveView t) :
    Alike s.trace t.trace (.next (applyReset s.useInput)) (.next (applyReset t.useInput)) := by
  refine .next [] ?_ rfl rfl
  rw [liveView_applyReset, liveView_applyReset]
  simp only [State.useInput_cfg, State.useInput_mapped, State.useInput_cmds, State.useInput_inputs, cfg_of_sameView hv,
    mapped_of_sameView hv, cmds_of_sameView hv, inputs_of_sameView hv]

theorem step_alike (h : Inv s m) (h' : Inv t m) (hv : liveView s = liveView t) :
    Alike s.trace t.trace (step s) (step t) := by
  have hin := inputs_of_sameView hv
  unfold step
  rw [hin]
  split
  · exact applyReset_alike hv
  · exact changeMapped_alike hv _
  · rename_i w rest hp
    refine blockStep_alike ?_ (h.present w) (h'.present w)
    exact sameView_outside hv (mapped_of_sameView hv) (by rw [cmds_of_sameView hv]) (by rw [hin]) ..
  · exact blockStep_alike hv h h'

/-- Settles O53: every operation commutes with the view, so two states with the same view have alike outcomes. -/
theorem staleRegistersDoNotMatter : Obligations.StaleRegistersDoNotMatter := by
  rintro s t ⟨m, h⟩ ⟨m', h'⟩ hv
  have hseq : m'.code = m.code := by rw [← h'.seqListed, seq_of_sameView hv, h.seqListed]
  obtain rfl : m' = m := code_inj.mp hseq
  have ha := step_alike h h' hv
  cases hs : step s <;> cases ht : step t <;> rw [hs, ht] at ha <;> cases ha
  case next.next.next es htr htr' hv' => exact .inl ⟨_, _, es, rfl, rfl, hv', htr, htr'⟩
  case fault.fault.fault => exact .inr (.inl ⟨_, rfl, rfl⟩)
  case refused.refused.refused => exact .inr (.inr ⟨_, rfl, rfl⟩)

end Sys2Proof.Machine
end

section
/-! Frames: what a read, a step and a write leave alone (spec/10_state.md rules R11, R31, spec/40_register_access.md rule
R90). -/

namespace Sys2Proof.Machine

variable {s t : State} {m : MicroState}

/-! ## A read, register by register -/

/-- The registers of the working set and the result that a row of a read leaves alone, by the micro-state. -/
structure ReadKeeps (s t : State) (m : MicroState) : Prop where
  auxtmp : m ∉ auxReadRows.map Prod.fst → t.auxtmp = s.auxtmp
  status : m ∉ [MicroState.sGStsRd1, .sGStsRd2, .sPStsRd] → t.stsCap = s.stsCap ∧ t.outcome = s.outcome
  poll : m ≠ .sPStsRd → t.pollcnt = s.pollcnt ∧ t.timedout = s.timedout
  result : m ∈ auxReadRows.map Prod.fst ∨ t.seq ≠ MicroState.sResult.code → t.data = s.data ∧ t.resValid = s.resValid

theorem readRow_keeps {b : Byte} (hr : ReadRow b s m t) : ReadKeeps s t m := by
  cases hr with
  | aux h =>
    refine ⟨fun hm => absurd (List.mem_map_of_mem h) hm, fun _ => ⟨rfl, rfl⟩, fun _ => ⟨rfl, rfl⟩, fun _ => ⟨rfl, rfl⟩⟩
  | guardBusy | guardFails | guardEnds =>
    exact ⟨fun _ => rfl, fun hm => absurd (by decide) hm, fun _ => ⟨rfl, rfl⟩,
      fun h => h.elim (fun hm => absurd hm (by decide)) (absurd rfl)⟩
  | guardClears | guardGoesOn | guardStarts =>
    exact ⟨fun _ => rfl, fun hm => absurd (by decide) hm, fun _ => ⟨rfl, rfl⟩, fun _ => ⟨rfl, rfl⟩⟩
  | pollCompletes | pollGoesOn | timesOut | timesOutToData =>
    exact ⟨fun _ => by simp [polled], fun hm => absurd (by decide) hm, fun hne => absurd rfl hne, fun _ => by simp⟩
  | timesOutEnds =>
    exact ⟨fun _ => rfl, fun hm => absurd (by decide) hm, fun hne => absurd rfl hne,
      fun h => h.elim (fun hm => absurd hm (by decide)) (absurd rfl)⟩
  | data =>
    exact ⟨fun _ => rfl, fun _ => ⟨rfl, rfl⟩, fun _ => ⟨rfl, rfl⟩,
      fun h => h.elim (fun hm => absurd hm (by decide)) (absurd rfl)⟩

/-- The offset of a read and the micro-states that issue it (R69). -/
theorem microOp_regrd {off : Offset} (hi : microOp m s = some (.regrd off)) :
    (m ∈ auxReadRows.map Prod.fst → off = s.cfg.offAuxctl)
      ∧ (m ∈ [MicroState.sGStsRd1, .sGStsRd2, .sPStsRd] → off = s.cfg.offSts)
      ∧ (m ∉ auxReadRows.map Prod.fst → off = s.cfg.offSts ∨ off = s.cfg.offData0) := by
  cases m
  case sRAux1Rd | sRAux2Rd | sWAuxRd =>
    cases hi
    exact ⟨fun _ => rfl, fun hm => absurd hm (by decide), fun hm => absurd (by decide) hm⟩
  case sGStsRd1 | sGStsRd2 | sPStsRd =>
    cases hi
    exact ⟨fun hm => absurd hm (by decide), fun _ => rfl, fun _ => .inl rfl⟩
  case sDataRd =>
    cases hi
    exact ⟨fun hm => absurd hm (by decide), fun hm => absurd hm (by decide), fun _ => .inr rfl⟩
  all_goals simp [microOp, rmwClear, acknowledge] at hi

/-- Settles O25: an unanswered read uses up an input only; an answered one keeps the frame of its row, and its offset says
which rows those are. -/
theorem regrdFrame : Obligations.RegrdFrame := by
  intro off s t h
  obtain ⟨m, hm, hi, -, ⟨b, rest, -, ha⟩ | rfl⟩ := execRegrd_next h
  · have hf := afterRead_frame ha
    have hk := readRow_keeps (afterRead_row ha)
    have hseq := (micro_eq_some.mp hm).2
    obtain ⟨haux, hsts, hother⟩ := microOp_regrd hi
    exact ⟨hf.op, hf.tgt, hf.reg, hf.val, hf.cfg, hf.mapped, hf.cmds, hf.forgotten, fun a => by rw [hf.surface]; rfl,
      fun hne => hk.auxtmp (mt haux hne), fun hne => hk.status (mt hsts hne),
      fun hne => hk.poll fun hpoll => hne (hpoll ▸ hseq), fun hne => hk.result (.inr hne),
      fun _ hne hne' => hk.result (.inl (by_contra fun hm => (hother hm).elim hne hne'))⟩
  · exact ⟨rfl, rfl, rfl, rfl, rfl, rfl, rfl, rfl, fun _ => rfl, fun _ => rfl, fun _ => ⟨rfl, rfl⟩, fun _ => ⟨rfl, rfl⟩,
      fun _ => ⟨rfl, rfl⟩, fun _ _ _ => ⟨rfl, rfl⟩⟩

/-! ## The latches (R11, R18) -/

/-- Only an accept writes the request latches, and an accept is made in `S_IDLE`. -/
theorem blockMove_latches (h : BlockMove s t) :
    t.cfg = s.cfg ∧ (running s → t.op = s.op ∧ t.tgt = s.tgt ∧ t.reg = s.reg ∧ t.val = s.val) := by
  cases h with
  | waits => exact ⟨rfl, fun _ => ⟨rfl, rfl, rfl, rfl⟩⟩
  | accepts w ws hm hc hmap hcfg =>
    exact ⟨(dispatchOf_frame w).cfg, fun hrun => absurd (micro_eq_some.mp hm).2 hrun⟩
  | reads m off b rest t hm hi hmap hin ha =>
    have hf := afterRead_frame ha
    exact ⟨hf.cfg, fun _ => ⟨hf.op, hf.tgt, hf.reg, hf.val⟩⟩
  | writes m off v rest t hm hi hmap hin ha =>
    have hf := afterWrite_frame ha
    exact ⟨hf.cfg, fun _ => ⟨hf.op, hf.tgt, hf.reg, hf.val⟩⟩
  | delays m us rest t hm hi hmap hin ha =>
    obtain ⟨-, rfl⟩ := afterDelay_next ha
    exact ⟨rfl, fun _ => ⟨rfl, rfl, rfl, rfl⟩⟩
  | delivers => exact ⟨rfl, fun _ => ⟨rfl, rfl, rfl, rfl⟩⟩

/-- Settles O47: a reset keeps the parameters, a change of the pin and a presented word keep the latches too, and the
block's own step writes them at an accept only. -/
theorem latchesAreSteadyWhileACommandRuns : Obligations.LatchesAreSteadyWhileACommandRuns := by
  intro s t hstep
  obtain ⟨rest, hin, rfl⟩ | ⟨b, rest, -, -, rfl⟩ | ⟨w, rest, -, hmv⟩ | ⟨-, hmv⟩ := step_next hstep
  · exact ⟨rfl, fun _ hne => absurd (by rw [hin]; rfl) hne⟩
  · exact ⟨rfl, fun _ _ => ⟨rfl, rfl, rfl, rfl⟩⟩
  · obtain ⟨hcfg, hlatch⟩ := blockMove_latches hmv
    exact ⟨hcfg, fun hrun _ => hlatch hrun⟩
  · obtain ⟨hcfg, hlatch⟩ := blockMove_latches hmv
    exact ⟨hcfg, fun hrun _ => hlatch hrun⟩

/-! ## The record of writes (R31, R176) -/

/-- The record after one event reads as the newest write says. -/
theorem surfaceAfter_read {evs : List PortEvent} {mem : Memory} (h : ∀ off : Offset, mem.read off.toNat = lastWrite off evs)
    (e : PortEvent) (off : Offset) : (surfaceAfter [e] mem).read off.toNat = lastWrite off (e :: evs) := by
  cases e with
  | write o v =>
    simp only [surfaceAfter, lastWrite, Memory.read_write, BitVec.toNat_inj]
    rw [h off]
  | accept | read | delay | deliver => exact h off

theorem surfaceAgrees_blockMove (h : SurfaceAgrees s) (hmv : BlockMove s t) : SurfaceAgrees t := by
  obtain rfl | ⟨e, htr, hsf⟩ := blockMove_event hmv
  · exact h
  · intro off
    rw [surfaceAt, htr, hsf]
    exact surfaceAfter_read h e off

/-- Settles O39: the block's own step makes at most one event and the record follows it; nothing else touches either. -/
theorem stepKeepsSurfaceAgreement : Obligations.StepKeepsSurfaceAgreement := by
  intro s t h hstep
  obtain ⟨rest, -, rfl⟩ | ⟨b, rest, -, -, rfl⟩ | ⟨w, rest, -, hmv⟩ | ⟨-, hmv⟩ := step_next hstep
  · exact h
  · exact h
  · exact surfaceAgrees_blockMove (s := presentWord w s) h hmv
  · exact surfaceAgrees_blockMove h hmv

/-! ## Acknowledges and read-modify-writes (R23, R28) -/

/-- R7 (a), for the status register. -/
theorem offSts_distinct {c : Config} (h : configOk c = true) :
    c.offCnt ≠ c.offSts ∧ c.offCmd ≠ c.offSts ∧ c.offAddr ≠ c.offSts ∧ c.offData0 ≠ c.offSts ∧ c.offAuxctl ≠ c.offSts := by
  have hd := (List.nodup_cons.mp (configOk_offsets h)).1
  simpa [eq_comm] using hd

/-- R7 (a), for the auxiliary-control register. -/
theorem offAuxctl_distinct {c : Config} (h : configOk c = true) :
    c.offSts ≠ c.offAuxctl ∧ c.offCnt ≠ c.offAuxctl ∧ c.offCmd ≠ c.offAuxctl ∧ c.offAddr ≠ c.offAuxctl
      ∧ c.offData0 ≠ c.offAuxctl := by
  have hd : ([c.offSts, c.offCnt, c.offCmd, c.offAddr, c.offData0] ++ [c.offAuxctl]).Nodup := configOk_offsets h
  have hne := List.disjoint_of_nodup_append hd
  simpa [eq_comm] using hne

/-- Only the two acknowledges write the status register, each the captured status under its mask (R73, R94). -/
theorem microOp_write_offSts {v : Byte} (hc : configOk s.cfg = true) (hi : microOp m s = some (.regwr s.cfg.offSts v)) :
    v = ackByte s.stsCap (stsStickyMask s.cfg) ∨ v = ackByte s.stsCap (stsAckMask s.cfg) := by
  obtain ⟨hcnt, hcmd, haddr, hdat, haux⟩ := offSts_distinct hc
  cases m
  case sGStsClr => cases hi; exact .inl rfl
  case sAckWr => cases hi; exact .inr rfl
  all_goals simp [microOp, rmwClear, hcnt, hcmd, haddr, hdat, haux] at hi

/-- Only the read-modify-writes write auxiliary-control, each the byte read without the bits of its mask (R72, R93). -/
theorem microOp_write_offAuxctl {v : Byte} (hc : configOk s.cfg = true)
    (hi : microOp m s = some (.regwr s.cfg.offAuxctl v)) : ∃ mask, v = rmwByte s.auxtmp mask := by
  obtain ⟨hsts, hcnt, hcmd, haddr, hdat⟩ := offAuxctl_distinct hc
  cases m
  case sRAux1Wr | sRAux2Wr | sWAuxWr => cases hi; exact ⟨_, rfl⟩
  all_goals simp [microOp, acknowledge, hsts, hcnt, hcmd, haddr, hdat] at hi

/-- A byte under a mask has no bit that the byte has not. -/
theorem and_mask_clears (b mask : Byte) : b &&& mask &&& ~~~b = 0#8 := by
  rw [BitVec.and_comm b mask, BitVec.and_assoc, BitVec.and_not_self]
  exact BitVec.and_zero

theorem or_and_eq_zero {a b c : Byte} (ha : a &&& c = 0#8) (hb : b &&& c = 0#8) : (a ||| b) &&& c = 0#8 := by
  ext i hi
  have hai := congrArg (·[i]) ha
  have hbi := congrArg (·[i]) hb
  simp only [BitVec.getElem_and, BitVec.getElem_or, BitVec.getElem_zero] at hai hbi ⊢
  rw [Bool.and_or_distrib_right, hai, hbi, Bool.or_self]

/-- R7 (b): no other status mask overlaps the busy bit. -/
theorem statusMask_and_busy {c : Config} (h : configOk c = true) {x : Byte}
    (hx : x ∈ [c.stsIntr, c.stsDevErr, c.stsBusErr, c.stsFailed, c.stsByteDone]) : x &&& c.stsBusy = 0#8 := by
  obtain ⟨hone, hd⟩ := configOk_masks h
  have hne : x ≠ c.stsBusy := fun he => (List.nodup_cons.mp hd).1 (he ▸ hx)
  exact singleBits_disjoint (hone x (List.mem_cons_of_mem _ hx)) (hone _ List.mem_cons_self) hne

/-- The busy bit is in neither of the masks an acknowledge may have (R23). -/
theorem ackMasks_leave_busy {c : Config} (h : configOk c = true) :
    stsStickyMask c &&& c.stsBusy = 0#8 ∧ stsAckMask c &&& c.stsBusy = 0#8 := by
  have hintr : c.stsIntr &&& c.stsBusy = 0#8 := statusMask_and_busy h (by simp)
  have hdev : c.stsDevErr &&& c.stsBusy = 0#8 := statusMask_and_busy h (by simp)
  have hbus : c.stsBusErr &&& c.stsBusy = 0#8 := statusMask_and_busy h (by simp)
  have hfail : c.stsFailed &&& c.stsBusy = 0#8 := statusMask_and_busy h (by simp)
  have hbyte : c.stsByteDone &&& c.stsBusy = 0#8 := statusMask_and_busy h (by simp)
  exact ⟨or_and_eq_zero (or_and_eq_zero (or_and_eq_zero (or_and_eq_zero hbyte hintr) hbus) hdev) hfail,
    or_and_eq_zero hintr (or_and_eq_zero (or_and_eq_zero hdev hbus) hfail)⟩

/-- Settles O52: what is written is a captured byte under a mask, and the busy bit is in neither of the two masks. -/
theorem writesClearAndNeverSet : Obligations.WritesClearAndNeverSet := by
  intro s m v hc
  obtain ⟨hsticky, hack⟩ := ackMasks_leave_busy hc
  constructor
  · intro hi
    obtain rfl | rfl := microOp_write_offSts hc hi
    · exact ⟨and_mask_clears _ _, by rw [ackByte, BitVec.and_assoc, hsticky, BitVec.and_zero]⟩
    · exact ⟨and_mask_clears _ _, by rw [ackByte, BitVec.and_assoc, hack, BitVec.and_zero]⟩
  · intro hi
    obtain ⟨mask, rfl⟩ := microOp_write_offAuxctl hc hi
    exact and_mask_clears _ _

end Sys2Proof.Machine
end

section
/-! What a step does by what comes in from outside (spec/40_register_access.md rule R41, spec/45_sequencer_fsm.md rules
R145, R146, spec/60_exceptions.md rule R187): it runs the issued micro-operation, which waits for its answer, and the pin
gates the block. -/

namespace Sys2Proof.Machine

variable {s : State} {m : MicroState} {i : Instr}

/-! ## An issued micro-operation without its answer (R41, R160) -/

theorem execRegrd_waits {off : Offset} (hm : s.micro = some m) (hi : microOp m s = some (.regrd off))
    (hmap : s.mapped = true) (hin : ∀ b rest, s.inputs ≠ .answer b :: rest) : execRegrd off s = .next s.useInput := by
  unfold execRegrd
  rw [whenIssued_eq hm hi hmap]
  split
  · exact absurd ‹_› (hin _ _)
  · rfl

theorem execRegwr_waits {off : Offset} {v : Byte} (hm : s.micro = some m) (hi : microOp m s = some (.regwr off v))
    (hmap : s.mapped = true) (hin : ∀ rest, s.inputs ≠ .written :: rest) : execRegwr off v s = .next s.useInput := by
  unfold execRegwr
  rw [whenIssued_eq hm hi hmap]
  split
  · exact absurd ‹_› (hin _)
  · rfl

theorem execDelay_waits {us : BitVec 16} (hm : s.micro = some m) (hi : microOp m s = some (.delay us))
    (hmap : s.mapped = true) (hin : ∀ rest, s.inputs ≠ .delayDone :: rest) : execDelay us s = .next s.useInput := by
  unfold execDelay
  rw [whenIssued_eq hm hi hmap]
  split
  · exact absurd ‹_› (hin _)
  · rfl

/-- Settles O22: each micro-operation looks at the next input for its own answer only. -/
theorem unansweredMicroOpsWait : Obligations.UnansweredMicroOpsWait := by
  intro s m i hseq ho hmap hi
  have hm : s.micro = some m := micro_of_seq ho hseq
  refine ⟨?_, ?_, ?_⟩
  · rintro ⟨off, rfl⟩ hin
    exact execRegrd_waits hm hi hmap hin
  · rintro ⟨off, v, rfl⟩ hin
    exact execRegwr_waits hm hi hmap hin
  · rintro ⟨us, rfl⟩ hin
    exact execDelay_waits hm hi hmap hin

/-! ## The step of a running block (R69, R146) -/

theorem blockStep_microOp (hm : s.micro = some m) (hi : microOp m s = some i) : blockStep s = exec i s := by
  simp only [blockStep, fetch_microOp hm hi]

theorem step_present {w : BitVec 32} {rest : List EnvEvent} (hin : s.inputs = .present w :: rest) :
    step s = blockStep (presentWord w s) := by
  simp only [step, hin]

theorem microOp_presentWord (m : MicroState) (w : BitVec 32) : microOp m (presentWord w s) = microOp m s := by
  cases m <;> rfl

/-- Settles O29: a running block fetches the micro-operation its micro-state issues, and neither depends on the words at
the command port. -/
theorem stepRunsTheIssuedMicroOp : Obligations.StepRunsTheIssuedMicroOp := by
  intro s m i hseq ho hi
  have hm : s.micro = some m := micro_of_seq ho hseq
  constructor
  · intro hcalm hp
    rw [step_calm hcalm hp, blockStep_microOp hm hi]
  · intro w rest hin
    have hm' : (presentWord w s).micro = some m := hm
    rw [step_present hin, blockStep_microOp hm' (by rw [microOp_presentWord, hi])]
    simp only [presentWord, hin, List.tail_cons]

/-! ## The pin (R187, U1) -/

theorem step_mapPin {b : Bool} {rest : List EnvEvent} (hin : s.inputs = .mapPin b :: rest) :
    step s = changeMapped b s.useInput := by
  simp only [step, hin]

theorem changeMapped_allowed {b : Bool} (h : b = true ∨ s.seq = MicroState.sIdle.code) :
    changeMapped b s = .next { s with mapped := b } := by
  obtain rfl | hidle := h
  · simp [changeMapped]
  · simp [changeMapped, hidle]

theorem changeMapped_falls (h : s.seq ≠ MicroState.sIdle.code) : changeMapped false s = .fault .unmappedDuringCommand := by
  simp [changeMapped, h]

/-- An idle block that is not mapped leaves the words at its port alone. -/
theorem blockStep_unmapped (hm : s.micro = some .sIdle) (hmap : s.mapped = false) : blockStep s = .next s.useInput := by
  have hf : fetch s = .waiting := by
    cases hc : s.cmds <;> simp [fetch, hm, hc, hmap]
  simp only [blockStep, hf]

/-- A silent outside neither resets the block nor changes the pin. -/
theorem undisturbed_of_silent (h : outsideSilent s) : undisturbed s := by
  intro e he
  obtain rfl | ⟨w, rfl⟩ := h e he <;> simp

/-- Settles O34: a change of the pin is a step of its own; an idle block with the pin at 0 only waits, and a word that the
host presents meanwhile goes behind those at the port. -/
theorem mappedGatesTheBlock : Obligations.MappedGatesTheBlock := by
  intro s
  refine ⟨?_, ?_, ?_⟩
  · intro b rest hin hb
    rw [step_mapPin hin, changeMapped_allowed (s := s.useInput) hb]
    simp only [State.useInput, hin, List.tail_cons]
  · intro rest hin hrun
    rw [step_mapPin hin]
    exact changeMapped_falls hrun
  · intro hseq ho hmap hsilent
    have hm : s.micro = some .sIdle := micro_of_seq ho hseq
    refine ⟨by simp [cmdReady, hmap], ?_⟩
    by_cases hp : ∃ w rest, s.inputs = .present w :: rest
    · obtain ⟨w, rest, hin⟩ := hp
      have hstep : step s = .next (presentWord w s).useInput := by
        rw [step_present hin, blockStep_unmapped (s := presentWord w s) hm hmap]
      exact ⟨_, hstep, rfl, rfl, rfl, List.prefix_append _ _⟩
    · have hstep : step s = .next s.useInput := by
        rw [step_calm (undisturbed_of_silent hsilent) fun w rest hin => hp ⟨w, rest, hin⟩, blockStep_unmapped hm hmap]
      exact ⟨_, hstep, rfl, rfl, rfl, List.prefix_refl _⟩

/-! ## The event of a step (R41, R42) -/

theorem blockMove_trace {t : State} (h : BlockMove s t) : t.trace = s.trace ∨ ∃ e, t.trace = e :: s.trace := by
  obtain rfl | ⟨e, htr, -⟩ := blockMove_event h
  · exact .inl rfl
  · exact .inr ⟨e, htr⟩

/-- Settles O45: only the block's own step makes an event, and it waits or makes one. -/
theorem oneEventAStep : Obligations.OneEventAStep := by
  intro s t hstep
  obtain ⟨rest, -, rfl⟩ | ⟨b, rest, -, -, rfl⟩ | ⟨w, rest, -, hmv⟩ | ⟨-, hmv⟩ := step_next hstep
  · exact .inl rfl
  · exact .inl rfl
  · exact blockMove_trace (s := presentWord w s) hmv
  · exact blockMove_trace hmv

end Sys2Proof.Machine
end

section
/-! A late answer is an input that answers nothing, and the block cannot tell one such input from another
(spec/70_reset_and_hazards.md rule R193). -/

namespace Sys2Proof.Machine

variable {s t : State} {m : MicroState} {i : Instr}

/-! ## An input that answers nothing -/

/-- The next input is not what an access, a delay or the result port waits for. -/
structure NoAnswerNext (l : List EnvEvent) : Prop where
  answer : ∀ b rest, l ≠ .answer b :: rest
  written : ∀ rest, l ≠ .written :: rest
  delayDone : ∀ rest, l ≠ .delayDone :: rest
  take : ∀ rest, l ≠ .take :: rest

theorem noAnswerNext_quiet (rest : List EnvEvent) : NoAnswerNext (.quiet :: rest) := by constructor <;> simp

theorem noAnswerNext_late (i : Instr) (b : Byte) (rest : List EnvEvent) : NoAnswerNext (.late i b :: rest) := by
  constructor <;> simp

/-! ## What the block does on it -/

theorem exec_microOp_unmapped (hm : s.micro = some m) (hi : microOp m s = some i) (hmap : s.mapped = false) :
    exec i s = .fault .unmappedDuringCommand := by
  obtain ⟨off, rfl⟩ | ⟨off, v, rfl⟩ | ⟨us, rfl⟩ := microOp_kind hi
  · simp [exec, execRegrd, whenIssued, hm, hi, hmap]
  · simp [exec, execRegwr, whenIssued, hm, hi, hmap]
  · simp [exec, execDelay, whenIssued, hm, hi, hmap]

theorem exec_noAnswer (hm : s.micro = some m) (hi : microOp m s = some i) (hin : NoAnswerNext s.inputs) :
    exec i s = if s.mapped then .next s.useInput else .fault .unmappedDuringCommand := by
  cases hmap : s.mapped with
  | false => exact exec_microOp_unmapped hm hi hmap
  | true =>
    obtain ⟨off, rfl⟩ | ⟨off, v, rfl⟩ | ⟨us, rfl⟩ := microOp_kind hi
    · exact execRegrd_waits hm hi hmap hin.answer
    · exact execRegwr_waits hm hi hmap hin.written
    · exact execDelay_waits hm hi hmap hin.delayDone

theorem deliver_noAnswer (hin : NoAnswerNext s.inputs) :
    deliver s = if s.mapped then .next s.useInput else .fault .unmappedDuringCommand := by
  unfold deliver
  split
  · split
    · exact absurd ‹_› (hin.take _)
    · rfl
  · rfl

/-- The accept step of the word at the port of a mapped block, by R7. -/
theorem blockStep_accepts {w : BitVec 32} (hm : s.micro = some .sIdle) (hmap : s.mapped = true)
    (hf : fetch s = .command w) :
    blockStep s
      = if configOk s.cfg then .next (dispatchOf w (latch w s.takeCommand)) else .refused .illFormedConfig := by
  obtain ⟨ho, hs⟩ := micro_eq_some.mp hm
  rw [blockStep_command hf]
  cases hcfg : configOk s.cfg with
  | true => exact acceptWord_ready (s := s.takeCommand) hs hmap hcfg ho
  | false => exact acceptWord_illFormed (s := s.takeCommand) hm hmap hcfg

/-- Two inputs that answer nothing are as one to the block: it uses either up and does what it does by itself. -/
theorem blockStep_noAnswer {l l' : List EnvEvent} (hl : NoAnswerNext l) (hl' : NoAnswerNext l') (htail : l.tail = l'.tail) :
    blockStep (s.withInputs l) = blockStep (s.withInputs l') := by
  have huse : (s.withInputs l).useInput = (s.withInputs l').useInput := congrArg (State.withInputs · s) htail
  have hfl := fetch_withInputs (s := s) l
  have hfl' := fetch_withInputs (s := s) l'
  obtain ⟨-, hf⟩ | ⟨hm, ⟨w, ws, -, hmap, hf⟩ | ⟨-, hf⟩⟩ | ⟨-, hf⟩ | ⟨m, i, hm, hi, hf⟩ | ⟨-, -, -, -, -, hf⟩ :=
    fetch_cases s
  · simp only [blockStep, hfl, hfl', hf]
  · have hlatch : latch w (s.withInputs l).takeCommand = latch w (s.withInputs l').takeCommand :=
      congrArg (State.withInputs · (latch w s.takeCommand)) htail
    rw [blockStep_accepts (s := s.withInputs l) hm hmap (hfl.trans hf),
      blockStep_accepts (s := s.withInputs l') hm hmap (hfl'.trans hf), hlatch]
  · simp only [blockStep, hfl, hfl', hf, huse]
  · simp only [blockStep, hfl, hfl', hf]
    rw [deliver_noAnswer hl, deliver_noAnswer hl', huse]
  · have hil : microOp m (s.withInputs l) = some i := (microOp_withInputs m l).trans hi
    have hil' : microOp m (s.withInputs l') = some i := (microOp_withInputs m l').trans hi
    simp only [blockStep, hfl, hfl', hf]
    rw [exec_noAnswer (s := s.withInputs l) hm hil hl, exec_noAnswer (s := s.withInputs l') hm hil' hl', huse]
  · simp only [blockStep, hfl, hfl', hf]

/-! ## A late answer, and the reset before it -/

theorem step_late {b : Byte} {rest : List EnvEvent} (hin : s.inputs = .late i b :: rest) : step s = blockStep s := by
  simp only [step, hin]

theorem step_late_eq_quiet {b : Byte} {rest : List EnvEvent} (hin : s.inputs = .late i b :: rest) :
    step s = step { s with inputs := .quiet :: rest } := by
  have hs : s = s.withInputs (.late i b :: rest) := by rw [State.withInputs, ← hin]
  calc step s = blockStep (s.withInputs (.late i b :: rest)) := by rw [step_late hin, ← hs]
    _ = blockStep (s.withInputs (.quiet :: rest)) :=
      blockStep_noAnswer (noAnswerNext_late i b rest) (noAnswerNext_quiet rest) rfl
    _ = step { s with inputs := .quiet :: rest } := rfl

theorem step_late_waits {j : Instr} {b : Byte} {rest : List EnvEvent} (hin : s.inputs = .late i b :: rest)
    (hm : s.micro = some m) (hj : microOp m s = some j) (hmap : s.mapped = true) :
    step s = .next { s with inputs := rest } := by
  rw [step_late hin, blockStep_microOp hm hj, exec_noAnswer hm hj (hin ▸ noAnswerNext_late i b rest), if_pos hmap]
  simp only [State.useInput, hin, List.tail_cons]

theorem step_reset {rest : List EnvEvent} (hin : s.inputs = .reset :: rest) : step s = .next (applyReset s.useInput) := by
  simp only [step, hin]

/-- A reset puts the request that was outstanding first among the forgotten ones. -/
theorem reset_forgotten (s : State) : (applyReset s.useInput).forgotten = (outstanding s).toList ++ s.forgotten := by
  have hout : outstanding s.useInput = outstanding s := outstanding_withInputs _
  rw [applyReset_forgotten, hout, State.useInput_forgotten]

/-- Only a reset makes the block forget a request. -/
theorem step_forgotten (h : step s = .next t) (hr : s.inputs.head? ≠ some .reset) : t.forgotten = s.forgotten := by
  obtain ⟨rest, hin, rfl⟩ | ⟨b, rest, -, -, rfl⟩ | ⟨w, rest, -, hmv⟩ | ⟨-, hmv⟩ := step_next h
  · exact absurd (by rw [hin]; rfl) hr
  · rfl
  · exact blockMove_forgotten (s := presentWord w s) hmv
  · exact blockMove_forgotten hmv

/-- Settles O32: a reset forgets the outstanding request, no other step touches the forgotten ones, and a late answer is an
input that answers nothing. -/
theorem lateAnswersAreIgnored : Obligations.LateAnswersAreIgnored := by
  refine ⟨?_, fun s t => step_forgotten, ?_⟩
  · intro s rest hin
    refine ⟨_, step_reset hin, rfl, rfl, rfl, ?_, ?_⟩
    · intro m j hseq ho hmap hj
      rw [reset_forgotten, outstanding_of_microOp (micro_of_seq ho hseq) hj hmap]
      rfl
    · intro hseq
      rw [reset_forgotten, outstanding_none hseq]
      rfl
  · intro s i b rest hin
    refine ⟨step_late_eq_quiet hin, ?_⟩
    intro m j hseq ho hmap hj
    exact step_late_waits hin (micro_of_seq ho hseq) hj hmap

end Sys2Proof.Machine
end

section
/-! The words on the ports (spec/30_encoding.md rules R60 to R68): how the decoder reads a command word, by its opcode and
its reserved bit and by the match and mask of R62, and that it inverts the encoder. -/

namespace Sys2Proof

variable {w : BitVec 32} {i : Instr}

/-! ## A command word by its opcode and its reserved bit (R62, R64) -/

theorem decodeCmd32_rdreg (hz : cmdZ w = 0#1) (ho : cmdOpcode w = 0x01#8) :
    decodeCmd32 w = .ok (.rdreg (cmdTarget w) (cmdRegaddr w) (cmdValue w)) := by
  simp [decodeCmd32, hz, ho]

theorem decodeCmd32_wrreg (hz : cmdZ w = 0#1) (ho : cmdOpcode w = 0x02#8) :
    decodeCmd32 w = .ok (.wrreg (cmdTarget w) (cmdRegaddr w) (cmdValue w)) := by
  simp [decodeCmd32, hz, ho]

theorem decodeCmd32_chkidle (hz : cmdZ w = 0#1) (ho : cmdOpcode w = 0x03#8) :
    decodeCmd32 w = .ok (.chkidle (cmdTarget w) (cmdRegaddr w) (cmdValue w)) := by
  simp [decodeCmd32, hz, ho]

/-! ## The decoder after the encoder, command by command -/

theorem decodeCmd32_rdregWord (t : Target) (r v : Byte) : decodeCmd32 (rdregWord t r v) = .ok (.rdreg t r v) := by
  obtain ⟨-, ht, hr, hv⟩ := rdregWord_fields t r v
  rw [decodeCmd32_rdreg (w := rdregWord t r v) (cmdZ_cmdWord _ _ _ _) (cmdOpcode_cmdWord _ _ _ _), ht, hr, hv]

theorem decodeCmd32_wrregWord (t : Target) (r v : Byte) : decodeCmd32 (wrregWord t r v) = .ok (.wrreg t r v) := by
  obtain ⟨-, ht, hr, hv⟩ := wrregWord_fields t r v
  rw [decodeCmd32_wrreg (w := wrregWord t r v) (cmdZ_cmdWord _ _ _ _) (cmdOpcode_cmdWord _ _ _ _), ht, hr, hv]

theorem decodeCmd32_chkidleWord (t : Target) (r v : Byte) :
    decodeCmd32 (chkidleWord t r v) = .ok (.chkidle t r v) := by
  obtain ⟨-, ht, hr, hv⟩ := chkidleWord_fields t r v
  rw [decodeCmd32_chkidle (w := chkidleWord t r v) (cmdZ_cmdWord _ _ _ _) (cmdOpcode_cmdWord _ _ _ _), ht, hr, hv]

theorem decodeRa17_read (off : Offset) : decodeRa17 (raWord 0#1 off 0x00#8) = .ok (.regrd off) := by
  simp [decodeRa17, raWe_raWord, raWdata_raWord, raOffset_raWord]

theorem decodeRa17_write (off : Offset) (v : Byte) : decodeRa17 (raWord 1#1 off v) = .ok (.regwr off v) := by
  simp [decodeRa17, raWe_raWord, raWdata_raWord, raOffset_raWord]

/-- Settles O1: row by row of the opcode table; the decoder finds the opcode, the reserved bit and the fields that the
encoder put into the word. -/
theorem decodeOfEncodeIsTheInstruction : Obligations.DecodeOfEncodeIsTheInstruction := by
  intro i
  cases i with
  | rdreg t r v => exact decodeCmd32_rdregWord t r v
  | wrreg t r v => exact decodeCmd32_wrregWord t r v
  | chkidle t r v => exact decodeCmd32_chkidleWord t r v
  | regrd off => exact decodeRa17_read off
  | regwr off v => exact decodeRa17_write off v
  | delay us => rfl

/-! ## The encoder after the decoder, port by port -/

theorem encode_of_decodeCmd32 (h : decodeCmd32 w = .ok i) : encode i = .cmd32 w := by
  obtain ⟨e, he⟩ | ⟨t, r, v, he, rfl⟩ | ⟨t, r, v, he, rfl⟩ | ⟨t, r, v, he, rfl⟩ := Machine.decodeCmd32_cases w
  all_goals
    rw [he] at h
    cases h
  all_goals rfl

/-- The decoder leaves no bit of a word of the register-access port out: `we` selects the row, and a read is refused
unless its `wdata` is 0x00 (R67). -/
theorem encode_of_decodeRa17 {w : BitVec 17} (h : decodeRa17 w = .ok i) : encode i = .ra17 w := by
  have hw := raWord_fields w
  unfold decodeRa17 at h
  split at h
  · rename_i hwe
    cases h
    rw [hwe] at hw
    exact congrArg PortWord.ra17 hw
  · rename_i hwe
    have hwe : raWe w = 0#1 := (BitVec.eq_zero_or_eq_one (raWe w)).resolve_right hwe
    split at h
    · rename_i hdata
      cases h
      rw [hwe, hdata] at hw
      exact congrArg PortWord.ra17 hw
    · cases h

/-- Settles O2: port by port; an accepted word is the word of its own fields, and the decoder keeps every field that the
row does not fix. -/
theorem encodeOfDecodeIsTheWord : Obligations.EncodeOfDecodeIsTheWord := by
  intro p i h
  cases p with
  | cmd32 w => exact encode_of_decodeCmd32 h
  | ra17 w => exact encode_of_decodeRa17 h
  | dly16 w => cases h; rfl

/-! ## The match and mask of R62 -/

/-- The mask of R62 keeps the opcode and the reserved bit: a word matches the word of an opcode with every other field 0
when it has that opcode and bit 23 clear. -/
theorem masked_eq_iff (w : BitVec 32) (o : Byte) :
    w &&& 0xFF800000#32 = cmdWord o 0#7 0#8 0#8 ↔ cmdZ w = 0#1 ∧ cmdOpcode w = o := by
  have hmask : (w &&& 0xFF800000#32).toNat = w.toNat / 2 ^ 23 * 2 ^ 23 := Laws.TableRow.and_top9 _ w.isLt
  have hlt := w.isLt
  have ho := o.isLt
  simp only [← BitVec.toNat_inj, hmask, cmdWord_toNat, cmdZ, cmdOpcode, BitVec.extractLsb'_toNat,
    Nat.shiftRight_eq_div_pow, BitVec.toNat_ofNat]
  omega

theorem rdregWord_masked (t : Target) (r v : Byte) : rdregWord t r v &&& 0xFF800000#32 = 0x01000000#32 :=
  (masked_eq_iff _ 0x01#8).mpr ⟨cmdZ_cmdWord _ _ _ _, cmdOpcode_cmdWord _ _ _ _⟩

theorem wrregWord_masked (t : Target) (r v : Byte) : wrregWord t r v &&& 0xFF800000#32 = 0x02000000#32 :=
  (masked_eq_iff _ 0x02#8).mpr ⟨cmdZ_cmdWord _ _ _ _, cmdOpcode_cmdWord _ _ _ _⟩

theorem chkidleWord_masked (t : Target) (r v : Byte) : chkidleWord t r v &&& 0xFF800000#32 = 0x03000000#32 :=
  (masked_eq_iff _ 0x03#8).mpr ⟨cmdZ_cmdWord _ _ _ _, cmdOpcode_cmdWord _ _ _ _⟩

/-- Settles O3: a match gives the opcode and the clear reserved bit the decoder asks for, and a word that decodes is the
word of a command, which matches. -/
theorem commandWordsByMatchAndMask : Obligations.CommandWordsByMatchAndMask := by
  intro w
  refine ⟨fun h => ?_, fun h => ?_, fun h => ?_, fun hread hwrite hcheck => ?_⟩
  · obtain ⟨hz, ho⟩ := (masked_eq_iff w 0x01#8).mp h
    exact decodeCmd32_rdreg hz ho
  · obtain ⟨hz, ho⟩ := (masked_eq_iff w 0x02#8).mp h
    exact decodeCmd32_wrreg hz ho
  · obtain ⟨hz, ho⟩ := (masked_eq_iff w 0x03#8).mp h
    exact decodeCmd32_chkidle hz ho
  · obtain herr | ⟨t, r, v, -, rfl⟩ | ⟨t, r, v, -, rfl⟩ | ⟨t, r, v, -, rfl⟩ := Machine.decodeCmd32_cases w
    · exact herr
    · exact absurd (rdregWord_masked t r v) hread
    · exact absurd (wrregWord_masked t r v) hwrite
    · exact absurd (chkidleWord_masked t r v) hcheck

/-- Settles O4: the decoder runs on each of the nine words. -/
theorem sampleWordsDecode : Obligations.SampleWordsDecode := by
  unfold Obligations.SampleWordsDecode
  decide

end Sys2Proof
end

section
/-! The bytes the sequencer assembles (spec/30_encoding.md rule R70) and the writes that carry them to the controller
(spec/45_sequencer_fsm.md rule R149). -/

namespace Sys2Proof.Machine

variable {s : State} {m m' : MicroState} {rest : List EnvEvent}

/-! ## The address byte (R70) -/

theorem addrByte_toNat (t : Target) {dir : Byte} (hd : dir.toNat < 2) :
    (addrByte t dir).toNat = 2 * t.toNat + dir.toNat := by
  have ht := t.isLt
  have hshift : (t.setWidth 8 <<< 1).toNat = t.toNat <<< 1 := by
    simp only [BitVec.toNat_shiftLeft, BitVec.toNat_setWidth, Nat.shiftLeft_eq]
    omega
  rw [addrByte, BitVec.toNat_or, hshift, ← Nat.shiftLeft_add_eq_or_of_lt hd, Nat.shiftLeft_eq]
  omega

theorem addrByte_target (t : Target) {dir : Byte} (hd : dir.toNat < 2) : (addrByte t dir).extractLsb' 1 7 = t := by
  have ht := t.isLt
  apply BitVec.eq_of_toNat_eq
  rw [BitVec.extractLsb'_toNat, addrByte_toNat t hd, Nat.shiftRight_eq_div_pow]
  omega

theorem addrByte_direction (t : Target) {dir : Byte} (hd : dir.toNat < 2) :
    (addrByte t dir).extractLsb' 0 1 = dir.setWidth 1 := by
  apply BitVec.eq_of_toNat_eq
  rw [BitVec.extractLsb'_toNat, addrByte_toNat t hd, Nat.shiftRight_eq_div_pow, BitVec.toNat_setWidth]
  omega

theorem readAddrByte_eq (t : Target) : readAddrByte t = (t.setWidth 8 <<< 1) ||| 1#8 := rfl

theorem writeAddrByte_eq (t : Target) : writeAddrByte t = t.setWidth 8 <<< 1 := BitVec.or_zero

theorem microOp_sWAddrWr (s : State) : microOp .sWAddrWr s = some (.regwr s.cfg.offAddr (s.tgt.setWidth 8 <<< 1)) := by
  rw [← writeAddrByte_eq]
  rfl

/-- Settles O5: the direction is below 2, so it fills the bit that the shift frees. -/
theorem addressByteIsTargetAndDirection : Obligations.AddressByteIsTargetAndDirection := by
  have hread : (1#8).toNat < 2 := by decide
  have hwrite : (0#8).toNat < 2 := by decide
  refine ⟨fun s => ⟨rfl, microOp_sWAddrWr s⟩, fun t => ⟨readAddrByte_eq t, writeAddrByte_eq t, ?_⟩⟩
  exact ⟨addrByte_toNat t hread, addrByte_toNat t hwrite, addrByte_target t hread, addrByte_target t hwrite,
    addrByte_direction t hread, addrByte_direction t hwrite⟩

/-! ## A completed write that goes on to another micro-state (R91, R149) -/

theorem writeDone_goto {off : Offset} {v : Byte} (hin : s.inputs = .written :: rest) (m' : MicroState) :
    (s.writeDone off v).goto m' =
      { s with
        seq := m'.code, inputs := rest, trace := .write off v :: s.trace, surface := s.surface.write off.toNat v } := by
  simp only [State.goto, State.writeDone, State.useInput, State.record, hin, List.tail_cons]

/-- A completed write whose row of R149 names the next micro-state leads there, with the event and the byte recorded. -/
theorem exec_regwr_goes {off : Offset} {v : Byte} (hm : s.micro = some m) (hmap : s.mapped = true)
    (hin : s.inputs = .written :: rest) (hi : microOp m s = some (.regwr off v))
    (hrow : ∀ u, afterWrite m u = .next (u.goto m')) :
    exec (.regwr off v) s = .next
      { s with
        seq := m'.code, inputs := rest, trace := .write off v :: s.trace, surface := s.surface.write off.toNat v } := by
  rw [← writeDone_goto hin m', ← hrow]
  exact execRegwr_written hm hi hmap hin

/-- Settles O18: each of the eight micro-states issues the write of its byte, and its row names one next micro-state. -/
theorem regwrProgramsTheController : Obligations.RegwrProgramsTheController := by
  intro s rest hmap ho hin after does
  have goes {m m' : MicroState} {off : Offset} {v : Byte} (hi : microOp m s = some (.regwr off v))
      (hrow : ∀ u, afterWrite m u = .next (u.goto m')) : does m off v m' :=
    fun hseq => exec_regwr_goes (micro_of_seq ho hseq) hmap hin hi hrow
  exact ⟨goes rfl fun _ => rfl, goes rfl fun _ => rfl, goes rfl fun _ => rfl, goes rfl fun _ => rfl,
    goes (microOp_sWAddrWr s) fun _ => rfl, goes rfl fun _ => rfl, goes rfl fun _ => rfl, goes rfl fun _ => rfl⟩

/-! ## The start trigger (R71, R131, R141) -/

theorem microOp_sStartWr_read (hop : s.op = 1#2) :
    microOp .sStartWr s = some (.regwr s.cfg.offCnt (s.cfg.cntByteData ||| s.cfg.cntStart ||| s.cfg.cntLastByte)) := by
  simp [microOp, controlGo, cntReadGo, hop]

theorem microOp_sStartWr_write (hop : s.op = 2#2) :
    microOp .sStartWr s = some (.regwr s.cfg.offCnt (s.cfg.cntByteData ||| s.cfg.cntStart)) := by
  simp [microOp, controlGo, cntWriteGo, hop]

theorem microOp_sStartWr_none (h1 : s.op ≠ 1#2) (h2 : s.op ≠ 2#2) : microOp .sStartWr s = none := by
  simp [microOp, controlGo, h1, h2]

/-- Between accept and result, a micro-state that issues nothing has no row for the `OP` (notes/assumptions/14.md). -/
theorem blockStep_noRow (hm : s.micro = some m) (h1 : m ≠ .sIdle) (h2 : m ≠ .sResult) (hi : microOp m s = none) :
    blockStep s = .refused .noRowForOp := by
  have hf : fetch s = .refused .noRowForOp := by
    cases m
    case sIdle => exact absurd rfl h1
    case sResult => exact absurd rfl h2
    all_goals simp only [fetch, hm, hi]
  simp only [blockStep, hf]

theorem step_written_blockStep (hin : s.inputs = .written :: rest) : step s = blockStep s := by
  simp only [step, hin]

/-- Settles O19: the guard's clear and the start trigger have one next micro-state each; the control byte, where there is
one, is the one of the `OP`. -/
theorem regwrClearsAndStarts : Obligations.RegwrClearsAndStarts := by
  intro s rest hmap ho hin after
  refine ⟨fun hseq => ?_, fun hseq hop => ?_, fun hseq hop => ?_, fun hseq h1 h2 => ?_⟩
  · exact exec_regwr_goes (m := .sGStsClr) (micro_of_seq ho hseq) hmap hin rfl fun _ => rfl
  · exact exec_regwr_goes (micro_of_seq ho hseq) hmap hin (microOp_sStartWr_read hop) fun _ => rfl
  · exact exec_regwr_goes (micro_of_seq ho hseq) hmap hin (microOp_sStartWr_write hop) fun _ => rfl
  · rw [step_written_blockStep hin]
    exact blockStep_noRow (micro_of_seq ho hseq) (by decide) (by decide) (microOp_sStartWr_none h1 h2)

end Sys2Proof.Machine
end

section
/-! The result port (spec/45_sequencer_fsm.md rule R154) and the reserved codes (spec/93_implementation_defined.md U12). -/

namespace Sys2Proof.Machine

variable {s : State} {rest : List EnvEvent}

/-! ## The result (R154) -/

theorem blockStep_sResult (hm : s.micro = some .sResult) : blockStep s = deliver s := by
  have hf : fetch s = .result := by simp only [fetch, hm]
  simp only [blockStep, hf]

theorem step_quiet (hin : s.inputs = .quiet :: rest) : step s = blockStep s := by
  simp only [step, hin]

/-- Settles O30: in `S_RESULT` the block's own step is the delivery, which the host's taking the word completes and which
otherwise waits. -/
theorem resultIsDelivered : Obligations.ResultIsDelivered := by
  intro s rest hseq hmap ho
  have hm : s.micro = some .sResult := micro_of_seq ho hseq
  constructor
  · intro hin
    rw [step_take hin hm hmap]
    simp only [State.goto, State.useInput, State.record, resWord, hin, List.tail_cons]
  · intro hin
    rw [step_quiet hin, blockStep_sResult hm, deliver_noAnswer (hin ▸ noAnswerNext_quiet rest), if_pos hmap]
    simp only [State.useInput, hin, List.tail_cons]

/-! ## Reserved codes (U12) -/

theorem blockStep_unlisted (hm : s.micro = none) : blockStep s = .refused .unlistedCode := by
  have hf : fetch s = .refused .unlistedCode := by simp only [fetch, hm]
  simp only [blockStep, hf]

/-- Settles O35: no micro-state is current, whether or not a word comes to the port, so the block's own step refuses. -/
theorem unlistedCodesAreRefused : Obligations.UnlistedCodesAreRefused := by
  intro s hcalm hcode
  have hm : s.micro = none := micro_none hcode
  by_cases hp : ∃ w rest, s.inputs = .present w :: rest
  · obtain ⟨w, rest, hin⟩ := hp
    rw [step_present hin]
    exact blockStep_unlisted (s := presentWord w s) hm
  · rw [step_calm hcalm fun w rest hin => hp ⟨w, rest, hin⟩]
    exact blockStep_unlisted hm

end Sys2Proof.Machine
end

section
/-! The micro-operations of the register-access and delay ports (spec/40_register_access.md rules R90 to R96): which ones
the sequencer issues, where one stops, what a completed one does and what it leaves alone. -/

namespace Sys2Proof.Machine

variable {s t : State} {m m' : MicroState} {i : Instr} {rest : List EnvEvent}

/-! ## What a micro-state issues (R92, R96) -/

/-- The offset of a write is one of the six that R96 lists. -/
theorem microOp_regwr_offset {off : Offset} {v : Byte} (hi : microOp m s = some (.regwr off v)) :
    off ∈ [s.cfg.offAuxctl, s.cfg.offAddr, s.cfg.offCmd, s.cfg.offData0, s.cfg.offSts, s.cfg.offCnt] := by
  cases m
  case sStartWr => simp [microOp_sStartWr hi]
  case sRAux1Wr | sRAux2Wr | sWAuxWr | sRAddrWr | sWAddrWr | sRCmdWr | sWCmdWr | sWDataWr | sGStsClr | sAckWr =>
    cases hi
    simp
  all_goals cases hi

/-- The only delay is the one of the poll loop, of `POLL_INTERVAL_US` (R92). -/
theorem microOp_delay {us : BitVec 16} (hi : microOp m s = some (.delay us)) :
    m = .sPDelay ∧ us = s.cfg.pollIntervalUs := by
  cases m
  case sPDelay => cases hi; exact ⟨rfl, rfl⟩
  all_goals simp [microOp, rmwClear, acknowledge] at hi

/-- Settles O24: a micro-state issues a read, a write or the delay, each with the operands that its kind may have. -/
theorem issuedMicroOpsAreWellFormed : Obligations.IssuedMicroOpsAreWellFormed := by
  intro s m i hi
  obtain ⟨off, rfl⟩ | ⟨off, v, rfl⟩ | ⟨us, rfl⟩ := microOp_kind hi
  · obtain ⟨haux, -, hother⟩ := microOp_regrd hi
    have hoff : off = s.cfg.offAuxctl ∨ off = s.cfg.offSts ∨ off = s.cfg.offData0 :=
      (Classical.em (m ∈ auxReadRows.map Prod.fst)).imp haux hother
    simpa [Instr.wellFormed, or_assoc] using hoff
  · simpa [Instr.wellFormed, or_assoc] using microOp_regwr_offset hi
  · simp [Instr.wellFormed, (microOp_delay hi).2]

/-! ## What a write and a delay leave alone (R91, R92, R149) -/

/-- The registers of the working set that a row of a write leaves alone, and those of the result, which the end of a WRREG's
acknowledge alone assigns. -/
structure WriteKeeps (s t : State) (m : MicroState) : Prop where
  auxtmp : t.auxtmp = s.auxtmp
  stsCap : t.stsCap = s.stsCap
  pollcnt : t.pollcnt = s.pollcnt
  timedout : t.timedout = s.timedout
  result : ¬(m = .sAckWr ∧ s.op = 2#2) → t.outcome = s.outcome ∧ t.data = s.data ∧ t.resValid = s.resValid

theorem writeRow_keeps (hr : WriteRow s m t) : WriteKeeps s t m := by
  cases hr with
  | inner | readIsSetUp | writeIsSetUp | starts | ackToData =>
    exact ⟨rfl, rfl, rfl, rfl, fun _ => ⟨rfl, rfl, rfl⟩⟩
  | ackEnds ho => exact ⟨rfl, rfl, rfl, rfl, fun hne => absurd ⟨rfl, ho⟩ hne⟩

/-- Settles O26: an unanswered write uses up an input only; a completed one stores its byte and keeps the frame of its
row. -/
theorem regwrFrame : Obligations.RegwrFrame := by
  intro off v s t h
  obtain ⟨m, hm, -, -, ⟨rest, -, ha⟩ | rfl⟩ := execRegwr_next h
  · have hf := afterWrite_frame ha
    have hk := writeRow_keeps (afterWrite_row ha)
    have hseq := (micro_eq_some.mp hm).2
    have hack : m = .sAckWr → s.seq = MicroState.sAckWr.code := fun heq => heq ▸ hseq
    exact ⟨hf.op, hf.tgt, hf.reg, hf.val, hk.auxtmp, hk.stsCap, hk.pollcnt, hk.timedout, hf.cfg, hf.mapped, hf.cmds,
      hf.forgotten, fun hne => hk.result (mt (And.imp_left hack) hne),
      fun a hne => by rw [hf.surface]; exact s.surface.read_write_other v hne⟩
  · exact ⟨rfl, rfl, rfl, rfl, rfl, rfl, rfl, rfl, rfl, rfl, rfl, rfl, fun _ => ⟨rfl, rfl, rfl⟩, fun _ _ => rfl⟩

/-- Settles O27: a delay that has ended records its event and goes on; one that has not uses up an input only. -/
theorem delayFrame : Obligations.DelayFrame := by
  intro us s t h
  obtain ⟨m, -, -, -, ⟨rest, -, ha⟩ | rfl⟩ := execDelay_next h
  · obtain ⟨-, rfl⟩ := afterDelay_next ha
    exact ⟨rfl, fun _ => rfl⟩
  · exact ⟨rfl, fun _ => rfl⟩

/-! ## The read half of a read-modify-write (R90, R93) -/

theorem microOp_auxRead (h : (m, m') ∈ auxReadRows) : microOp m s = some (.regrd s.cfg.offAuxctl) := by
  simp only [auxReadRows, List.mem_cons, List.not_mem_nil, or_false, Prod.mk.injEq] at h
  obtain ⟨rfl, -⟩ | ⟨rfl, -⟩ | ⟨rfl, -⟩ := h <;> rfl

theorem afterRead_auxRead (h : (m, m') ∈ auxReadRows) (b : Byte) :
    afterRead m b s = .next ({ s with auxtmp := b }.goto m') := by
  simp only [auxReadRows, List.mem_cons, List.not_mem_nil, or_false, Prod.mk.injEq] at h
  obtain ⟨rfl, rfl⟩ | ⟨rfl, rfl⟩ | ⟨rfl, rfl⟩ := h <;> rfl

theorem exec_regrd_auxRead {b : Byte} (h : (m, m') ∈ auxReadRows) (hm : s.micro = some m) (hmap : s.mapped = true)
    (hin : s.inputs = .answer b :: rest) :
    exec (.regrd s.cfg.offAuxctl) s = .next
      { s with seq := m'.code, auxtmp := b, inputs := rest, trace := .read s.cfg.offAuxctl b :: s.trace } := by
  have hread : exec (.regrd s.cfg.offAuxctl) s = afterRead m b (s.readDone s.cfg.offAuxctl b) :=
    execRegrd_answered hm (microOp_auxRead h) hmap hin
  rw [hread, afterRead_auxRead h]
  simp only [State.goto, State.readDone, State.useInput, State.record, hin, List.tail_cons]

/-- Settles O12: the three read halves have one row each, of the same form. -/
theorem regrdLoadsAuxtmp : Obligations.RegrdLoadsAuxtmp := by
  intro s b rest hmap ho hin after
  have loads {m m' : MicroState} (h : (m, m') ∈ auxReadRows) (hseq : s.seq = m.code) :
      exec (.regrd s.cfg.offAuxctl) s = .next (after m') := exec_regrd_auxRead h (micro_of_seq ho hseq) hmap hin
  exact ⟨loads (by decide), loads (by decide), loads (by decide)⟩

/-! ## The delay of the poll loop (R92, R111) -/

/-- Settles O21: the one row of a delay goes on to the status read. -/
theorem delayGoesOnToTheStatusRead : Obligations.DelayGoesOnToTheStatusRead := by
  intro s rest hmap ho hin hseq
  have hdone : exec (.delay s.cfg.pollIntervalUs) s = .next ((s.delayOver s.cfg.pollIntervalUs).goto .sPStsRd) :=
    execDelay_done (micro_of_seq ho hseq) rfl hmap hin
  rw [hdone]
  simp only [State.goto, State.delayOver, State.useInput, State.record, hin, List.tail_cons]

/-! ## Where a micro-operation stops (R96, R187) -/

theorem whenIssued_notIssued {perform : MicroState → Host.Outcome State Fault Refusal} (hm : s.micro = some m)
    (hi : microOp m s ≠ some i) : whenIssued i perform s = .refused .notIssued := by
  simp [whenIssued, hm, hi]

/-- Settles O23: the three micro-operations ask for their issue first and for the pin next. -/
theorem microOpsStopWhenNotIssuedOrUnmapped : Obligations.MicroOpsStopWhenNotIssuedOrUnmapped := by
  intro s m i hseq ho hkind
  have hm : s.micro = some m := micro_of_seq ho hseq
  refine ⟨fun hi => ?_, fun hi hmap => exec_microOp_unmapped hm hi hmap⟩
  obtain ⟨off, rfl⟩ | ⟨off, v, rfl⟩ | ⟨us, rfl⟩ := hkind
  · exact whenIssued_notIssued hm hi
  · exact whenIssued_notIssued hm hi
  · exact whenIssued_notIssued hm hi

end Sys2Proof.Machine
end

section
/-! Every start trigger comes directly after a status read with no sticky flag (spec/41_bus_guard.md rules R105, R106). -/

namespace Sys2Proof.Machine

variable {s t : State} {m : MicroState}

/-! ## Which micro-states come to the start trigger, and which one makes it -/

/-- The guard's second read alone leads to the start trigger, on a status byte with no sticky flag (R105). -/
theorem readRow_to_sStartWr {b : Byte} (hr : ReadRow b s m t) (hseq : t.seq = MicroState.sStartWr.code) :
    m = .sGStsRd2 ∧ stickyFlag s.cfg b = false := by
  cases hr with
  | guardStarts hf ho => exact ⟨rfl, hf⟩
  | @aux m m' hmem =>
    obtain rfl : m' = .sStartWr := code_inj.mp hseq
    exact absurd hmem (by cases m <;> decide)
  | guardBusy | guardClears | guardGoesOn | guardFails | guardEnds | pollCompletes | pollGoesOn | timesOut
  | timesOutToData | timesOutEnds | data => simp at hseq

/-- No write leads to the start trigger. -/
theorem afterWrite_not_sStartWr (h : afterWrite m s = .next t) : t.seq ≠ MicroState.sStartWr.code := by
  obtain ⟨m', hm', hseq⟩ := afterWrite_seq h
  rw [hseq, Ne, code_inj]
  rintro rfl
  exact absurd hm' (by cases m <;> decide)

/-- No accepted word leads to the start trigger without a guard (R148). -/
theorem dispatchOf_not_sStartWr (w : BitVec 32) : (dispatchOf w s).seq ≠ MicroState.sStartWr.code := by
  obtain ⟨m, hm, hseq⟩ := dispatchOf_seq (s := s) w
  rw [hseq, Ne, code_inj]
  rintro rfl
  exact absurd hm (by decide)

/-- R7 (a), for the control register. -/
theorem offCnt_distinct {c : Config} (h : configOk c = true) :
    c.offSts ≠ c.offCnt ∧ c.offCmd ≠ c.offCnt ∧ c.offAddr ≠ c.offCnt ∧ c.offData0 ≠ c.offCnt ∧ c.offAuxctl ≠ c.offCnt := by
  have hd := (List.nodup_cons.mp (List.nodup_cons.mp (configOk_offsets h)).2).1
  have hrest : c.offCmd ≠ c.offCnt ∧ c.offAddr ≠ c.offCnt ∧ c.offData0 ≠ c.offCnt ∧ c.offAuxctl ≠ c.offCnt := by
    simpa [eq_comm] using hd
  exact ⟨offSts_ne_offCnt h, hrest⟩

/-- Only `S_START_WR` writes the control register (R131, R141). -/
theorem microOp_write_offCnt {v : Byte} (hc : configOk s.cfg = true) (hi : microOp m s = some (.regwr s.cfg.offCnt v)) :
    m = .sStartWr := by
  obtain ⟨hsts, hcmd, haddr, hdat, haux⟩ := offCnt_distinct hc
  cases m
  case sStartWr => rfl
  all_goals simp [microOp, rmwClear, acknowledge, hsts, hcmd, haddr, hdat, haux] at hi

/-! ## The start triggers of the trace -/

/-- In a micro-state that is not `S_START_WR` only the trace is asked. -/
theorem startsGuarded_of_ne (hne : t.seq ≠ MicroState.sStartWr.code) (h : startsGuarded t.cfg t.trace) : StartsGuarded t :=
  ⟨h, fun hseq => absurd hseq hne⟩

theorem startsGuarded_read {off : Offset} {b : Byte} (h : StartsGuarded s) (hi : microOp m s = some (.regrd off))
    (ha : afterRead m b (s.readDone off b) = .next t) : StartsGuarded t := by
  have hf := afterRead_frame ha
  refine ⟨by rw [hf.cfg, hf.trace]; exact h.1, fun hseq => ?_⟩
  obtain ⟨rfl, hclean⟩ := readRow_to_sStartWr (afterRead_row ha) hseq
  cases hi
  exact ⟨b, s.trace, by rw [hf.cfg, hf.trace]; rfl, by rw [hf.cfg]; exact hclean⟩

theorem startsGuarded_write {off : Offset} {v : Byte} (hc : configOk s.cfg = true) (hs : s.seq = m.code)
    (h : StartsGuarded s) (hi : microOp m s = some (.regwr off v)) (ha : afterWrite m (s.writeDone off v) = .next t) :
    StartsGuarded t := by
  have hf := afterWrite_frame ha
  refine startsGuarded_of_ne (afterWrite_not_sStartWr ha) ?_
  rw [hf.cfg, hf.trace]
  refine ⟨fun hoff => ?_, h.1⟩
  obtain rfl : off = s.cfg.offCnt := hoff
  obtain rfl := microOp_write_offCnt hc hi
  exact h.2 hs

theorem startsGuarded_blockMove (hinv : Inv s m) (h : StartsGuarded s) (hmv : BlockMove s t) : StartsGuarded t := by
  cases hmv with
  | waits => exact h
  | accepts w ws =>
    refine startsGuarded_of_ne (dispatchOf_not_sStartWr w) ?_
    rw [(dispatchOf_frame w).cfg, (dispatchOf_frame w).trace]
    exact h.1
  | reads m' off b rest t hm hi hmap hin ha => exact startsGuarded_read h hi ha
  | writes m' off v rest t hm hi hmap hin ha =>
    obtain rfl := hinv.micro_unique hm
    obtain ⟨hidle, -⟩ := microOp_some hi
    exact startsGuarded_write (hinv.underway hidle).2 hinv.seqListed h hi ha
  | delays m' us rest t hm hi hmap hin ha =>
    obtain ⟨-, rfl⟩ := afterDelay_next ha
    exact startsGuarded_of_ne (by simp) h.1
  | delivers => exact startsGuarded_of_ne (by simp) h.1

/-- Settles O40: a read leads to `S_START_WR` from the guard's second read only, with no sticky flag; a write of the control
register is made there only, so the read is the newest event before it. -/
theorem stepKeepsStartsGuarded : Obligations.StepKeepsStartsGuarded := by
  rintro s t ⟨m, hinv⟩ h hstep
  obtain ⟨rest, -, rfl⟩ | ⟨b, rest, -, -, rfl⟩ | ⟨w, rest, -, hmv⟩ | ⟨-, hmv⟩ := step_next hstep
  · exact startsGuarded_of_ne (show MicroState.sIdle.code ≠ MicroState.sStartWr.code by decide) h.1
  · exact h
  · exact startsGuarded_blockMove (hinv.present w) h hmv
  · exact startsGuarded_blockMove hinv h hmv

end Sys2Proof.Machine
end

section
/-! The guard (spec/41_bus_guard.md rules R100 to R107): its entry by a CHKIDLE and its two status reads. -/

namespace Sys2Proof.Machine

variable {s : State} {m : MicroState} {b : Byte} {rest : List EnvEvent}

/-! ## The two tests (R102, R103) -/

theorem busyFlag_eq_true {c : Config} : busyFlag c b = true ↔ b &&& c.stsBusy ≠ 0#8 := by simp [busyFlag, isSet]

theorem stickyFlag_eq_true {c : Config} : stickyFlag c b = true ↔ b &&& stsStickyMask c ≠ 0#8 := by
  simp [stickyFlag, isSet]

/-! ## The rows of the two status reads (R149, R150) -/

theorem afterRead_sGStsRd1_busy (hb : busyFlag s.cfg b = true) :
    afterRead .sGStsRd1 b s = .next (finish .busy 0x00#8 { s with stsCap := b }) := by
  simp [afterRead, afterGuardRead1, hb]

theorem afterRead_sGStsRd1_sticky (hb : busyFlag s.cfg b = false) (hf : stickyFlag s.cfg b = true) :
    afterRead .sGStsRd1 b s = .next ({ s with stsCap := b }.goto .sGStsClr) := by
  simp [afterRead, afterGuardRead1, hb, hf]

theorem afterRead_sGStsRd1_clean (hb : busyFlag s.cfg b = false) (hf : stickyFlag s.cfg b = false) :
    afterRead .sGStsRd1 b s = .next ({ s with stsCap := b }.goto .sGStsRd2) := by
  simp [afterRead, afterGuardRead1, hb, hf]

theorem afterRead_sGStsRd2_sticky (hf : stickyFlag s.cfg b = true) :
    afterRead .sGStsRd2 b s = .next (finish .configurationError 0x00#8 { s with stsCap := b }) := by
  simp [afterRead, afterGuardRead2, hf]

theorem afterRead_sGStsRd2_clean (hf : stickyFlag s.cfg b = false) :
    afterRead .sGStsRd2 b s = guardPassed { s with stsCap := b } := by
  simp [afterRead, afterGuardRead2, hf]

theorem guardPassed_starts (ho : s.op = 1#2 ∨ s.op = 2#2) : guardPassed s = .next (s.goto .sStartWr) := if_pos ho

theorem guardPassed_ends (ho : s.op = 3#2) : guardPassed s = .next (finish .success 0x00#8 s) := by
  simp [guardPassed, ho]

theorem guardPassed_refused (h1 : ¬(s.op = 1#2 ∨ s.op = 2#2)) (h3 : s.op ≠ 3#2) :
    guardPassed s = .refused .noRowForOp := by
  simp [guardPassed, h1, h3]

/-! ## An answered read -/

/-- The state in which a read has been answered, written out. -/
theorem readDone_eq {off : Offset} (hin : s.inputs = .answer b :: rest) :
    s.readDone off b = { s with inputs := rest, trace := .read off b :: s.trace } := by
  simp only [State.readDone, State.useInput, State.record, hin, List.tail_cons]

/-- An answered read is the row of its micro-state. -/
theorem exec_regrd_answered {off : Offset} (hm : s.micro = some m) (hi : microOp m s = some (.regrd off))
    (hmap : s.mapped = true) (hin : s.inputs = .answer b :: rest) :
    exec (.regrd off) s = afterRead m b { s with inputs := rest, trace := .read off b :: s.trace } := by
  rw [← readDone_eq hin]
  exact execRegrd_answered hm hi hmap hin

/-- Settles O13: busy is tested before the sticky flags. -/
theorem guardFirstRead : Obligations.GuardFirstRead := by
  intro s b rest hmap ho hin hseq s1
  rw [exec_regrd_answered (micro_of_seq ho hseq) rfl hmap hin]
  split
  · rename_i hb
    exact afterRead_sGStsRd1_busy (busyFlag_eq_true.mpr hb)
  · rename_i hb
    have hb' : busyFlag s.cfg b = false := Bool.eq_false_iff.mpr (mt busyFlag_eq_true.mp hb)
    split
    · rename_i hf
      exact afterRead_sGStsRd1_sticky hb' (stickyFlag_eq_true.mpr hf)
    · rename_i hf
      exact afterRead_sGStsRd1_clean hb' (stickyFlag_eq_false.mpr (not_not.mp hf))

/-- Settles O14: the sticky flags are tested first, `OP` next. -/
theorem guardSecondRead : Obligations.GuardSecondRead := by
  intro s b rest hmap ho hin hseq s1
  rw [exec_regrd_answered (micro_of_seq ho hseq) rfl hmap hin]
  split
  · rename_i hf
    exact afterRead_sGStsRd2_sticky (stickyFlag_eq_true.mpr hf)
  · rename_i hf
    refine (afterRead_sGStsRd2_clean (by exact stickyFlag_eq_false.mpr (not_not.mp hf))).trans ?_
    split
    · exact guardPassed_starts ‹_›
    · split
      · exact guardPassed_ends ‹_›
      · exact guardPassed_refused ‹_› ‹_›

/-- Settles O9: a ready block accepts the word, latches its fields and goes to the guard. -/
theorem chkidleIsAccepted : Obligations.ChkidleIsAccepted := by
  intro s t r v hseq hmap hcfg ho
  rw [exec_chkidle, acceptWord_ready hseq hmap hcfg ho]
  obtain ⟨hop, htgt, hreg, hval⟩ := chkidleWord_fields t r v
  simp only [latch, hop, htgt, hreg, hval]
  rfl

end Sys2Proof.Machine
end

section
/-! Stretches of a run that do not depend on what the records hold, so that whole commands are put together from them by
transitivity (spec/45_sequencer_fsm.md rule R145). -/

namespace Sys2Proof.Machine

variable {s s1 t : State} {m m' : MicroState} {evs : List PortEvent}

/-- The same state with other records of events and of writes. -/
abbrev State.withRecords (tr : List PortEvent) (mem : Memory) (s : State) : State := { s with trace := tr, surface := mem }

/-- With the outside answering as `evs` say, the block goes from `s` to `t` and makes exactly these events, whatever its
records hold. -/
def Stretch (s : State) (evs : List PortEvent) (t : State) : Prop := ∀ tr mem, Performs (s.withRecords tr mem) evs t

/-- A stretch is what the statements about whole commands speak of. -/
theorem Stretch.performs (h : Stretch s evs t) : Performs s evs t := h s.trace s.surface

theorem Stretch.refl (s : State) : Stretch s [] s := fun _ _ => performs_nil rfl

theorem Stretch.trans {evs' : List PortEvent} {t' : State} (h : Stretch s evs t) (h' : Stretch t evs' t') :
    Stretch s (evs ++ evs') t' :=
  fun tr mem => performs_append (h tr mem) (h' _ _)

/-- One event, then the rest. -/
theorem Stretch.cons {e : PortEvent} (h : Stretch s [e] s1) (h' : Stretch s1 evs t) : Stretch s (e :: evs) t := h.trans h'

/-- The block is mapped and in micro-state `m`, and holds no reserved outcome code: it takes the row of `m`. -/
structure RunsIn (m : MicroState) (s : State) : Prop where
  listed : s.outcome ≠ 6#3
  seq : s.seq = m.code
  mapped : s.mapped = true

theorem RunsIn.goto (h : RunsIn m s) (m' : MicroState) : RunsIn m' (s.goto m') := ⟨h.listed, rfl, h.mapped⟩

/-! ## One event -/

theorem stretch_read {off : Offset} {b : Byte} (h : RunsIn m s) (hi : microOp m s = some (.regrd off))
    (ha : ∀ tr mem, afterRead m b (s.withRecords tr mem) = .next (s1.withRecords tr mem)) :
    Stretch s [.read off b] s1 :=
  fun _ _ => performs_read h.listed h.seq (by rw [← hi]; cases m <;> rfl) h.mapped (ha _ _) (performs_nil rfl)

theorem stretch_write {off : Offset} {v : Byte} (h : RunsIn m s) (hi : microOp m s = some (.regwr off v))
    (ha : ∀ tr mem, afterWrite m (s.withRecords tr mem) = .next (s1.withRecords tr mem)) :
    Stretch s [.write off v] s1 :=
  fun _ _ => performs_write h.listed h.seq (by rw [← hi]; cases m <;> rfl) h.mapped (ha _ _) (performs_nil rfl)

/-- A write whose row names one next micro-state. -/
theorem stretch_write_goes {off : Offset} {v : Byte} (h : RunsIn m s) (hi : microOp m s = some (.regwr off v))
    (hrow : ∀ u, afterWrite m u = .next (u.goto m')) : Stretch s [.write off v] (s.goto m') :=
  stretch_write h hi fun _ _ => hrow _

/-- The read half of a read-modify-write (R93). -/
theorem stretch_auxRead (hrow : (m, m') ∈ auxReadRows) (h : RunsIn m s) (b : Byte) :
    Stretch s [.read s.cfg.offAuxctl b] ({ s with auxtmp := b }.goto m') :=
  stretch_read h (microOp_auxRead hrow) fun _ _ => afterRead_auxRead hrow b

theorem stretch_delay (h : RunsIn .sPDelay s) : Stretch s [.delay s.cfg.pollIntervalUs] (s.goto .sPStsRd) :=
  fun _ _ => performs_delay h.listed h.seq h.mapped (performs_nil rfl)

theorem stretch_deliver (h : RunsIn .sResult s) : Stretch s [.deliver (resWord s)] (s.goto .sIdle) :=
  fun _ _ => performs_deliver h.listed h.seq h.mapped (performs_nil rfl)

/-- The delivery of a command that has just ended. -/
theorem stretch_finished (hmap : s.mapped = true) (o : TxnOutcome) (d : Byte) :
    Stretch (finish o d s) [.deliver (resultWord o d)] ((finish o d s).goto .sIdle) :=
  stretch_deliver ⟨outcome_code_listed o, rfl, hmap⟩

/-! ## The accept (R147) -/

/-- The registers after the latching of `w`, with the word off the port. -/
def accepted (w : BitVec 32) (s : State) : State :=
  { s with
    op := cmdOp w, tgt := cmdTarget w, reg := cmdRegaddr w, val := cmdValue w, pollcnt := 0#9, timedout := false
    data := 0x00#8, resValid := false, cmds := s.cmds.tail }

theorem stretch_accept {w : BitVec 32} (hr : readyFor w s)
    (hd : ∀ tr mem, dispatchOf w ((accepted w s).withRecords tr mem) = s1.withRecords tr mem) :
    Stretch s [.accept w] s1 := by
  intro tr mem
  have hend : Performs (dispatchOf w ((accepted w s).withRecords (.accept w :: tr) mem)) [] s1 := by
    rw [hd]
    exact performs_nil rfl
  exact performs_accept (s := s.withRecords tr mem) hr hend

theorem readyFor.runsIn {w : BitVec 32} (hr : readyFor w s) : RunsIn .sIdle (accepted w s) := by
  obtain ⟨hs, hmap, -, ho, -⟩ := hr
  exact ⟨ho, hs, hmap⟩

section Accept
variable {a : Target} {r v : Byte}

theorem stretch_rdreg_accept (hr : readyFor (rdregWord a r v) s) :
    Stretch s [.accept (rdregWord a r v)] ((accepted (rdregWord a r v) s).goto .sRAux1Rd) :=
  stretch_accept hr fun _ _ => dispatchOf_rdreg a r v

theorem stretch_chkidle_accept (hr : readyFor (chkidleWord a r v) s) :
    Stretch s [.accept (chkidleWord a r v)] ((accepted (chkidleWord a r v) s).goto .sGStsRd1) :=
  stretch_accept hr fun _ _ => dispatchOf_chkidle a r v

theorem stretch_wrreg_accept (hr : readyFor (wrregWord a r v) s) (hw : inReservedWindow s.cfg a = false) :
    Stretch s [.accept (wrregWord a r v)] ((accepted (wrregWord a r v) s).goto .sWAddrWr) := by
  rw [← (wrregWord_fields a r v).2.1] at hw
  exact stretch_accept hr fun _ _ => (dispatchOf_wrreg a r v).trans (dispatchWrite_allowed hw)

theorem stretch_wrreg_denied (hr : readyFor (wrregWord a r v) s) (hw : inReservedWindow s.cfg a = true) :
    Stretch s [.accept (wrregWord a r v)] (finish .accessDenied 0x00#8 (accepted (wrregWord a r v) s)) := by
  rw [← (wrregWord_fields a r v).2.1] at hw
  exact stretch_accept hr fun _ _ => (dispatchOf_wrreg a r v).trans (dispatchWrite_denied hw)

end Accept

end Sys2Proof.Machine
end

section
/-! The parts of a command: its set-up, the guard, the poll loop with its acknowledge (spec/43_read_register.md rule R125,
spec/44_write_register.md rule R136, spec/41_bus_guard.md rule R100, spec/42_poll_classify_ack.md rules R110 to R121). -/

namespace Sys2Proof.Machine

variable {s : State}

/-! ## The set-up (R126 to R129, R137 to R139) -/

theorem stretch_readSetup {t : Target} {r : Byte} (h : RunsIn .sRAux1Rd s) (ht : s.tgt = t) (hreg : s.reg = r)
    (a1 a2 : Byte) : Stretch s (readSetup s.cfg t r a1 a2) ({ s with auxtmp := a2 }.goto .sGStsRd1) := by
  subst ht hreg
  have h1 : RunsIn .sRAux1Wr ({ s with auxtmp := a1 }.goto .sRAux1Wr) := ⟨h.listed, rfl, h.mapped⟩
  have h2 : RunsIn .sRAux2Wr ({ s with auxtmp := a2 }.goto .sRAux2Wr) := ⟨h.listed, rfl, h.mapped⟩
  exact .cons (stretch_auxRead (by decide) h a1)
    (.cons (stretch_write_goes h1 rfl fun _ => rfl)
      (.cons (stretch_write_goes (h1.goto .sRAddrWr) rfl fun _ => rfl)
        (.cons (stretch_write_goes (h1.goto .sRCmdWr) rfl fun _ => rfl)
          (.cons (stretch_auxRead (by decide) (h1.goto .sRAux2Rd) a2)
            (stretch_write_goes h2 rfl fun _ => rfl)))))

theorem stretch_writeSetup {t : Target} {r v : Byte} (h : RunsIn .sWAddrWr s) (ht : s.tgt = t) (hreg : s.reg = r)
    (hval : s.val = v) (a : Byte) : Stretch s (writeSetup s.cfg t r v a) ({ s with auxtmp := a }.goto .sGStsRd1) := by
  subst ht hreg hval
  have h1 : RunsIn .sWAuxWr ({ s with auxtmp := a }.goto .sWAuxWr) := ⟨h.listed, rfl, h.mapped⟩
  exact .cons (stretch_write_goes h rfl fun _ => rfl)
    (.cons (stretch_write_goes (h.goto .sWCmdWr) rfl fun _ => rfl)
      (.cons (stretch_write_goes (h.goto .sWDataWr) rfl fun _ => rfl)
        (.cons (stretch_auxRead (by decide) (h.goto .sWAuxRd) a)
          (stretch_write_goes h1 rfl fun _ => rfl))))

/-! ## The guard (R100 to R105) -/

section Guard
variable {s1 s2 : Byte}

theorem stretch_guardBusy (h : RunsIn .sGStsRd1 s) (hb : busyFlag s.cfg s1 = true) :
    Stretch s [.read s.cfg.offSts s1] (finish .busy 0x00#8 { s with stsCap := s1 }) :=
  stretch_read h rfl fun _ _ => afterRead_sGStsRd1_busy hb

/-- The first status read, and the clear where a sticky flag shows (R103). -/
theorem stretch_guardClear (h : RunsIn .sGStsRd1 s) (hb : busyFlag s.cfg s1 = false) :
    Stretch s (.read s.cfg.offSts s1 :: guardClear s.cfg s1) ({ s with stsCap := s1 }.goto .sGStsRd2) := by
  unfold guardClear
  split
  · have hread : Stretch s [.read s.cfg.offSts s1] ({ s with stsCap := s1 }.goto .sGStsClr) :=
      stretch_read h rfl fun _ _ => afterRead_sGStsRd1_sticky hb ‹_›
    have hclr : RunsIn .sGStsClr ({ s with stsCap := s1 }.goto .sGStsClr) := ⟨h.listed, rfl, h.mapped⟩
    exact .cons hread (stretch_write_goes hclr rfl fun _ => rfl)
  · have hf : stickyFlag s.cfg s1 = false := by simpa using ‹¬stickyFlag s.cfg s1 = true›
    exact stretch_read h rfl fun _ _ => afterRead_sGStsRd1_clean hb hf

theorem stretch_guardFails (h : RunsIn .sGStsRd1 s) (hb : busyFlag s.cfg s1 = false) (hf : stickyFlag s.cfg s2 = true) :
    Stretch s (guardEvents s.cfg s1 s2) (finish .configurationError 0x00#8 { s with stsCap := s2 }) :=
  (stretch_guardClear h hb).trans
    (stretch_read ⟨h.listed, rfl, h.mapped⟩ rfl fun _ _ => afterRead_sGStsRd2_sticky (by exact hf))

/-- The guard passed, a command that starts a transfer goes to its start trigger. -/
theorem stretch_guardStarts (h : RunsIn .sGStsRd1 s) (hb : busyFlag s.cfg s1 = false) (hf : stickyFlag s.cfg s2 = false)
    (ho : s.op = 1#2 ∨ s.op = 2#2) :
    Stretch s (guardEvents s.cfg s1 s2) ({ s with stsCap := s2 }.goto .sStartWr) :=
  (stretch_guardClear h hb).trans
    (stretch_read ⟨h.listed, rfl, h.mapped⟩ rfl fun _ _ =>
      (afterRead_sGStsRd2_clean (by exact hf)).trans (guardPassed_starts ho))

/-- The guard passed, a CHKIDLE ends (R107). -/
theorem stretch_guardEnds (h : RunsIn .sGStsRd1 s) (hb : busyFlag s.cfg s1 = false) (hf : stickyFlag s.cfg s2 = false)
    (ho : s.op = 3#2) :
    Stretch s (guardEvents s.cfg s1 s2) (finish .success 0x00#8 { s with stsCap := s2 }) :=
  (stretch_guardClear h hb).trans
    (stretch_read ⟨h.listed, rfl, h.mapped⟩ rfl fun _ _ =>
      (afterRead_sGStsRd2_clean (by exact hf)).trans (guardPassed_ends ho))

end Guard

end Sys2Proof.Machine
end

section
/-! The poll loop with its acknowledge (spec/42_poll_classify_ack.md rules R110 to R121). The states it passes through are
written register by register, so that their other registers are read off by `rfl`. -/

namespace Sys2Proof.Machine

variable {s : State} {b l : Byte} {bs : List Byte}

/-! ## The states at the end of the loop -/

/-- The registers when the poll loop has ended on the status byte `l` with the counter at `n`: timed out where `l` does not
complete it. -/
def pollOver (n : BitVec 9) (l : Byte) (s : State) : State :=
  { s with stsCap := l, pollcnt := n, timedout := !pollCompleted s.cfg l }

/-- `decideRead` (R149), register by register. -/
def decided (s : State) : State :=
  { s with outcome := if s.op = 1#2 then (classify s.cfg s.timedout s.stsCap).code else s.outcome }

theorem decideRead_eq_decided (s : State) : decideRead s = decided s := by
  unfold decideRead decided; split <;> rfl

theorem decided_read (ho : s.op = 1#2) :
    decided s = { s with outcome := (classify s.cfg s.timedout s.stsCap).code } := by
  simp [decided, ho]

/-- Where the command goes when the poll loop is over and acknowledged: RDREG, its outcome decided, to the data register,
WRREG to its end (R149). -/
def transferOver (s : State) : State :=
  { s with
    seq := if s.op = 1#2 then MicroState.sDataRd.code else MicroState.sResult.code
    outcome := (classify s.cfg s.timedout s.stsCap).code
    data := if s.op = 1#2 then s.data else 0x00#8, resValid := if s.op = 1#2 then s.resValid else true }

theorem transferOver_read (ho : s.op = 1#2) :
    transferOver s = { s with outcome := (classify s.cfg s.timedout s.stsCap).code }.goto .sDataRd := by
  simp [transferOver, State.goto, ho]

theorem transferOver_write (ho : s.op ≠ 1#2) :
    transferOver s = finish (classify s.cfg s.timedout s.stsCap) 0x00#8 s := by
  simp [transferOver, finish, finishCode, ho]

/-! ## The rows of the loop (R111 to R113, R119, R121) -/

theorem afterRead_sPStsRd_goesOn (hc : pollCompleted s.cfg b = false) (hn : s.pollcnt + 1#9 ≠ s.cfg.pollMax) :
    afterRead .sPStsRd b s = .next ((polled b s).goto .sPDelay) := by
  simp [afterRead, afterPollRead, polled, hc, hn]

/-- The status byte `l` ends the poll loop: it completes it, or it uses the budget up (R112, R113). -/
def lastRound (l : Byte) (s : State) : Prop :=
  s.timedout = false ∧ (pollCompleted s.cfg l = true ∨ s.pollcnt + 1#9 = s.cfg.pollMax)

/-- With an acknowledge flag in the last byte the acknowledge is next, completed or timed out. -/
theorem afterRead_sPStsRd_toAck (hl : lastRound l s) (ha : ackFlag s.cfg l = true) :
    afterRead .sPStsRd l s = .next ((decided (pollOver (s.pollcnt + 1#9) l s)).goto .sAckWr) := by
  obtain ⟨hto, hend⟩ := hl
  rw [← decideRead_eq_decided]
  cases hc : pollCompleted s.cfg l with
  | true => simp [afterRead, afterPollRead, pollOver, hc, hto]
  | false =>
    have hn : s.pollcnt + 1#9 = s.cfg.pollMax := hend.resolve_left (by simp [hc])
    simp [afterRead, afterPollRead, pollTimedOut, pollOver, hc, hn, ha]

/-- With none the loop has timed out, and the command goes on at once. -/
theorem afterRead_sPStsRd_noAck (hl : lastRound l s) (ha : ackFlag s.cfg l = false) :
    afterRead .sPStsRd l s = .next (transferOver (pollOver (s.pollcnt + 1#9) l s)) := by
  have hc : pollCompleted s.cfg l = false := by simp [pollCompleted, ha]
  have hn : s.pollcnt + 1#9 = s.cfg.pollMax := hl.2.resolve_left (by simp [hc])
  by_cases ho : s.op = 1#2
  · rw [transferOver_read (by exact ho), ← decided_read (by exact ho), ← decideRead_eq_decided]
    simp [afterRead, afterPollRead, pollTimedOut, pollOver, hc, hn, ha, ho]
  · rw [transferOver_write (by exact ho)]
    simp [afterRead, afterPollRead, pollTimedOut, pollOver, hc, hn, ha, ho, decideRead_of_op_ne, classify]

theorem afterWrite_sAckWr (ho : s.op = 1#2 ∨ s.op = 2#2) :
    afterWrite .sAckWr ((decided s).goto .sAckWr) = .next (transferOver s) := by
  obtain ho | ho := ho
  · rw [transferOver_read ho, ← decided_read ho]
    exact if_pos ho
  · rw [transferOver_write (by simp [ho])]
    simp [afterWrite, afterAck, decided, finish, finishCode, ho]

/-! ## The loop -/

theorem RunsIn.goto_self {m : MicroState} (h : RunsIn m s) : s.goto m = s := by
  rw [State.goto, ← h.seq]

theorem pollEvents_append (c : Config) (bs bs' : List Byte) :
    pollEvents c (bs ++ bs') = pollEvents c bs ++ pollEvents c bs' := List.flatMap_append

/-- One round that does not end the loop. -/
theorem stretch_pollRound (h : RunsIn .sPDelay s) (hc : pollCompleted s.cfg b = false)
    (hn : s.pollcnt + 1#9 ≠ s.cfg.pollMax) : Stretch s (pollEvents s.cfg [b]) ((polled b s).goto .sPDelay) :=
  .cons (stretch_delay h) (stretch_read (h.goto .sPStsRd) rfl fun _ _ => afterRead_sPStsRd_goesOn hc hn)

/-- The rounds before the last one move the counter and the captured status only. -/
theorem stretch_pollRounds (h : RunsIn .sPDelay s) (hc : ∀ b ∈ bs, pollCompleted s.cfg b = false)
    (hn : s.pollcnt.toNat + bs.length < s.cfg.pollMax.toNat) :
    ∃ b, Stretch s (pollEvents s.cfg bs)
      ({ s with stsCap := b, pollcnt := s.pollcnt + BitVec.ofNat 9 bs.length }.goto .sPDelay) := by
  induction bs generalizing s with
  | nil => exact ⟨s.stsCap, by simpa [pollEvents, h.goto_self] using Stretch.refl s⟩
  | cons b bs ih =>
    have hmax := s.cfg.pollMax.isLt
    simp only [List.length_cons] at hn
    have hcnt : (s.pollcnt + 1#9).toNat = s.pollcnt.toNat + 1 := by bv_omega
    have hne : s.pollcnt + 1#9 ≠ s.cfg.pollMax := by bv_omega
    obtain ⟨b', hrest⟩ := ih (s := (polled b s).goto .sPDelay) ⟨h.listed, rfl, h.mapped⟩
      (fun x hx => hc x (List.mem_cons_of_mem _ hx)) (by simp [hcnt]; omega)
    have hsum : s.pollcnt + 1#9 + BitVec.ofNat 9 bs.length = s.pollcnt + BitVec.ofNat 9 (b :: bs).length := by
      rw [List.length_cons, BitVec.ofNat_add, BitVec.add_assoc, BitVec.add_comm 1#9]
    refine ⟨b', ?_⟩
    rw [← hsum]
    exact (stretch_pollRound h (hc b List.mem_cons_self) hne).trans hrest

/-- The last round, with the acknowledge of the flags it shows. -/
theorem stretch_lastRound (h : RunsIn .sPDelay s) (hl : lastRound l s) (ho : s.op = 1#2 ∨ s.op = 2#2) :
    Stretch s (pollEvents s.cfg [l] ++ ackEvents s.cfg l) (transferOver (pollOver (s.pollcnt + 1#9) l s)) := by
  refine .cons (stretch_delay h) ?_
  have hread : RunsIn .sPStsRd (s.goto .sPStsRd) := h.goto _
  unfold ackEvents
  split
  · have read : Stretch (s.goto .sPStsRd) [.read s.cfg.offSts l]
        ((decided (pollOver (s.pollcnt + 1#9) l s)).goto .sAckWr) :=
      stretch_read hread rfl fun _ _ => afterRead_sPStsRd_toAck hl ‹_›
    have hack : RunsIn .sAckWr ((decided (pollOver (s.pollcnt + 1#9) l s)).goto .sAckWr) :=
      ⟨decideRead_eq_decided (pollOver _ l s) ▸ decideRead_outcome_listed h.listed, rfl, h.mapped⟩
    exact .cons read (stretch_write hack rfl fun tr mem =>
      afterWrite_sAckWr (s := (pollOver (s.pollcnt + 1#9) l s).withRecords tr mem) ho)
  · have ha : ackFlag s.cfg l = false := by simpa using ‹¬ackFlag s.cfg l = true›
    exact stretch_read hread rfl fun _ _ => afterRead_sPStsRd_noAck hl ha

/-- The poll loop from its first delay to its acknowledge. -/
theorem stretch_poll (h : RunsIn .sPDelay s) (hcnt : s.pollcnt = 0#9) (hto : s.timedout = false)
    (ho : s.op = 1#2 ∨ s.op = 2#2) (hends : pollEnds s.cfg bs l) :
    Stretch s (pollEvents s.cfg (bs ++ [l]) ++ ackEvents s.cfg l)
      (transferOver (pollOver (BitVec.ofNat 9 (bs.length + 1)) l s)) := by
  obtain ⟨hbs, hend⟩ := hends
  have hmax := s.cfg.pollMax.isLt
  have hlen : bs.length + 1 ≤ s.cfg.pollMax.toNat := hend.elim And.right fun hn => hn.2.le
  obtain ⟨b, hrounds⟩ := stretch_pollRounds h hbs (by simp [hcnt]; omega)
  have hsum : s.pollcnt + BitVec.ofNat 9 bs.length + 1#9 = BitVec.ofNat 9 (bs.length + 1) := by
    rw [hcnt, BitVec.zero_add, BitVec.ofNat_add]
  have hlast : pollCompleted s.cfg l = true ∨ BitVec.ofNat 9 (bs.length + 1) = s.cfg.pollMax := by
    refine hend.imp And.left fun hn => BitVec.eq_of_toNat_eq ?_
    rw [BitVec.toNat_ofNat, Nat.mod_eq_of_lt (by omega), hn.2]
  rw [← hsum] at hlast ⊢
  rw [pollEvents_append, List.append_assoc]
  exact hrounds.trans (stretch_lastRound ⟨h.listed, rfl, h.mapped⟩ ⟨hto, hlast⟩ ho)

/-! ## The transfer, from the guard on -/

theorem stretch_start {go : Byte} (h : RunsIn .sStartWr s) (hgo : controlGo s.cfg s.op = some go) :
    Stretch s [.write s.cfg.offCnt go] (s.goto .sPDelay) :=
  stretch_write_goes h (by simp [microOp, hgo]) fun _ => rfl

theorem stretch_transfer {go s1 s2 : Byte} (h : RunsIn .sGStsRd1 s) (hcnt : s.pollcnt = 0#9) (hto : s.timedout = false)
    (ho : s.op = 1#2 ∨ s.op = 2#2) (hgo : controlGo s.cfg s.op = some go) (hb : busyFlag s.cfg s1 = false)
    (hf : stickyFlag s.cfg s2 = false) (hends : pollEnds s.cfg bs l) :
    Stretch s
      (guardEvents s.cfg s1 s2 ++ [PortEvent.write s.cfg.offCnt go] ++ pollEvents s.cfg (bs ++ [l]) ++ ackEvents s.cfg l)
      (transferOver (pollOver (BitVec.ofNat 9 (bs.length + 1)) l s)) := by
  have hstart : RunsIn .sStartWr ({ s with stsCap := s2 }.goto .sStartWr) := ⟨h.listed, rfl, h.mapped⟩
  rw [List.append_assoc]
  exact ((stretch_guardStarts h hb hf ho).trans (stretch_start hstart hgo)).trans
    (stretch_poll (hstart.goto .sPDelay) hcnt hto ho hends)

end Sys2Proof.Machine
end

section
/-! Whole commands, from the accept to the delivery (spec/43_read_register.md rule R125, spec/44_write_register.md rule
R136, spec/41_bus_guard.md rule R107). The three meet at the guard, so what follows it is said once for all of them. -/

namespace Sys2Proof.Machine

variable {s : State} {w : BitVec 32} {t : Target} {r v a a1 a2 aux s1 s2 l d : Byte} {bs : List Byte}

/-! ## From the accept to the guard -/

/-- The registers at the guard of the command `w` accepted in `s`. -/
def atGuard (w : BitVec 32) (aux : Byte) (s : State) : State :=
  { accepted w s with auxtmp := aux, seq := MicroState.sGStsRd1.code }

@[simp] theorem atGuard_cfg : (atGuard w aux s).cfg = s.cfg := rfl

theorem readyFor.atGuard (hr : readyFor w s) : RunsIn .sGStsRd1 (atGuard w aux s) :=
  ⟨hr.runsIn.listed, rfl, hr.runsIn.mapped⟩

theorem stretch_rdreg_toGuard (hr : readyFor (rdregWord t r v) s) (a1 a2 : Byte) :
    Stretch s ([PortEvent.accept (rdregWord t r v)] ++ readSetup s.cfg t r a1 a2) (atGuard (rdregWord t r v) a2 s) := by
  obtain ⟨-, htgt, hreg, -⟩ := rdregWord_fields t r v
  exact (stretch_rdreg_accept hr).trans (stretch_readSetup (hr.runsIn.goto .sRAux1Rd) htgt hreg a1 a2)

theorem stretch_wrreg_toGuard (hr : readyFor (wrregWord t r v) s) (hw : inReservedWindow s.cfg t = false) (a : Byte) :
    Stretch s ([PortEvent.accept (wrregWord t r v)] ++ writeSetup s.cfg t r v a) (atGuard (wrregWord t r v) a s) := by
  obtain ⟨-, htgt, hreg, hval⟩ := wrregWord_fields t r v
  exact (stretch_wrreg_accept hr hw).trans (stretch_writeSetup (hr.runsIn.goto .sWAddrWr) htgt hreg hval a)

theorem stretch_chkidle_toGuard (hr : readyFor (chkidleWord t r v) s) :
    Stretch s [.accept (chkidleWord t r v)] (atGuard (chkidleWord t r v) s.auxtmp s) := stretch_chkidle_accept hr

/-! ## Commands that the guard ends (R102, R104, R107) -/

/-- The registers after a command that ended without a transfer, on the status byte `sts`. -/
def endedAtGuard (w : BitVec 32) (aux sts : Byte) (o : TxnOutcome) (s : State) : State :=
  { afterCommand s w o 0x00#8 with auxtmp := aux, stsCap := sts, pollcnt := 0#9, timedout := false }

theorem stretch_endsBusy (hr : readyFor w s) (hb : busyFlag s.cfg s1 = true) :
    Stretch (atGuard w aux s) [.read s.cfg.offSts s1, .deliver (resultWord .busy 0x00#8)]
      (endedAtGuard w aux s1 .busy s) :=
  .cons (stretch_guardBusy hr.atGuard hb) (stretch_finished (by exact hr.runsIn.mapped) _ _)

theorem stretch_endsConfigurationError (hr : readyFor w s) (hb : busyFlag s.cfg s1 = false)
    (hf : stickyFlag s.cfg s2 = true) :
    Stretch (atGuard w aux s) (guardEvents s.cfg s1 s2 ++ [PortEvent.deliver (resultWord .configurationError 0x00#8)])
      (endedAtGuard w aux s2 .configurationError s) :=
  (stretch_guardFails hr.atGuard hb hf).trans (stretch_finished (by exact hr.runsIn.mapped) _ _)

theorem stretch_endsSuccess (hr : readyFor w s) (hop : cmdOp w = 3#2) (hb : busyFlag s.cfg s1 = false)
    (hf : stickyFlag s.cfg s2 = false) :
    Stretch (atGuard w aux s) (guardEvents s.cfg s1 s2 ++ [PortEvent.deliver (resultWord .success 0x00#8)])
      (endedAtGuard w aux s2 .success s) :=
  (stretch_guardEnds hr.atGuard hb hf hop).trans (stretch_finished (by exact hr.runsIn.mapped) _ _)

/-- Settles O55: the set-up, then the two endings of the guard. -/
theorem rdregEndsWhenTheGuardFails : Obligations.RdregEndsWhenTheGuardFails := by
  intro s t r v a1 a2 s1 s2 hr c
  have hsetup := stretch_rdreg_toGuard hr a1 a2
  refine ⟨fun hb => (hsetup.trans (stretch_endsBusy hr hb)).performs, fun hb hf => ?_⟩
  rw [List.append_assoc]
  exact (hsetup.trans (stretch_endsConfigurationError hr hb hf)).performs

/-- Settles O57: denied at the dispatch, or the set-up and the two endings of the guard. -/
theorem wrregEndsWhenDeniedOrTheGuardFails : Obligations.WrregEndsWhenDeniedOrTheGuardFails := by
  intro s t r v a s1 s2 hr c
  refine ⟨fun hw => ?_, fun hw hb => ?_, fun hw hb hf => ?_⟩
  · exact ((stretch_wrreg_denied hr hw).cons (stretch_finished (by exact hr.runsIn.mapped) _ _)).performs
  · exact ((stretch_wrreg_toGuard hr hw a).trans (stretch_endsBusy hr hb)).performs
  · rw [List.append_assoc]
    exact ((stretch_wrreg_toGuard hr hw a).trans (stretch_endsConfigurationError hr hb hf)).performs

/-- Settles O58: the guard is all there is between the accept and the delivery. -/
theorem chkidleRunsTheGuard : Obligations.ChkidleRunsTheGuard := by
  intro s t r v s1 s2 hr c
  have haccept := stretch_chkidle_toGuard hr
  refine ⟨fun hb => (haccept.cons (stretch_endsBusy hr hb)).performs, fun hb => ?_⟩
  dsimp only
  rw [List.append_assoc]
  split
  · exact (haccept.trans (stretch_endsConfigurationError hr hb ‹_›)).performs
  · have hf : stickyFlag c s2 = false := by simpa using ‹¬stickyFlag c s2 = true›
    exact (haccept.trans (stretch_endsSuccess hr (chkidleWord_fields t r v).1 hb hf)).performs

/-! ## Commands that run their transfer (R125, R136) -/

/-- The events of a command that starts a transfer, from its accept to the acknowledge. -/
def upToAck (c : Config) (w : BitVec 32) (setup : List PortEvent) (go s1 s2 : Byte) (bs : List Byte) (l : Byte) :
    List PortEvent :=
  [PortEvent.accept w] ++ setup ++ guardEvents c s1 s2 ++ [PortEvent.write c.offCnt go] ++ pollEvents c (bs ++ [l])
    ++ ackEvents c l

/-- The outcome of a poll loop that ended on `l` (R116). -/
def pollOutcome (c : Config) (l : Byte) : TxnOutcome := classify c (!pollCompleted c l) l

/-- The registers after a command whose poll loop ended on `l` after `n` rounds. -/
def endedAfterPoll (w : BitVec 32) (aux l d : Byte) (n : Nat) (s : State) : State :=
  { afterCommand s w (pollOutcome s.cfg l) d with
    auxtmp := aux, stsCap := l, pollcnt := BitVec.ofNat 9 n, timedout := !pollCompleted s.cfg l }

theorem stretch_upToAck {setup : List PortEvent} {go : Byte} (hr : readyFor w s)
    (hsetup : Stretch s ([PortEvent.accept w] ++ setup) (atGuard w aux s)) (ho : cmdOp w = 1#2 ∨ cmdOp w = 2#2)
    (hgo : controlGo s.cfg (cmdOp w) = some go) (hb : busyFlag s.cfg s1 = false) (hf : stickyFlag s.cfg s2 = false)
    (hends : pollEnds s.cfg bs l) :
    Stretch s (upToAck s.cfg w setup go s1 s2 bs l)
      (transferOver (pollOver (BitVec.ofNat 9 (bs.length + 1)) l (atGuard w aux s))) := by
  have htransfer := stretch_transfer (hr.atGuard (aux := aux)) rfl rfl ho hgo hb hf hends
  simpa only [upToAck, List.append_assoc, atGuard_cfg] using hsetup.trans htransfer

/-- RDREG's data read and delivery (R133). -/
theorem stretch_dataRead (hmap : s.mapped = true) (ho : s.op = 1#2) (d : Byte) :
    Stretch (transferOver s)
      [.read s.cfg.offData0 d, .deliver (resultWord (classify s.cfg s.timedout s.stsCap) d)]
      ((finish (classify s.cfg s.timedout s.stsCap) d s).goto .sIdle) := by
  rw [transferOver_read ho]
  have hdata : RunsIn .sDataRd ({ s with outcome := (classify s.cfg s.timedout s.stsCap).code }.goto .sDataRd) :=
    ⟨outcome_code_listed _, rfl, hmap⟩
  have read : Stretch ({ s with outcome := (classify s.cfg s.timedout s.stsCap).code }.goto .sDataRd)
      [.read s.cfg.offData0 d] (finish (classify s.cfg s.timedout s.stsCap) d s) :=
    stretch_read hdata rfl fun _ _ => rfl
  exact .cons read (stretch_finished hmap _ d)

theorem stretch_rdreg (hr : readyFor (rdregWord t r v) s) (hb : busyFlag s.cfg s1 = false)
    (hf : stickyFlag s.cfg s2 = false) (hends : pollEnds s.cfg bs l) :
    Stretch s
      (upToAck s.cfg (rdregWord t r v) (readSetup s.cfg t r a1 a2) (cntReadGo s.cfg) s1 s2 bs l
        ++ [PortEvent.read s.cfg.offData0 d, PortEvent.deliver (resultWord (pollOutcome s.cfg l) d)])
      (endedAfterPoll (rdregWord t r v) a2 l d (bs.length + 1) s) := by
  have hop : cmdOp (rdregWord t r v) = 1#2 := (rdregWord_fields t r v).1
  have htransfer := stretch_upToAck hr (stretch_rdreg_toGuard hr a1 a2) (.inl hop) (if_pos hop) hb hf hends
  exact htransfer.trans (stretch_dataRead (by exact hr.runsIn.mapped) (by exact hop) d)

theorem stretch_wrreg (hr : readyFor (wrregWord t r v) s) (hw : inReservedWindow s.cfg t = false)
    (hb : busyFlag s.cfg s1 = false) (hf : stickyFlag s.cfg s2 = false) (hends : pollEnds s.cfg bs l) :
    Stretch s
      (upToAck s.cfg (wrregWord t r v) (writeSetup s.cfg t r v a) (cntWriteGo s.cfg) s1 s2 bs l
        ++ [PortEvent.deliver (resultWord (pollOutcome s.cfg l) 0x00#8)])
      (endedAfterPoll (wrregWord t r v) a l 0x00#8 (bs.length + 1) s) := by
  have hop : cmdOp (wrregWord t r v) = 2#2 := (wrregWord_fields t r v).1
  have hne : cmdOp (wrregWord t r v) ≠ 1#2 := by simp [hop]
  have hgo : controlGo s.cfg (cmdOp (wrregWord t r v)) = some (cntWriteGo s.cfg) := by simp [controlGo, hop]
  have htransfer := stretch_upToAck hr (stretch_wrreg_toGuard hr hw a) (.inr hop) hgo hb hf hends
  rw [transferOver_write (by exact hne)] at htransfer
  exact htransfer.trans (stretch_finished (by exact hr.runsIn.mapped) _ _)

/-- Settles O54: the set-up, the guard, the start trigger, the poll loop round by round with its acknowledge, and the data
read, put together in this order. -/
theorem rdregRunsItsSequence : Obligations.RdregRunsItsSequence := by
  intro s t r v a1 a2 s1 s2 bs l d hr hb hf hends c o
  exact (stretch_rdreg hr hb hf hends).performs

/-- Settles O56: as O54, with the set-up of a WRREG and no data read. -/
theorem wrregRunsItsSequence : Obligations.WrregRunsItsSequence := by
  intro s t r v a s1 s2 bs l hr hw hb hf hends c o
  exact (stretch_wrreg hr hw hb hf hends).performs

end Sys2Proof.Machine
end

section
/-! What the acknowledge leaves for the next command (spec/60_exceptions.md rule R176): followed bit by bit through the
controller's status register. -/

namespace Sys2Proof.Machine

variable {c : Config} {reg : Nat → Byte} {before mid after rest : List PortEvent} {b s2 go l : Byte} {bs : List Byte}
  {i j k : Nat}

/-! ## Bits of bytes -/

/-- A byte clear under a mask has no bit of the mask. -/
theorem bit_of_and_eq_zero {x m : Byte} (h : x &&& m = 0#8) (hi : i < 8) (hm : m[i] = true) : x[i] = false := by
  simpa [hm] using congrArg (·[i]) h

/-- A bit of a mask that `y` lacks and `x` has is one that has risen. -/
theorem bit_of_none_raised {x m y : Byte} (h : x &&& m &&& ~~~y = 0#8) (hi : i < 8) (hm : m[i] = true)
    (hx : x[i] = true) : y[i] = true := by
  simpa [hm, hx] using congrArg (·[i]) h

/-- The sticky flags are byte-done and the four acknowledge flags (R6). -/
theorem stsStickyMask_eq (c : Config) : stsStickyMask c = c.stsByteDone ||| stsAckMask c := by
  unfold stsStickyMask stsAckMask stsErrMask
  ac_rfl

/-- No sticky flag shows where every bit that is set is outside the mask. -/
theorem stickyFlag_false_of_bits {b : Byte}
    (h : ∀ i (hi : i < 8), b[i] = true → c.stsByteDone[i] = false ∧ (stsAckMask c)[i] = false) :
    stickyFlag c b = false := by
  rw [stickyFlag_eq_false, stsStickyMask_eq]
  ext i hi
  cases hb : b[i] with
  | false => simp [hb]
  | true => obtain ⟨h1, h2⟩ := h i hi hb; simp [h1, h2]

theorem ackFlag_of_bit {b : Byte} (hi : i < 8) (hm : (stsAckMask c)[i] = true) (hb : b[i] = true) :
    ackFlag c b = true := by
  by_contra hne
  have hz : b &&& stsAckMask c = 0#8 := by simpa [ackFlag, isSet] using hne
  rw [bit_of_and_eq_zero hz hi hm] at hb
  cases hb

/-! ## The status register along the events -/

/-- A bit that is never raised from `lo` on was set at every earlier event from there. -/
theorem bit_earlier {mask : Byte} {lo len : Nat}
    (h : ∀ k, lo ≤ k → k < len → reg (k + 1) &&& mask &&& ~~~reg k = 0#8) (hi : i < 8) (hm : mask[i] = true)
    (hlo : lo ≤ k) (hkj : k ≤ j) (hj : j ≤ len) (hbit : (reg j)[i] = true) : (reg k)[i] = true := by
  induction j, hkj using Nat.le_induction with
  | base => exact hbit
  | succ j hkj ih => exact ih (by omega) (bit_of_none_raised (h j (by omega) (by omega)) hi hm hbit)

theorem statusShown.at_length (h : statusShown c reg (before ++ .read c.offSts b :: after)) : b = reg before.length :=
  h _ b (by simp)

theorem clearsWhenWritten.at_length {v : Byte} (h : clearsWhenWritten c reg (before ++ .write c.offSts v :: after)) :
    reg (before.length + 1) &&& v &&& stsStickyMask c = 0#8 := h _ v (by simp)

/-- `transferEvents` up to its last status read. -/
def beforeLastRead (c : Config) (s2 go : Byte) (bs : List Byte) : List PortEvent :=
  [.read c.offSts s2, .write c.offCnt go] ++ pollEvents c bs ++ [.delay c.pollIntervalUs]

theorem transferEvents_eq (c : Config) (s2 go : Byte) (bs : List Byte) (l : Byte) :
    transferEvents c s2 go bs l = beforeLastRead c s2 go bs ++ [.read c.offSts l] := by
  simp [transferEvents, beforeLastRead, pollEvents]

/-- The byte that the last status read of the transfer captures. -/
theorem statusShown.lastRead (h : statusShown c reg (transferEvents c s2 go bs l ++ rest)) :
    l = reg ((transferEvents c s2 go bs l).length - 1) := by
  rw [transferEvents_eq, List.append_assoc] at h
  simpa [transferEvents_eq] using h.at_length

section Leftover
variable
  (h : CleanController c ((transferEvents c s2 go bs l).length - 1) reg
    (transferEvents c s2 go bs l ++ (ackEvents c l ++ rest)))
  (hlen : j ≤ (transferEvents c s2 go bs l ++ (ackEvents c l ++ rest)).length)
  (hi : i < 8) (hbit : (reg j)[i] = true)
include h hlen hbit

/-- Byte-done was clear when the guard passed, and is not set from there on. -/
theorem byteDone_stays_clear (hs2 : stickyFlag c s2 = false) : c.stsByteDone[i] = false := by
  by_contra hm
  rw [Bool.not_eq_false] at hm
  have hfirst : s2 = reg 0 := h.shown.at_length (before := [])
  have hset : s2[i] = true := hfirst ▸ bit_earlier (fun k _ => h.byteDone k) hi hm le_rfl (Nat.zero_le j) hlen hbit
  have hclear : s2[i] = false := bit_of_and_eq_zero (stickyFlag_eq_false.mp hs2) hi (by simp [stsStickyMask_eq, hm])
  rw [hclear] at hset
  cases hset

/-- An acknowledge flag that shows after the acknowledge showed in the last status byte already, so that it was among those
the acknowledge cleared. -/
theorem ackFlags_stay_clear (hj : (transferEvents c s2 go bs l).length + (ackEvents c l).length ≤ j) :
    (stsAckMask c)[i] = false := by
  by_contra hm
  rw [Bool.not_eq_false] at hm
  have hsticky : (stsStickyMask c)[i] = true := by simp [stsStickyMask_eq, hm]
  have hl : l[i] = true := by
    rw [h.shown.lastRead]
    exact bit_earlier h.raisesNone hi hsticky le_rfl (by omega) hlen hbit
  have hack : ackEvents c l = [.write c.offSts (l &&& stsAckMask c)] := if_pos (ackFlag_of_bit hi hm hl)
  have hclears := h.clears
  rw [hack] at hclears hj
  have hstill : (reg ((transferEvents c s2 go bs l).length + 1))[i] = true :=
    bit_earlier h.raisesNone hi hsticky (by omega) hj hlen hbit
  simpa [hstill, hl, hm, hsticky] using congrArg (·[i]) hclears.at_length

end Leftover

/-- Under the premises of R176 a status read made after the acknowledge finds no sticky flag. -/
theorem noSticky_read {evs : List PortEvent} (hs2 : stickyFlag c s2 = false)
    (h : CleanController c ((transferEvents c s2 go bs l).length - 1) reg evs)
    (hevs : evs = transferEvents c s2 go bs l ++ (ackEvents c l ++ (mid ++ PortEvent.read c.offSts b :: after))) :
    stickyFlag c b = false := by
  subst hevs
  have hb : b = reg (transferEvents c s2 go bs l ++ (ackEvents c l ++ mid)).length := by
    refine statusShown.at_length (c := c) (after := after) ?_
    simpa only [List.append_assoc] using h.shown
  rw [hb]
  exact stickyFlag_false_of_bits fun i hi hbit =>
    ⟨byteDone_stays_clear h (by simp) hi hbit hs2, ackFlags_stay_clear h (by simp) hi hbit (by simp)⟩

end Sys2Proof.Machine
end

section
/-! The command after a transfer (spec/60_exceptions.md rule R176). -/

namespace Sys2Proof.Machine

variable {s : State} {w chk : BitVec 32} {ws : List (BitVec 32)} {setup data : List PortEvent}
  {t : Target} {r v aux go d s1 s2 l f1 f2 : Byte} {bs : List Byte} {n : Nat}

/-- Both commands that start a transfer run to their end. -/
theorem stretch_startsTransfer (hr : readyFor w s) (hst : StartsTransfer s.cfg w setup go data d)
    (hb : busyFlag s.cfg s1 = false) (hf : stickyFlag s.cfg s2 = false) (hends : pollEnds s.cfg bs l) :
    ∃ aux, Stretch s
      (upToAck s.cfg w setup go s1 s2 bs l ++ (data ++ [PortEvent.deliver (resultWord (pollOutcome s.cfg l) d)]))
      (endedAfterPoll w aux l d (bs.length + 1) s) := by
  cases hst with
  | read t r v a1 a2 d => exact ⟨a2, stretch_rdreg hr hb hf hends⟩
  | write t r v a hw => exact ⟨a, stretch_wrreg hr hw hb hf hends⟩

/-- The block is then ready for the word behind. -/
theorem readyFor_endedAfterPoll (hr : readyFor w s) (hcmds : s.cmds = w :: chk :: ws) :
    readyFor chk (endedAfterPoll w aux l d n s) := by
  obtain ⟨-, hmap, hcfg, -, -⟩ := hr
  exact ⟨rfl, hmap, hcfg, outcome_code_listed _, by simp [endedAfterPoll, afterCommand, hcmds]⟩

/-- A CHKIDLE that sees no sticky flag writes nothing. -/
theorem stretch_cleanCheck (hr : readyFor (chkidleWord t r v) s) (hf1 : stickyFlag s.cfg f1 = false)
    (hf2 : busyFlag s.cfg f1 = false → stickyFlag s.cfg f2 = false) :
    ∃ u, Stretch s
      (cleanCheckEvents s.cfg (chkidleWord t r v) f1 f2
        ++ [PortEvent.deliver (resultWord (if busyFlag s.cfg f1 then TxnOutcome.busy else TxnOutcome.success) 0x00#8)])
      u := by
  have haccept := stretch_chkidle_toGuard hr
  cases hb : busyFlag s.cfg f1 with
  | true =>
    have h := haccept.trans (stretch_endsBusy hr hb)
    exact ⟨_, by simpa [cleanCheckEvents, hb] using h⟩
  | false =>
    have h := haccept.trans (stretch_endsSuccess hr (chkidleWord_fields t r v).1 hb (hf2 hb))
    exact ⟨_, by simpa [cleanCheckEvents, guardEvents, guardClear, hb, hf1] using h⟩

/-- Settles O60: the two commands run one after the other, and both status bytes of the CHKIDLE are read after the
acknowledge. -/
theorem nextCheckFindsNoLeftoverFlag : Obligations.NextCheckFindsNoLeftoverFlag := by
  intro s w ws setup data go d s1 s2 bs l t r v f1 f2 reg c chk o transfer rest hr hcmds hst hb hs2 hends hclean
  have hf1 : stickyFlag c f1 = false :=
    noSticky_read hs2 hclean (mid := data ++ [PortEvent.deliver (resultWord o d), PortEvent.accept chk])
      (after := if busyFlag c f1 then [] else [.read c.offSts f2]) (by simp [transfer, rest, cleanCheckEvents])
  have hf2 : busyFlag c f1 = false → stickyFlag c f2 = false := fun hfree =>
    noSticky_read hs2 hclean
      (mid := data ++ [PortEvent.deliver (resultWord o d), PortEvent.accept chk, PortEvent.read c.offSts f1])
      (after := []) (by simp [transfer, rest, cleanCheckEvents, hfree])
  obtain ⟨aux, hfirst⟩ := stretch_startsTransfer hr hst hb hs2 hends
  obtain ⟨u, hcheck⟩ := stretch_cleanCheck (readyFor_endedAfterPoll (aux := aux) hr hcmds) hf1 hf2
  refine ⟨hf1, u, ?_⟩
  have hboth := (hfirst.trans hcheck).performs
  simp only [List.append_assoc, upToAck, guardEvents] at hboth
  simp only [List.append_assoc, rest, transfer, transferEvents]
  exact hboth

end Sys2Proof.Machine
end

section
/-! One round of the poll loop, its timeout and its acknowledge, state by state (spec/42_poll_classify_ack.md rules R111 to
R121). -/

namespace Sys2Proof.Machine

variable {s t : State} {m : MicroState} {b : Byte} {rest : List EnvEvent}

/-! ## The tests of a status byte (R112, R116) -/

theorem ackFlag_eq_true {c : Config} : ackFlag c b = true ↔ b &&& stsAckMask c ≠ 0#8 := by simp [ackFlag, isSet]

theorem pollCompleted_eq_true {c : Config} :
    pollCompleted c b = true ↔ b &&& c.stsBusy = 0#8 ∧ b &&& stsAckMask c ≠ 0#8 := by
  simp [pollCompleted, isClear, ackFlag_eq_true]

/-- CLASSIFY, as the code of the outcome. -/
theorem classify_code (c : Config) (timedout : Bool) (b : Byte) :
    (classify c timedout b).code = if timedout then 2#3 else if b &&& c.stsDevErr ≠ 0#8 then 3#3 else 0#3 := by
  cases timedout with
  | true => rfl
  | false => by_cases hd : b &&& c.stsDevErr = 0#8 <;> simp [classify, devErrFlag, isSet, hd, TxnOutcome.code]

/-- Settles O15: the loop is over with its acknowledge next, and the outcome is the one CLASSIFY gives a command that has
not timed out. -/
theorem pollReadCompletes : Obligations.PollReadCompletes := by
  intro s b rest hmap ho hin hseq hto hbusy hack
  have hc : pollCompleted s.cfg b = true := pollCompleted_eq_true.mpr ⟨hbusy, hack⟩
  rw [exec_regrd_answered (micro_of_seq ho hseq) rfl hmap hin, afterRead_sPStsRd_toAck]
  · simp [State.goto, decided, pollOver, classify_code, hc, hto]
  · exact ⟨hto, .inl hc⟩
  · exact ackFlag_eq_true.mpr hack

/-! ## The loop times out (R113, R119) -/

theorem afterRead_sPStsRd_timesOut (hc : pollCompleted s.cfg b = false) (hn : s.pollcnt + 1#9 = s.cfg.pollMax) :
    afterRead .sPStsRd b s = .next (pollTimedOut (polled b s)) := by
  simp [afterRead, afterPollRead, polled, hc, hn]

theorem pollTimedOut_acks (ha : ackFlag s.cfg s.stsCap = true) :
    pollTimedOut s = (decided { s with timedout := true }).goto .sAckWr := by
  simp [pollTimedOut, ha, decideRead_eq_decided]

theorem pollTimedOut_reads (ha : ackFlag s.cfg s.stsCap = false) (ho : s.op = 1#2) :
    pollTimedOut s = (decided { s with timedout := true }).goto .sDataRd := by
  simp [pollTimedOut, ha, ho, decideRead_eq_decided]

theorem pollTimedOut_ends (ha : ackFlag s.cfg s.stsCap = false) (ho : s.op ≠ 1#2) :
    pollTimedOut s = finish .timeout 0x00#8 { s with timedout := true } := by
  simp [pollTimedOut, ha, ho, decideRead_of_op_ne]

/-- Settles O16: the budget is tested first, the acknowledge flags next, `OP` last. -/
theorem pollReadGoesOnOrTimesOut : Obligations.PollReadGoesOnOrTimesOut := by
  intro s b rest hmap ho hin hseq ackSet hopen s1
  have hc : pollCompleted s.cfg b = false := Bool.eq_false_iff.mpr (mt pollCompleted_eq_true.mp hopen)
  rw [exec_regrd_answered (micro_of_seq ho hseq) rfl hmap hin]
  split
  · exact afterRead_sPStsRd_goesOn hc ‹_›
  · rename_i hn
    refine (afterRead_sPStsRd_timesOut (by exact hc) (by exact not_not.mp hn)).trans (congrArg _ ?_)
    extract_lets s2
    split
    · rename_i ha
      exact pollTimedOut_acks (by exact ackFlag_eq_true.mpr ha)
    · rename_i ha
      have ha' : ackFlag s.cfg b = false := Bool.eq_false_iff.mpr (mt ackFlag_eq_true.mp ha)
      split
      · exact pollTimedOut_reads (by exact ha') (by exact ‹s.op = 1#2›)
      · exact pollTimedOut_ends (by exact ha') (by exact ‹s.op ≠ 1#2›)

/-! ## The budget of a command that times out (R113, R114) -/

/-- Only the status read that uses the budget up sets `TIMEDOUT`. -/
theorem readRow_timedout (hr : ReadRow b s .sPStsRd t) (hto : s.timedout = false) (ht : t.timedout = true) :
    t.pollcnt = s.pollcnt + 1#9 ∧ s.pollcnt + 1#9 = s.cfg.pollMax := by
  cases hr with
  | aux hmem => simp [auxReadRows] at hmem
  | pollCompletes | pollGoesOn => simp [hto] at ht
  | timesOut _ hn | timesOutToData _ hn | timesOutEnds _ hn => exact ⟨by simp, hn⟩

theorem blockMove_timedout (h : Inv s .sPStsRd) (hp : PollCounted s) (hmv : BlockMove s t) (ht : t.timedout = true) :
    delaysIn t.cfg (sinceStart t.cfg t.trace) = t.cfg.pollMax.toNat
      ∧ statusReadsIn t.cfg (sinceStart t.cfg t.trace) = t.cfg.pollMax.toNat := by
  obtain ⟨-, hto⟩ := h.poll
  cases hmv with
  | waits => simp [hto] at ht
  | accepts _ _ hm => cases h.micro_unique hm
  | reads m off b _ t hm hi _ _ ha =>
    obtain rfl := h.micro_unique hm
    cases hi
    have hf := afterRead_frame ha
    obtain ⟨hcnt, hmax⟩ := readRow_timedout (afterRead_row ha) hto ht
    have htmax : t.pollcnt = t.cfg.pollMax := by rw [hcnt, hmax, hf.cfg]
    rw [← htmax]
    exact pollBalanced_of_read h (hp _ h.seqListed) hf.cfg hf.trace hcnt
  | writes _ _ _ _ _ hm hi | delays _ _ _ _ hm hi =>
    obtain rfl := h.micro_unique hm
    cases hi
  | delivers _ hm => cases h.micro_unique hm

/-- Settles O43: the status read that sets `TIMEDOUT` takes `POLLCNT` to the budget, and `POLLCNT` counts the delays and the
reads. -/
theorem timeoutTakesExactlyTheBudget : Obligations.TimeoutTakesExactlyTheBudget := by
  rintro s t ⟨m, h⟩ hp hstep hcalm hseq ht
  obtain rfl : m = .sPStsRd := code_inj.mp (h.seqListed.symm.trans hseq)
  obtain ⟨_, hin, -⟩ | ⟨b, _, hin, -⟩ | ⟨w, _, -, hmv⟩ | ⟨-, hmv⟩ := step_next hstep
  · exact absurd rfl (hcalm _ (by rw [hin]; rfl)).1
  · exact absurd rfl ((hcalm _ (by rw [hin]; rfl)).2 b)
  · exact blockMove_timedout (h.present w) (pollCounted_congr rfl rfl rfl rfl hp) hmv ht
  · exact blockMove_timedout h hp hmv ht

/-! ## The acknowledge (R118, R121) -/

theorem afterAck_reads (ho : s.op = 1#2) : afterAck s = .next (s.goto .sDataRd) := if_pos ho

theorem afterAck_ends (ho : s.op = 2#2) :
    afterAck s = .next (finish (classify s.cfg s.timedout s.stsCap) 0x00#8 s) := by
  simp [afterAck, ho]

theorem afterAck_refused (h1 : s.op ≠ 1#2) (h2 : s.op ≠ 2#2) : afterAck s = .refused .noRowForOp := by
  simp [afterAck, h1, h2]

/-- A completed write is the row of its micro-state. -/
theorem exec_regwr_written {off : Offset} {v : Byte} (hm : s.micro = some m) (hi : microOp m s = some (.regwr off v))
    (hmap : s.mapped = true) (hin : s.inputs = .written :: rest) :
    exec (.regwr off v) s = afterWrite m
      { s with inputs := rest, trace := .write off v :: s.trace, surface := s.surface.write off.toNat v } := by
  refine (execRegwr_written hm hi hmap hin).trans ?_
  simp only [State.writeDone, State.useInput, State.record, hin, List.tail_cons]

/-- Settles O20: the one write of the acknowledge, then the row of each `OP`. -/
theorem regwrAcknowledges : Obligations.RegwrAcknowledges := by
  intro s rest hmap ho hin hseq v s1
  have hrow : exec (.regwr s.cfg.offSts v) s = afterAck s1 :=
    exec_regwr_written (micro_of_seq ho hseq) rfl hmap hin
  rw [hrow]
  refine ⟨fun hop => afterAck_reads hop, fun hop => ?_, fun h1 h2 => afterAck_refused h1 h2⟩
  rw [afterAck_ends (by exact hop), finish, classify_code]
  rfl

end Sys2Proof.Machine
end

section
/-! What RDREG and WRREG leave in the controller's address, command and data registers, kept to the end of the transfer
(spec/43_read_register.md rules R127, R128, spec/44_write_register.md rules R137, R138). -/

namespace Sys2Proof.Machine

variable {s t : State} {m : MicroState} {off : Offset} {v : Byte}

/-! ## The registers that hold the request -/

/-- The offsets of the registers that a command programs with its request. -/
def requestOffsets (c : Config) : List Offset := [c.offAddr, c.offCmd, c.offData0]

/-- R7 (a), for the registers of the request. -/
theorem requestOffsets_distinct {c : Config} (h : configOk c = true) :
    c.offAddr ≠ c.offCmd ∧ c.offAddr ≠ c.offData0 ∧ c.offCmd ≠ c.offData0 := by
  have hd := configOk_offsets h
  grind [configOffsets]

/-- R7 (a): the status, control and auxiliary-control registers are none of them. -/
theorem not_mem_requestOffsets {c : Config} (h : configOk c = true) :
    c.offSts ∉ requestOffsets c ∧ c.offCnt ∉ requestOffsets c ∧ c.offAuxctl ∉ requestOffsets c := by
  have hd := configOk_offsets h
  grind [configOffsets, requestOffsets]

@[simp] theorem surfaceAt_writeDone_same : surfaceAt (s.writeDone off v) off = some v := Memory.read_write_same _ _ _

theorem surfaceAt_writeDone_other {off' : Offset} (h : off' ≠ off) :
    surfaceAt (s.writeDone off v) off' = surfaceAt s off' :=
  Memory.read_write_other _ _ (mt BitVec.eq_of_toNat_eq h)

/-! ## What leaves the request programmed -/

/-- Only the current micro-state is asked. -/
theorem programmed_of_seq (hseq : s.seq = m.code) (h : programmedAt m s) : Programmed s := by
  intro m' hm'
  obtain rfl : m = m' := code_inj.mp (hseq.symm.trans hm')
  exact h

/-- A row of the transition table changes neither the request nor the record of writes. -/
theorem programmedAt_frame (hf : SameFrame s t) (h : programmedAt m s) : programmedAt m t := by
  unfold programmedAt programmedFor surfaceAt at h ⊢
  simpa only [hf.op, hf.tgt, hf.reg, hf.val, hf.cfg, hf.surface] using h

/-- Nor does a write to a register that does not hold the request. -/
theorem programmedAt_writeDone (hoff : off ∉ requestOffsets s.cfg) (h : programmedAt m s) :
    programmedAt m (s.writeDone off v) := by
  simp only [requestOffsets, List.mem_cons, List.not_mem_nil, or_false, not_or] at hoff
  obtain ⟨haddr, hcmd, hdata⟩ := hoff
  unfold programmedAt programmedFor at h ⊢
  simpa [surfaceAt_writeDone_other (Ne.symm haddr), surfaceAt_writeDone_other (Ne.symm hcmd),
    surfaceAt_writeDone_other (Ne.symm hdata)] using h

/-- A read sequence that is set up has programmed its command, whose `OP` is RDREG's. -/
theorem programmedFor_of_read (hop : s.op = 1#2) (h : programmedAt .sRAux2Wr s) : programmedFor s :=
  ⟨fun _ => h, fun ho => absurd (hop.symm.trans ho) (by decide)⟩

/-- So has a write sequence, whose `OP` is WRREG's. -/
theorem programmedFor_of_write (hop : s.op = 2#2) (h : programmedAt .sWAuxWr s) : programmedFor s :=
  ⟨fun ho => absurd (hop.symm.trans ho) (by decide), fun _ => h⟩

/-- A CHKIDLE asks for nothing to be programmed. -/
theorem programmedFor_of_check (hop : s.op = 3#2) : programmedFor s :=
  ⟨fun ho => absurd (hop.symm.trans ho) (by decide), fun ho => absurd (hop.symm.trans ho) (by decide)⟩

/-! ## Every row keeps the request programmed (R149) -/

/-- Where a read leads no more is asked than where it is made. -/
theorem programmedAt_readSuccessor {m' : MicroState} (hm : m' ∈ readSuccessors m) (h : programmedAt m s) :
    programmedAt m' s := by
  cases m <;> simp only [readSuccessors, List.mem_cons, List.not_mem_nil, or_false] at hm
  case sRAux1Rd | sDataRd => subst hm; trivial
  case sRAux2Rd | sWAuxRd => subst hm; exact h
  case sGStsRd1 => obtain rfl | rfl | rfl := hm; exacts [trivial, h, h]
  case sGStsRd2 => obtain rfl | rfl := hm; exacts [trivial, h]
  case sPStsRd => obtain rfl | rfl | rfl | rfl := hm; exacts [h, h, h, trivial]

theorem programmed_read {b : Byte} (h : programmedAt m s) (ha : afterRead m b (s.readDone off b) = .next t) :
    Programmed t := by
  obtain ⟨m', hm', hseq⟩ := afterRead_seq ha
  exact programmed_of_seq hseq (programmedAt_frame (afterRead_frame ha) (programmedAt_readSuccessor hm' h))

/-- A write to a register of the request adds that register; every other write leaves the request as it is. -/
theorem programmedAt_writeSuccessor {m' : MicroState} (h : Inv s m) (hi : microOp m s = some (.regwr off v))
    (hm : m' ∈ writeSuccessors m) (hp : programmedAt m s) : programmedAt m' (s.writeDone off v) := by
  have hc : configOk s.cfg = true := (h.underway (microOp_some hi).1).2
  obtain ⟨hsts, hcnt, haux⟩ := not_mem_requestOffsets hc
  obtain ⟨haddrCmd, haddrData, hcmdData⟩ := requestOffsets_distinct hc
  have hop : opServed m s.op := h.op
  cases m <;> simp only [writeSuccessors, List.mem_cons, List.not_mem_nil, or_false] at hm
  case sRAux1Wr => subst hm; trivial
  case sRAddrWr | sWAddrWr =>
    subst hm; cases hi
    exact surfaceAt_writeDone_same
  case sRCmdWr | sWCmdWr =>
    subst hm; cases hi
    exact ⟨(surfaceAt_writeDone_other haddrCmd).trans hp, surfaceAt_writeDone_same⟩
  case sWDataWr =>
    subst hm; cases hi
    obtain ⟨haddr, hcmd⟩ := hp
    exact ⟨(surfaceAt_writeDone_other haddrData).trans haddr, (surfaceAt_writeDone_other hcmdData).trans hcmd,
      surfaceAt_writeDone_same⟩
  case sRAux2Wr =>
    subst hm; cases hi
    exact programmedFor_of_read hop (programmedAt_writeDone (m := .sRAux2Wr) haux hp)
  case sWAuxWr =>
    subst hm; cases hi
    exact programmedFor_of_write hop (programmedAt_writeDone (m := .sWAuxWr) haux hp)
  case sGStsClr =>
    subst hm; cases hi
    exact programmedAt_writeDone (m := .sGStsClr) hsts hp
  case sStartWr =>
    subst hm; obtain rfl := microOp_sStartWr hi
    exact programmedAt_writeDone (m := .sStartWr) hcnt hp
  case sAckWr =>
    cases hi
    obtain rfl | rfl := hm
    · exact programmedAt_writeDone (m := .sAckWr) hsts hp
    · trivial

theorem programmed_write (h : Inv s m) (hp : programmedAt m s) (hi : microOp m s = some (.regwr off v))
    (ha : afterWrite m (s.writeDone off v) = .next t) : Programmed t := by
  obtain ⟨m', hm', hseq⟩ := afterWrite_seq ha
  exact programmed_of_seq hseq (programmedAt_frame (afterWrite_frame ha) (programmedAt_writeSuccessor h hi hm' hp))

theorem programmed_dispatchRow {w : BitVec 32} (hr : DispatchRow w s t) (ho : s.op = cmdOp w) : Programmed t := by
  cases hr with
  | illegal | denied => exact programmed_of_seq (m := .sResult) rfl trivial
  | reads => exact programmed_of_seq (m := .sRAux1Rd) rfl trivial
  | writes => exact programmed_of_seq (m := .sWAddrWr) rfl trivial
  | checks hchk => exact programmed_of_seq (m := .sGStsRd1) rfl (programmedFor_of_check (ho.trans hchk))

theorem programmed_blockMove (h : Inv s m) (hp : Programmed s) (hmv : BlockMove s t) : Programmed t := by
  have hat := hp m h.seqListed
  cases hmv with
  | waits => exact hp
  | accepts w => exact programmed_dispatchRow (dispatchOf_row w _) rfl
  | reads m' off b rest t hm hi hmap hin ha =>
    obtain rfl := h.micro_unique hm
    exact programmed_read hat ha
  | writes m' off v rest t hm hi hmap hin ha =>
    obtain rfl := h.micro_unique hm
    exact programmed_write h hat hi ha
  | delays m' us rest t hm hi hmap hin ha =>
    obtain rfl := h.micro_unique hm
    obtain ⟨rfl, rfl⟩ := afterDelay_next ha
    exact programmed_of_seq (m := .sPStsRd) rfl hat
  | delivers => exact programmed_of_seq (m := .sIdle) rfl trivial

/-- Settles O41: by what a step can do. Each write of the request is to a register of its own and no other write is to one
of them, and the latches it came from do not change until the command has ended. -/
theorem stepKeepsProgrammed : Obligations.StepKeepsProgrammed := by
  rintro s t ⟨m, h⟩ hp hstep
  obtain ⟨rest, -, rfl⟩ | ⟨b, rest, -, -, rfl⟩ | ⟨w, rest, -, hmv⟩ | ⟨-, hmv⟩ := step_next hstep
  · exact programmed_of_seq (m := .sIdle) rfl trivial
  · exact hp
  · exact programmed_blockMove (h.present w) hp hmv
  · exact programmed_blockMove h hp hmv

/-! ## The two ends of RDREG (R125, R133) -/

/-- Settles O7: a ready block accepts the word, latches its fields and goes to the read sequence. -/
theorem rdregIsAccepted : Obligations.RdregIsAccepted := by
  intro s t r v hseq hmap hcfg ho
  rw [exec_rdreg, acceptWord_ready hseq hmap hcfg ho]
  obtain ⟨hop, htgt, hreg, hval⟩ := rdregWord_fields t r v
  simp only [latch, hop, htgt, hreg, hval]
  rfl

/-- The row of the data read: the byte read and the outcome decided before make the result (R149). -/
theorem afterRead_sDataRd (b : Byte) (s : State) : afterRead .sDataRd b s = .next (finishCode s.outcome b s) := rfl

/-- Settles O17: `S_DATA_RD` issues the read of the data register, and its row ends the command. -/
theorem dataReadFinishesWithTheByteRead : Obligations.DataReadFinishesWithTheByteRead := by
  intro s b rest hmap ho hin hseq
  rw [exec_regrd_answered (micro_of_seq ho hseq) rfl hmap hin, afterRead_sDataRd, finishCode]

end Sys2Proof.Machine
end

section
/-! WRREG and the reserved window (spec/44_write_register.md rules R135 to R141): the accept step denies a target of the
window, so no start trigger is made with one. -/

namespace Sys2Proof.Machine

variable {s t : State} {m : MicroState} {off : Offset} {v : Byte}

/-! ## The start trigger of a WRREG (R141) -/

/-- A move whose event is a write is the completed write that the micro-state issues. -/
theorem blockMove_write (h : BlockMove s t) (htr : t.trace = .write off v :: s.trace) :
    ∃ m, s.micro = some m ∧ microOp m s = some (.regwr off v) ∧ afterWrite m (s.writeDone off v) = .next t := by
  cases h with
  | waits => simp at htr
  | accepts w => rw [(dispatchOf_frame w).trace] at htr; cases htr
  | reads _ _ _ _ _ _ _ _ _ ha => rw [(afterRead_frame ha).trace] at htr; cases htr
  | writes m _ _ _ _ hm hi _ _ ha =>
    rw [(afterWrite_frame ha).trace] at htr
    cases htr
    exact ⟨m, hm, hi, ha⟩
  | delays _ _ _ _ _ _ _ _ ha =>
    obtain ⟨-, rfl⟩ := afterDelay_next ha
    cases htr
  | delivers => cases htr

/-- At the start trigger of a WRREG the target-address register holds the latched target, which is outside the window: the
dispatch denied every other one, and the trigger writes another register. -/
theorem blockMove_startsWrite (h : Inv s m) (hp : Programmed s) (hop : s.op = 2#2) (hmv : BlockMove s t)
    (htr : t.trace = .write s.cfg.offCnt v :: s.trace) :
    surfaceAt t s.cfg.offAddr = some (s.tgt.setWidth 8 <<< 1)
      ∧ ¬(s.cfg.reservedBase.toNat ≤ s.tgt.toNat ∧ s.tgt.toNat ≤ s.cfg.reservedBase.toNat + 7) := by
  obtain ⟨m', hm, hi, ha⟩ := blockMove_write hmv htr
  obtain rfl := h.micro_unique hm
  have hcfg : configOk s.cfg = true := (h.underway (microOp_some hi).1).2
  obtain rfl := microOp_write_offCnt hcfg hi
  obtain ⟨-, -, haddr, -, -⟩ := offCnt_distinct hcfg
  have hfor : programmedFor s := hp .sStartWr h.seqListed
  have hout : inReservedWindow s.cfg s.tgt = false := h.target hop
  refine ⟨?_, by rwa [← configOk_window hcfg, Bool.not_eq_true]⟩
  calc surfaceAt t s.cfg.offAddr
    _ = surfaceAt (s.writeDone s.cfg.offCnt v) s.cfg.offAddr := by rw [surfaceAt, (afterWrite_frame ha).surface, surfaceAt]
    _ = surfaceAt s s.cfg.offAddr := surfaceAt_writeDone_other haddr
    _ = some (writeAddrByte s.tgt) := (hfor.2 hop).1
    _ = some (s.tgt.setWidth 8 <<< 1) := by rw [writeAddrByte_eq]

/-- Settles O44: the target is the latched one. A reset and a change of the pin make no event. -/
theorem noWriteIsStartedIntoTheWindow : Obligations.NoWriteIsStartedIntoTheWindow := by
  rintro s t v ⟨m, h⟩ hp hstep hop htr
  obtain ⟨rest, -, rfl⟩ | ⟨b, rest, -, -, rfl⟩ | ⟨w, rest, -, hmv⟩ | ⟨-, hmv⟩ := step_next hstep
  · simp [applyReset] at htr
  · simp at htr
  · exact ⟨s.tgt, blockMove_startsWrite (s := presentWord w s) (h.present w) hp hop hmv htr⟩
  · exact ⟨s.tgt, blockMove_startsWrite h hp hop hmv htr⟩

/-! ## The accept (R135, R147, R148) -/

/-- Settles O8: a ready block accepts the word and latches its fields; the dispatch is by the window test. -/
theorem wrregIsAcceptedOrDenied : Obligations.WrregIsAcceptedOrDenied := by
  intro s t r v hseq hmap hcfg ho s1
  obtain ⟨hop, htgt, hreg, hval⟩ := wrregWord_fields t r v
  have hlatch : latch (wrregWord t r v) s = s1 := by
    simp only [latch, hop, htgt, hreg, hval]
    rfl
  rw [exec_wrreg, acceptWord_ready hseq hmap hcfg ho, hlatch, ← configOk_window hcfg, Bool.not_eq_true]
  constructor
  · intro hin
    rw [dispatchWrite_denied hin]
    rfl
  · intro hout
    rw [dispatchWrite_allowed hout]
    rfl

end Sys2Proof.Machine
end

section
/-! The accept step as the sequencer takes it (spec/45_sequencer_fsm.md rules R145 to R148, R157): the source's state for
each micro-state, the dispatch by the tests of R148, the frame of the commands, and the step that runs one. -/

namespace Sys2Proof.Machine

variable {s t : State} {m : MicroState} {w : BitVec 32} {o : TxnOutcome}

/-! ## The source's state for each micro-state (R157) -/

/-- The micro-states of AddressValidated: a command on its way to the end of the guard. -/
def setupStates : List MicroState :=
  [.sRAux1Rd, .sRAux1Wr, .sRAddrWr, .sRCmdWr, .sRAux2Rd, .sRAux2Wr, .sWAddrWr, .sWCmdWr, .sWDataWr, .sWAuxRd, .sWAuxWr,
    .sGStsRd1, .sGStsClr, .sGStsRd2]

theorem macroState_sIdle (hm : s.micro = some .sIdle) : macroState s = some .idle := by
  simp [macroState, hm]

theorem macroState_setup (hm : s.micro = some m) (hset : m ∈ setupStates) : macroState s = some .addressValidated := by
  unfold macroState
  rw [hm]
  simp only [setupStates, List.mem_cons, List.not_mem_nil, or_false] at hset
  obtain rfl | rfl | rfl | rfl | rfl | rfl | rfl | rfl | rfl | rfl | rfl | rfl | rfl | rfl := hset <;> rfl

theorem macroState_sStartWr (hm : s.micro = some .sStartWr) : macroState s = some .busChecked := by
  simp [macroState, hm]

theorem macroState_sPDelay (hm : s.micro = some .sPDelay) :
    macroState s = some (if s.pollcnt = 0#9 then .transferStarted else .polling) := by
  simp [macroState, hm]

theorem macroState_sPStsRd (hm : s.micro = some .sPStsRd) : macroState s = some .polling := by
  simp [macroState, hm]

theorem macroState_pollOver (hm : s.micro = some m) (hover : m = .sAckWr ∨ m = .sDataRd) :
    macroState s = some (if s.timedout then .timedOut else .completed) := by
  obtain rfl | rfl := hover <;> simp [macroState, hm]

theorem macroState_sResult (hm : s.micro = some .sResult) : macroState s = (outcomeOfCode s.outcome).map macroOfResult := by
  simp [macroState, hm]

/-- A block that goes on with a listed outcome code is in the micro-state it goes to. -/
theorem micro_goto (ho : s.outcome ≠ 6#3) (m : MicroState) : (s.goto m).micro = some m := micro_of_seq ho rfl

theorem macroState_finished (hseq : t.seq = MicroState.sResult.code) (ho : t.outcome = o.code) :
    macroState t = some (macroOfResult o) := by
  rw [macroState_sResult (micro_of_seq (ho ▸ outcome_code_listed o) hseq), ho, outcomeOfCode_code]
  rfl

theorem macroState_finish (o : TxnOutcome) (d : Byte) (s : State) : macroState (finish o d s) = some (macroOfResult o) :=
  macroState_finished rfl rfl

/-! ## The dispatch by the fields of the word (R148) -/

/-- The tests of IllegalCommand: the opcode is none of the three, or the reserved bit is set (R64). -/
def illegalWord (w : BitVec 32) : Prop :=
  (cmdOpcode w ≠ 0x01#8 ∧ cmdOpcode w ≠ 0x02#8 ∧ cmdOpcode w ≠ 0x03#8) ∨ cmdZ w = 1#1

theorem cmdZ_eq_zero (h : ¬illegalWord w) : cmdZ w = 0#1 := by
  have hz : cmdZ w ≠ 1#1 := fun hz => h (.inr hz)
  bv_omega

theorem not_illegalWord_cmdWord {op : Byte} (hop : op = 0x01#8 ∨ op = 0x02#8 ∨ op = 0x03#8) (a : Target) (r v : Byte) :
    ¬illegalWord (cmdWord op a r v) := by
  rw [illegalWord, cmdOpcode_cmdWord, cmdZ_cmdWord]
  obtain rfl | rfl | rfl := hop <;> simp

theorem dispatchOf_illegal (h : illegalWord w) : dispatchOf w s = finish .illegalCommand 0x00#8 s := by
  obtain ⟨e, he⟩ | ⟨a, r, v, -, rfl⟩ | ⟨a, r, v, -, rfl⟩ | ⟨a, r, v, -, rfl⟩ := decodeCmd32_cases w
  · unfold dispatchOf
    rw [he]
  · exact absurd h (not_illegalWord_cmdWord (.inl rfl) a r v)
  · exact absurd h (not_illegalWord_cmdWord (.inr (.inl rfl)) a r v)
  · exact absurd h (not_illegalWord_cmdWord (.inr (.inr rfl)) a r v)

theorem dispatchOf_of_rdreg (h : ¬illegalWord w) (hop : cmdOpcode w = 0x01#8) : dispatchOf w s = s.goto .sRAux1Rd := by
  unfold dispatchOf
  rw [decodeCmd32_rdreg (cmdZ_eq_zero h) hop]

theorem dispatchOf_of_wrreg (h : ¬illegalWord w) (hop : cmdOpcode w = 0x02#8) : dispatchOf w s = dispatchWrite s := by
  unfold dispatchOf
  rw [decodeCmd32_wrreg (cmdZ_eq_zero h) hop]

theorem dispatchOf_of_chkidle (h : ¬illegalWord w) (h1 : cmdOpcode w ≠ 0x01#8) (h2 : cmdOpcode w ≠ 0x02#8) :
    dispatchOf w s = s.goto .sGStsRd1 := by
  have h3 : cmdOpcode w = 0x03#8 := by_contra fun h3 => h (.inl ⟨h1, h2, h3⟩)
  unfold dispatchOf
  rw [decodeCmd32_chkidle (cmdZ_eq_zero h) h3]

/-- The window test in the words of R135. -/
theorem inReservedWindow_eq_true {c : Config} {a : Target} :
    inReservedWindow c a = true ↔ c.reservedBase ≤ a ∧ a ≤ reservedTop c := by
  simp [inReservedWindow]

/-- A word first at the port of an idle block is there to be taken. -/
theorem readyFor_quiet_accept {rest : List EnvEvent} (hr : readyFor w s) (hin : s.inputs = .quiet :: rest) :
    step s = .next (dispatchOf w { accepted w s with inputs := rest, trace := .accept w :: s.trace }) := by
  obtain ⟨hseq, hmap, hcfg, ho, hcmds⟩ := hr
  obtain ⟨ws, hws⟩ := List.head?_eq_some_iff.mp hcmds
  rw [step_quiet_accept hin (micro_of_seq ho hseq) hws hmap hcfg]
  simp only [latch, accepted, State.record, State.useInput, State.takeCommand, hin, List.tail_cons]

/-- Settles O6: the latching is `accepted`, and the dispatch is one test of R148 after the other. -/
theorem acceptLatchesAndDispatches : Obligations.AcceptLatchesAndDispatches := by
  intro s w rest hr hin s1 opcode target t
  have hstep : step s = .next (dispatchOf w s1) := readyFor_quiet_accept hr hin
  obtain ⟨-, -, -, ho, -⟩ := hr
  have entry {m : MicroState} (hset : m ∈ setupStates) : macroState (s1.goto m) = some .addressValidated :=
    macroState_setup (micro_goto ho m) hset
  rw [hstep]
  dsimp only [t]
  split
  · rename_i hill
    exact ⟨by rw [dispatchOf_illegal hill]; rfl, fun h => absurd rfl h⟩
  · rename_i hleg
    split
    · rename_i hden
      obtain ⟨h2, hwin⟩ := hden
      rw [dispatchOf_of_wrreg hleg h2, dispatchWrite_denied (inReservedWindow_eq_true.mpr hwin)]
      exact ⟨rfl, fun h => absurd rfl h⟩
    · rename_i hden
      split
      · rename_i h1
        exact ⟨by rw [dispatchOf_of_rdreg hleg h1]; rfl, fun _ => entry (m := .sRAux1Rd) (by decide)⟩
      · rename_i h1
        split
        · rename_i h2
          have hout : inReservedWindow s.cfg target = false := by
            rw [← Bool.not_eq_true, inReservedWindow_eq_true]
            exact fun hwin => hden ⟨h2, hwin⟩
          rw [dispatchOf_of_wrreg hleg h2, dispatchWrite_allowed hout]
          exact ⟨rfl, fun _ => entry (m := .sWAddrWr) (by decide)⟩
        · rename_i h2
          exact ⟨by rw [dispatchOf_of_chkidle hleg h1 h2]; rfl, fun _ => entry (m := .sGStsRd1) (by decide)⟩

/-! ## The frame of the commands (R147) -/

/-- What the accept step of a command leaves alone. -/
structure CommandKeeps (s t : State) : Prop where
  auxtmp : t.auxtmp = s.auxtmp
  stsCap : t.stsCap = s.stsCap
  cfg : t.cfg = s.cfg
  mapped : t.mapped = s.mapped
  forgotten : t.forgotten = s.forgotten
  surface : ∀ a, t.surface.read a = s.surface.read a

theorem dispatchWrite_keeps (s : State) : CommandKeeps s (dispatchWrite s) := by
  unfold dispatchWrite
  split <;> constructor <;> intros <;> rfl

/-- An accepted word is latched and dispatched; a word left waiting changes nothing of all this. -/
theorem acceptWord_keeps {d : State → State} (hd : CommandKeeps (latch w s) (d (latch w s)))
    (h : acceptWord w d s = .next t) : CommandKeeps s t ∧ (t.outcome = s.outcome ∨ t = d (latch w s)) := by
  obtain ⟨-, -, -, rfl⟩ | ⟨-, rfl⟩ := acceptWord_next h
  · exact ⟨⟨hd.auxtmp, hd.stsCap, hd.cfg, hd.mapped, hd.forgotten, hd.surface⟩, .inr rfl⟩
  · exact ⟨⟨rfl, rfl, rfl, rfl, rfl, fun _ => rfl⟩, .inl rfl⟩

/-- A command that goes straight to its entry keeps the outcome too. -/
theorem acceptWord_goto_keeps (h : acceptWord w (fun s1 => s1.goto m) s = .next t) :
    CommandKeeps s t ∧ t.outcome = s.outcome := by
  obtain ⟨hk, hout | rfl⟩ := acceptWord_keeps ⟨rfl, rfl, rfl, rfl, rfl, fun _ => rfl⟩ h
  · exact ⟨hk, hout⟩
  · exact ⟨hk, rfl⟩

/-- A WRREG writes the outcome only where it is denied. -/
theorem acceptWord_write_keeps (h : acceptWord w dispatchWrite s = .next t) :
    CommandKeeps s t ∧ (t.outcome = s.outcome ∨ (t.outcome = 5#3 ∧ t.seq = MicroState.sResult.code)) := by
  obtain ⟨hk, hout | rfl⟩ := acceptWord_keeps (dispatchWrite_keeps _) h
  · exact ⟨hk, .inl hout⟩
  · refine ⟨hk, ?_⟩
    unfold dispatchWrite
    split
    · exact .inr ⟨rfl, rfl⟩
    · exact .inl rfl

/-- Settles O11: each command is the accept step with its own dispatch. -/
theorem commandFrame : Obligations.CommandFrame := by
  intro i s t hkind h
  obtain ⟨hk, hout⟩ : CommandKeeps s t ∧ (t.outcome = s.outcome ∨
      (t.outcome = 5#3 ∧ t.seq = MicroState.sResult.code ∧ ∃ a r v, i = .wrreg a r v)) := by
    obtain ⟨a, r, v, rfl⟩ | ⟨a, r, v, rfl⟩ | ⟨a, r, v, rfl⟩ := hkind
    · exact (acceptWord_goto_keeps h).imp_right .inl
    · exact (acceptWord_write_keeps h).imp_right (.imp_right fun ⟨hcode, hseq⟩ => ⟨hcode, hseq, a, r, v, rfl⟩)
    · exact (acceptWord_goto_keeps h).imp_right .inl
  exact ⟨hk.auxtmp, hk.stsCap, hk.cfg, hk.mapped, hk.forgotten, hk.surface, hout⟩

/-! ## The step that runs a command (R145, R146) -/

theorem blockStep_runs {i : Instr} (hm : s.micro = some .sIdle) (hmap : s.mapped = true) {ws : List (BitVec 32)}
    (hc : s.cmds = w :: ws) (hd : decode (.cmd32 w) = .ok i) : blockStep s = exec i { s with cmds := ws } := by
  have hf : fetch s = .command w := by simp [fetch, hm, hc, hmap]
  simp only [blockStep, hf, hd, State.takeCommand, hc, List.tail_cons]

/-- Settles O28: a presented word goes behind the first one, so the block fetches the same word. -/
theorem stepRunsTheCommandAtThePort : Obligations.StepRunsTheCommandAtThePort := by
  intro s w ws i hseq hmap ho hc hd
  have hm : s.micro = some .sIdle := micro_of_seq ho hseq
  constructor
  · intro hcalm hp
    rw [step_calm hcalm hp, blockStep_runs hm hmap hc hd]
  · intro w' rest hin
    have hc' : (presentWord w' s).cmds = w :: (ws ++ [w']) := by rw [presentWord_cmds, hc, List.cons_append]
    rw [step_present hin, blockStep_runs (s := presentWord w' s) hm hmap hc' hd]
    simp only [presentWord, hin, List.tail_cons]

end Sys2Proof.Machine
end

section
/-! The run of commands (spec/45_sequencer_fsm.md rules R146, R155, R156): a word is accepted in S_IDLE only, every accepted
word leads to one delivery, and a run is over at the last delivery. -/

namespace Sys2Proof.Machine

variable {s t : State} {m : MicroState}

/-! ## What a move is to the run of commands -/

/-- A move waits, begins a command, goes on with it, or ends it. -/
inductive RunMove (s t : State) : Prop where
  | waits (ht : t = s.useInput)
  | begins (w : BitVec 32) (hs : s.seq = MicroState.sIdle.code) (ht : running t) (hcmds : s.cmds = w :: t.cmds)
      (htr : t.trace = .accept w :: s.trace)
  | goesOn (e : PortEvent) (hs : running s) (ht : running t) (hcmds : t.cmds = s.cmds)
      (htr : t.trace = e :: s.trace) (ha : isAccept e = false) (hd : isDeliver e = false)
  | ends (res : BitVec 11) (hs : running s) (ht : t.seq = MicroState.sIdle.code) (hcmds : t.cmds = s.cmds)
      (htr : t.trace = .deliver res :: s.trace)

theorem running_of_seq (hseq : s.seq = m.code) (hm : m ≠ .sIdle) : running s := by
  rw [running, hseq, Ne, code_inj]
  exact hm

theorem running_of_micro (hmicro : s.micro = some m) (hm : m ≠ .sIdle) : running s :=
  running_of_seq (micro_eq_some.mp hmicro).2 hm

theorem sIdle_not_mem_readSuccessors (m : MicroState) : .sIdle ∉ readSuccessors m := by
  cases m <;> decide

theorem sIdle_not_mem_writeSuccessors (m : MicroState) : .sIdle ∉ writeSuccessors m := by
  cases m <;> decide

theorem running_afterRead {b : Byte} (h : afterRead m b s = .next t) : running t := by
  obtain ⟨m', hm', hseq⟩ := afterRead_seq h
  exact running_of_seq hseq fun hidle => sIdle_not_mem_readSuccessors m (hidle ▸ hm')

theorem running_afterWrite (h : afterWrite m s = .next t) : running t := by
  obtain ⟨m', hm', hseq⟩ := afterWrite_seq h
  exact running_of_seq hseq fun hidle => sIdle_not_mem_writeSuccessors m (hidle ▸ hm')

theorem running_dispatchOf (w : BitVec 32) (s : State) : running (dispatchOf w s) := by
  obtain ⟨m', hm', hseq⟩ := dispatchOf_seq (s := s) w
  refine running_of_seq hseq ?_
  rintro rfl
  exact absurd hm' (by decide)

theorem blockMove_run (h : BlockMove s t) : RunMove s t := by
  cases h with
  | waits => exact .waits rfl
  | accepts w ws hm hc hmap hcfg =>
    have hf := dispatchOf_frame (s := latch w s.takeCommand) w
    refine .begins w (micro_eq_some.mp hm).2 (running_dispatchOf w _) ?_ hf.trace
    rw [hf.cmds, hc]
    simp [hc]
  | reads m off b rest t hm hi hmap hin ha =>
    have hf := afterRead_frame ha
    exact .goesOn _ (running_of_micro hm (microOp_some hi).1) (running_afterRead ha) hf.cmds hf.trace rfl rfl
  | writes m off v rest t hm hi hmap hin ha =>
    have hf := afterWrite_frame ha
    exact .goesOn _ (running_of_micro hm (microOp_some hi).1) (running_afterWrite ha) hf.cmds hf.trace rfl rfl
  | delays m us rest t hm hi hmap hin ha =>
    obtain ⟨-, rfl⟩ := afterDelay_next ha
    exact .goesOn (.delay us) (running_of_micro hm (microOp_some hi).1) (running_of_seq (m := .sPStsRd) rfl (by decide))
      rfl rfl rfl rfl
  | delivers rest hm hmap hin => exact .ends _ (running_of_micro hm (by decide)) rfl rfl rfl

/-! ## Accepts and deliveries (R155, R173, R193) -/

theorem owed_running (h : running s) : owed s = 1 := if_neg h

theorem owed_idle (h : s.seq = MicroState.sIdle.code) : owed s = 0 := if_pos h

theorem accepts_of_trace {e : PortEvent} (htr : t.trace = e :: s.trace) :
    accepts t = accepts s + (isAccept e).toNat := by
  rw [accepts, htr, List.countP_cons, accepts]
  cases isAccept e <;> rfl

theorem delivers_of_trace {e : PortEvent} (htr : t.trace = e :: s.trace) :
    delivers t = delivers s + (isDeliver e).toNat := by
  rw [delivers, htr, List.countP_cons, delivers]
  cases isDeliver e <;> rfl

theorem runMove_balance (h : RunMove s t) : accepts t + delivers s + owed s = accepts s + delivers t + owed t := by
  cases h with
  | waits ht =>
    subst ht
    rfl
  | begins w hs ht hcmds htr =>
    simp only [accepts_of_trace htr, delivers_of_trace htr, isAccept, isDeliver, owed_idle hs, owed_running ht,
      Bool.toNat_true, Bool.toNat_false]
    omega
  | goesOn e hs ht hcmds htr ha hd =>
    rw [accepts_of_trace htr, delivers_of_trace htr, ha, hd, owed_running hs, owed_running ht]
    rfl
  | ends res hs ht hcmds htr =>
    simp only [accepts_of_trace htr, delivers_of_trace htr, isAccept, isDeliver, owed_running hs, owed_idle ht,
      Bool.toNat_true, Bool.toNat_false]
    omega

/-- Settles O46: only the block's own step makes an event or changes whether a command runs. -/
theorem acceptsAndDeliveriesBalance : Obligations.AcceptsAndDeliveriesBalance := by
  intro s t _ hstep hne
  obtain ⟨rest, hin, rfl⟩ | ⟨b, rest, -, -, rfl⟩ | ⟨w, rest, -, hmv⟩ | ⟨-, hmv⟩ := step_next hstep
  · exact absurd (by rw [hin]; rfl) hne
  · rfl
  · exact runMove_balance (s := presentWord w s) (blockMove_run hmv)
  · exact runMove_balance (blockMove_run hmv)

/-! ## The command port while a command runs (R146, R152) -/

theorem runMove_running (h : RunMove s t) (hrun : running s) : t.cmds = s.cmds ∧ ∀ w, t.trace ≠ .accept w :: s.trace := by
  cases h with
  | waits ht =>
    subst ht
    exact ⟨rfl, by simp⟩
  | begins w hs ht hcmds htr => exact absurd hs hrun
  | goesOn e hs ht hcmds htr ha hd =>
    refine ⟨hcmds, fun w hw => ?_⟩
    rw [htr] at hw
    cases hw
    cases ha
  | ends res hs ht hcmds htr =>
    refine ⟨hcmds, fun w hw => ?_⟩
    rw [htr] at hw
    cases hw

/-- Settles O48: the only move that makes an accept event is made in `S_IDLE`; a presented word goes behind the others. -/
theorem noCommandIsAcceptedWhileOneRuns : Obligations.NoCommandIsAcceptedWhileOneRuns := by
  intro s t hstep hrun
  obtain ⟨rest, -, rfl⟩ | ⟨b, rest, -, -, rfl⟩ | ⟨w, rest, -, hmv⟩ | ⟨-, hmv⟩ := step_next hstep
  · exact ⟨⟨[], by simp⟩, by simp⟩
  · exact ⟨⟨[], by simp⟩, by simp⟩
  · obtain ⟨hcmds, htr⟩ := runMove_running (s := presentWord w s) (blockMove_run hmv) hrun
    exact ⟨⟨[w], hcmds⟩, htr⟩
  · obtain ⟨hcmds, htr⟩ := runMove_running (blockMove_run hmv) hrun
    exact ⟨⟨[], by simp [hcmds]⟩, htr⟩

/-! ## A running block waits for one answer (R156, R160) -/

/-- The answer that an issued micro-operation waits for makes its event. -/
theorem microOp_isAnswered {i : Instr} (hm : s.micro = some m) (hi : microOp m s = some i) (hmap : s.mapped = true)
    (ho : opServed m s.op) :
    ∃ e, ∀ rest, ∃ t ev, step (s.withInputs (e :: rest)) = .next t ∧ t.trace = ev :: s.trace := by
  obtain ⟨hout, hseq⟩ := micro_eq_some.mp hm
  have hm' (l : List EnvEvent) : (s.withInputs l).micro = some m := micro_inputs hout hseq l
  have hi' (l : List EnvEvent) : microOp m (s.withInputs l) = some i := microOp_inputs l hi
  obtain ⟨off, rfl⟩ | ⟨off, v, rfl⟩ | ⟨us, rfl⟩ := microOp_kind hi
  · refine ⟨.answer 0x00#8, fun rest => ?_⟩
    obtain ⟨t, ht⟩ := afterRead_isNext 0x00#8 (hi' (.answer 0x00#8 :: rest)) ho
    exact ⟨t, _, (step_answer rfl (hm' (.answer 0x00#8 :: rest)) (hi' _) hmap).trans ht, (afterRead_frame ht).trace⟩
  · refine ⟨.written, fun rest => ?_⟩
    obtain ⟨t, ht⟩ := afterWrite_isNext (hi' (.written :: rest)) ho
    exact ⟨t, _, (step_written rfl (hm' (.written :: rest)) (hi' _) hmap).trans ht, (afterWrite_frame ht).trace⟩
  · refine ⟨.delayDone, fun rest => ?_⟩
    obtain ⟨t, ht⟩ := afterDelay_isNext (hi' (.delayDone :: rest))
    exact ⟨t, _, (step_delayDone rfl (hm' (.delayDone :: rest)) (hi' _) hmap).trans ht, afterDelay_trace ht⟩

/-- Settles O51: in `S_RESULT` the host's taking the word makes the event, elsewhere the answer to the micro-operation that
the micro-state issues. -/
theorem aRunningBlockIsOwedAnEvent : Obligations.ARunningBlockIsOwedAnEvent := by
  rintro s ⟨m, h⟩ hrun
  have hne : m ≠ .sIdle := fun hidle => hrun (hidle ▸ h.seqListed)
  by_cases hres : m = .sResult
  · subst hres
    exact ⟨.take, fun rest => ⟨_, _, step_take rfl (micro_inputs h.outcomeListed h.seqListed _) (h.mapped hne), rfl⟩⟩
  · obtain ⟨i, hi⟩ := microOp_isSome hne hres h.op
    exact microOp_isAnswered h.micro hi (h.mapped hne) h.op

/-! ## The end of a run (R156) -/

theorem lastDelivered_cons {e : PortEvent} (evs : List PortEvent) (ha : isAccept e = false) (hd : isDeliver e = false) :
    lastDelivered (e :: evs) = lastDelivered evs := by
  cases e with
  | accept => cases ha
  | deliver => cases hd
  | read | write | delay => rfl

theorem owesResult_runMove (h : OwesResult s) (hmv : RunMove s t) : OwesResult t := by
  intro hrun
  cases hmv with
  | waits ht =>
    subst ht
    exact h hrun
  | begins w hs ht hcmds htr => rw [htr, lastDelivered_accept]
  | goesOn e hs ht hcmds htr ha hd => rw [htr, lastDelivered_cons _ ha hd, h hs]
  | ends res hs ht => exact absurd ht hrun

/-- Using up an input that presents no word leaves the end of a run where it is. -/
theorem runOver_useInput (hp : ∀ w, s.inputs.head? ≠ some (.present w)) : runOver s.useInput ↔ runOver s := by
  have hmem (w : BitVec 32) : EnvEvent.present w ∉ s.inputs.tail ↔ EnvEvent.present w ∉ s.inputs := by
    have hw := hp w
    cases hin : s.inputs with
    | nil => rfl
    | cons e rest =>
      rw [hin, List.head?_cons, Ne, Option.some.injEq] at hw
      simp [Ne.symm hw]
  simp only [runOver, noCommandLeft, State.useInput_seq, State.useInput_cmds, State.useInput_inputs, State.useInput_trace,
    hmem]

theorem runOver_stays (hover : runOver s) (hmv : RunMove s t) : t = s.useInput := by
  obtain ⟨hidle, ⟨hcmds, -⟩, -⟩ := hover
  cases hmv with
  | waits ht => exact ht
  | begins w hs ht hcmds' => rw [hcmds] at hcmds'; cases hcmds'
  | goesOn e hs => exact absurd hidle hs
  | ends res hs => exact absurd hidle hs

theorem runOver_comes (hover : runOver t) (hmv : RunMove s t) : t = s.useInput ∨ ∃ res, t.trace = .deliver res :: s.trace := by
  obtain ⟨hidle, -, hlast⟩ := hover
  cases hmv with
  | waits ht => exact .inl ht
  | begins w hs ht => exact absurd hidle ht
  | goesOn e hs ht => exact absurd hidle ht
  | ends res hs ht hcmds htr => exact .inr ⟨res, htr⟩

/-- A reset abandons a command, so it does not bring its run to an end. -/
theorem runOver_of_reset (h : OwesResult s) (hover : runOver (applyReset s.useInput)) : runOver s.useInput := by
  obtain ⟨-, hnone, hlast⟩ := hover
  refine ⟨by_contra fun hrun => ?_, hnone, hlast⟩
  exact absurd (hlast.symm.trans (h hrun)) (by decide)

/-- Settles O59: by what a step can do. A word that the host presents in the step is one more to accept. -/
theorem runsEndAtTheLastDelivery : Obligations.RunsEndAtTheLastDelivery := by
  refine ⟨fun hrun => absurd rfl hrun, fun s t howes hstep => ?_⟩
  obtain ⟨rest, hin, rfl⟩ | ⟨b, rest, hin, -, rfl⟩ | ⟨w, rest, hin, hmv⟩ | ⟨hcalm, hmv⟩ := step_next hstep
  · have huse : runOver s.useInput ↔ runOver s := runOver_useInput (by simp [hin])
    refine ⟨fun hrun => absurd rfl hrun, fun hover => ?_, fun hnot hover => ?_⟩
    · obtain ⟨-, hnone, hlast⟩ := huse.mpr hover
      exact ⟨⟨rfl, hnone, hlast⟩, rfl⟩
    · exact absurd (huse.mp (runOver_of_reset howes hover)) hnot
  · have huse : runOver s.useInput ↔ runOver s := runOver_useInput (by simp [hin])
    exact ⟨howes, fun hover => ⟨huse.mpr hover, rfl⟩, fun hnot hover => absurd (huse.mp hover) hnot⟩
  · have hrun := blockMove_run hmv
    refine ⟨owesResult_runMove (s := presentWord w s) howes hrun, fun hover => ?_, fun _ hover => ?_⟩
    · obtain ⟨-, ⟨-, hnone⟩, -⟩ := hover
      exact absurd (by simp [hin]) (hnone w)
    · obtain rfl | hdel := runOver_comes hover hrun
      · obtain ⟨-, ⟨hcmds, -⟩, -⟩ := hover
        simp at hcmds
      · exact hdel
  · have hrun := blockMove_run hmv
    have huse : runOver s.useInput ↔ runOver s := runOver_useInput fun w hw => (hcalm _ hw).2.2 w rfl
    refine ⟨owesResult_runMove howes hrun, fun hover => ?_, fun hnot hover => ?_⟩
    · obtain rfl := runOver_stays hover hrun
      exact ⟨huse.mpr hover, rfl⟩
    · obtain rfl | hdel := runOver_comes hover hrun
      · exact absurd (huse.mp hover) hnot
      · exact hdel

end Sys2Proof.Machine
end

section
/-! A step along the source's state machine (spec/45_sequencer_fsm.md rule R157), row by row of the transition table of
R149. -/

namespace Sys2Proof.Machine

variable {s t : State} {m m' : MicroState} {a b : MacroState}

/-! ## States of the source that follow one another -/

/-- The state of R157 that `t` is in may follow the one that `s` is in. -/
def Follows (s t : State) : Prop := ∀ a b, macroState s = some a → macroState t = some b → b ∈ macroAfter a

theorem follows_of (ha : macroState s = some a) (hb : macroState t = some b) (h : b ∈ macroAfter a) : Follows s t := by
  intro a' b' ha' hb'
  rw [ha] at ha'
  rw [hb] at hb'
  cases ha'
  cases hb'
  exact h

theorem self_mem_macroAfter (a : MacroState) : a ∈ macroAfter a := by
  cases a <;> decide

theorem follows_self (h : macroState t = macroState s) : Follows s t := by
  intro a b ha hb
  rw [h, ha] at hb
  cases hb
  exact self_mem_macroAfter a

theorem idle_follows_result (o : TxnOutcome) : .idle ∈ macroAfter (macroOfResult o) := by
  cases o <;> decide

/-- CLASSIFY times out exactly where `TIMEDOUT` says so (R116). -/
theorem macroOfResult_classify (c : Config) (timedout : Bool) (sts : Byte) :
    macroOfResult (classify c timedout sts) = if timedout then .timedOut else .completed := by
  cases timedout with
  | true => rfl
  | false => cases hd : devErrFlag c sts <;> simp [classify, hd, macroOfResult]

/-- The result that CLASSIFY decides is the ending, Completed or TimedOut, that the command has had since its poll loop. -/
theorem follows_classified (h : Inv s m) (hover : m = .sAckWr ∨ m = .sDataRd) (hseq : t.seq = MicroState.sResult.code)
    (ho : t.outcome = (classify s.cfg s.timedout s.stsCap).code) : Follows s t := by
  refine follows_self ?_
  rw [macroState_pollOver h.micro hover, macroState_finished hseq ho, macroOfResult_classify]

/-! ## Every row follows (R149) -/

theorem auxReadRows_setup : ∀ p ∈ auxReadRows, p.1 ∈ setupStates ∧ p.2 ∈ setupStates := by decide

theorem innerWriteRows_setup : ∀ p ∈ innerWriteRows, p.1 ∈ setupStates ∧ p.2 ∈ setupStates := by decide

/-- The set-up and the guard go on in AddressValidated. -/
theorem follows_setup (h : Inv s m) (hm : m ∈ setupStates) (ht : t.micro = some m') (hm' : m' ∈ setupStates) :
    Follows s t :=
  follows_of (macroState_setup h.micro hm) (macroState_setup ht hm') (by decide)

theorem follows_readRow {b : Byte} (h : Inv s m) (ht : t.outcome ≠ 6#3) (hr : ReadRow b s m t) : Follows s t := by
  cases hr with
  | aux hmem =>
    obtain ⟨hm, hm'⟩ := auxReadRows_setup _ hmem
    exact follows_setup h hm (micro_goto ht _) hm'
  | guardBusy | guardFails | guardEnds =>
    exact follows_of (macroState_setup h.micro (by decide)) (macroState_finish _ _ _) (by decide)
  | guardClears | guardGoesOn => exact follows_setup h (by decide) (micro_goto ht _) (by decide)
  | guardStarts =>
    exact follows_of (macroState_setup h.micro (by decide)) (macroState_sStartWr (micro_goto ht _)) (by decide)
  | pollCompletes | timesOut =>
    exact follows_of (macroState_sPStsRd h.micro) (macroState_pollOver (micro_goto ht _) (.inl rfl)) (by split <;> decide)
  | pollGoesOn =>
    have hpos : s.pollcnt + 1#9 ≠ 0#9 := by have := h.polled_bounds.1; bv_omega
    exact follows_of (macroState_sPStsRd h.micro) (macroState_sPDelay (micro_goto ht _))
      (by rw [State.goto_pollcnt, polled_pollcnt, if_neg hpos]; decide)
  | timesOutToData =>
    exact follows_of (macroState_sPStsRd h.micro) (macroState_pollOver (micro_goto ht _) (.inr rfl)) (by split <;> decide)
  | timesOutEnds => exact follows_of (macroState_sPStsRd h.micro) (macroState_finish _ _ _) (by decide)
  | data =>
    obtain ⟨-, -, hout⟩ := h.result
    exact follows_classified h (.inr rfl) rfl hout

theorem follows_writeRow (h : Inv s m) (ht : t.outcome ≠ 6#3) (hr : WriteRow s m t) : Follows s t := by
  cases hr with
  | inner hmem =>
    obtain ⟨hm, hm'⟩ := innerWriteRows_setup _ hmem
    exact follows_setup h hm (micro_goto ht _) hm'
  | readIsSetUp | writeIsSetUp => exact follows_setup h (by decide) (micro_goto ht _) (by decide)
  | starts =>
    obtain ⟨hcnt, -⟩ := h.poll
    exact follows_of (macroState_sStartWr h.micro) (macroState_sPDelay (micro_goto ht _))
      (by rw [State.goto_pollcnt, if_pos hcnt]; decide)
  | ackToData =>
    refine follows_self ?_
    rw [macroState_pollOver h.micro (.inl rfl), macroState_pollOver (s := s.goto .sDataRd) (micro_goto ht _) (.inr rfl),
      State.goto_timedout]
  | ackEnds => exact follows_classified h (.inl rfl) rfl rfl

theorem follows_delayRow (h : Inv s .sPDelay) : Follows s (s.goto .sPStsRd) :=
  follows_of (macroState_sPDelay h.micro) (macroState_sPStsRd (micro_goto h.outcomeListed _)) (by split <;> decide)

theorem follows_dispatchRow {w : BitVec 32} {u : State} (h : Inv s .sIdle) (ht : t.outcome ≠ 6#3) (hr : DispatchRow w u t) :
    Follows s t := by
  have hidle := macroState_sIdle h.micro
  cases hr with
  | illegal | denied => exact follows_of hidle (macroState_finish _ _ _) (by decide)
  | reads | writes | checks => exact follows_of hidle (macroState_setup (micro_goto ht _) (by decide)) (by decide)

/-- After the delivery the block is idle, whatever the result was (R154). -/
theorem follows_deliver (h : Inv s .sResult) (ht : t.micro = some .sIdle) : Follows s t := by
  intro a b ha hb
  rw [macroState_sResult h.micro] at ha
  rw [macroState_sIdle ht] at hb
  obtain ⟨o, -, rfl⟩ := Option.map_eq_some_iff.mp ha
  cases hb
  exact idle_follows_result o

theorem follows_blockMove (h : Inv s m) (hmv : BlockMove s t) : Follows s t := by
  obtain ⟨_, h'⟩ := h.blockMove hmv
  have ht := h'.outcomeListed
  cases hmv with
  | waits => exact follows_self rfl
  | accepts w ws hm =>
    obtain rfl := h.micro_unique hm
    exact follows_dispatchRow h ht (dispatchOf_row w _)
  | reads m' off b rest t hm hi hmap hin ha =>
    obtain rfl := h.micro_unique hm
    exact follows_readRow (s := s.readDone off b) (h.readDone off b) ht (afterRead_row ha)
  | writes m' off v rest t hm hi hmap hin ha =>
    obtain rfl := h.micro_unique hm
    exact follows_writeRow (s := s.writeDone off v) (h.writeDone off v) ht (afterWrite_row ha)
  | delays m' us rest t hm hi hmap hin ha =>
    obtain rfl := h.micro_unique hm
    obtain ⟨rfl, rfl⟩ := afterDelay_next ha
    exact follows_delayRow (s := s.delayOver us) (h.delayOver us)
  | delivers rest hm =>
    obtain rfl := h.micro_unique hm
    exact follows_deliver h (micro_goto ht _)

/-- A step that nothing disturbs is a move of the block, with the word there that the host may have presented. -/
theorem undisturbed_move (hu : undisturbed s) (h : step s = .next t) :
    (∃ w, BlockMove (presentWord w s) t) ∨ BlockMove s t := by
  obtain ⟨rest, hin, -⟩ | ⟨b, rest, hin, -, -⟩ | ⟨w, rest, -, hmv⟩ | ⟨-, hmv⟩ := step_next h
  · exact absurd rfl (hu .reset (by rw [hin]; rfl)).1
  · exact absurd rfl ((hu (.mapPin b) (by rw [hin]; rfl)).2 b)
  · exact .inl ⟨w, hmv⟩
  · exact .inr hmv

/-- Settles O49: a presented word does not take the block out of the invariant, and every row of the transition table
follows the chain. -/
theorem stepsFollowTheMacroStates : Obligations.StepsFollowTheMacroStates := by
  rintro s t a b ⟨m, h⟩ hstep hu ha hb
  obtain ⟨w, hmv⟩ | hmv := undisturbed_move hu hstep
  · exact follows_blockMove (h.present w) hmv a b ha hb
  · exact follows_blockMove h hmv a b ha hb

end Sys2Proof.Machine
end

section
/-! Every port event of a command brings its result nearer, within the bound of R158 (spec/45_sequencer_fsm.md rules R149,
R158). -/

namespace Sys2Proof.Machine

variable {s t : State} {m m' : MicroState}

/-! ## The bound by micro-state -/

theorem tailEvents_pos (op : BitVec 2) : 0 < tailEvents op := by
  unfold tailEvents
  split <;> decide

theorem guardEventsLeft_check (ho : s.op = 3#2) : guardEventsLeft s = 3 := if_pos ho

/-- A command that starts a transfer has its events left after the guard, too. -/
theorem guardEventsLeft_transfer (ho : s.op = 1#2 ∨ s.op = 2#2) :
    guardEventsLeft s = 4 + 2 * s.cfg.pollMax.toNat + tailEvents s.op := by
  have hne : s.op ≠ 3#2 := by obtain h | h := ho <;> simp [h]
  rw [guardEventsLeft, if_neg hne]
  omega

theorem three_le_guardEventsLeft (s : State) : 3 ≤ guardEventsLeft s := by
  unfold guardEventsLeft
  split <;> omega

theorem guardEventsLeft_goto (m : MicroState) : guardEventsLeft (s.goto m) = guardEventsLeft s := rfl

/-- The bound is a function of `OP`, `POLLCNT` and the parameters. -/
theorem eventsLeft_congr (hop : t.op = s.op) (hcfg : t.cfg = s.cfg) (hcnt : t.pollcnt = s.pollcnt) :
    eventsLeft m t = eventsLeft m s := by
  cases m <;> simp only [eventsLeft, guardEventsLeft, hop, hcfg, hcnt]

/-! ## Every row brings the result nearer (R149) -/

/-- Fewer events are left in the micro-state of `t` than in `m` at `s`. -/
def Nearer (m : MicroState) (s t : State) : Prop := ∃ m', t.seq = m'.code ∧ eventsLeft m' t < eventsLeft m s

theorem Nearer.eventsLeft_lt (h : Nearer m s t) (h' : Inv t m') : eventsLeft m' t < eventsLeft m s := by
  obtain ⟨n, hseq, hlt⟩ := h
  obtain rfl : m' = n := code_inj.mp (h'.seqListed.symm.trans hseq)
  exact hlt

/-- One more iteration of the poll loop is within the budget, and counts one. -/
theorem Inv.pollcnt_succ (h : Inv s .sPStsRd) :
    s.pollcnt.toNat < s.cfg.pollMax.toNat ∧ (s.pollcnt + 1#9).toNat = s.pollcnt.toNat + 1 := by
  obtain ⟨hlt, -⟩ := h.poll
  constructor <;> bv_omega

theorem nearer_pollExit (h : Inv s .sPStsRd) (hop : t.op = s.op) (hseq : t.seq = MicroState.sAckWr.code) :
    Nearer .sPStsRd s t := by
  obtain ⟨hlt, -⟩ := h.pollcnt_succ
  refine ⟨.sAckWr, hseq, ?_⟩
  simp only [eventsLeft, hop]
  omega

theorem nearer_readRow {b : Byte} (h : Inv s m) (hr : ReadRow b s m t) : Nearer m s t := by
  have hguard := three_le_guardEventsLeft s
  cases hr with
  | @aux m m' hmem =>
    simp only [auxReadRows, List.mem_cons, List.not_mem_nil, or_false, Prod.mk.injEq] at hmem
    obtain ⟨rfl, rfl⟩ | ⟨rfl, rfl⟩ | ⟨rfl, rfl⟩ := hmem
    all_goals exact ⟨_, State.goto_seq _ _, Nat.add_lt_add_right (by decide) (guardEventsLeft s)⟩
  | guardBusy =>
    refine ⟨.sResult, rfl, ?_⟩
    simp only [eventsLeft]
    omega
  | guardClears =>
    refine ⟨.sGStsClr, rfl, ?_⟩
    show guardEventsLeft s - 1 < guardEventsLeft s
    omega
  | guardGoesOn =>
    refine ⟨.sGStsRd2, rfl, ?_⟩
    show guardEventsLeft s - 2 < guardEventsLeft s
    omega
  | guardFails | guardEnds =>
    refine ⟨.sResult, rfl, ?_⟩
    simp only [eventsLeft]
    omega
  | guardStarts hf ho =>
    refine ⟨.sStartWr, rfl, ?_⟩
    simp only [eventsLeft, guardEventsLeft_transfer ho, State.goto_cfg, State.goto_op]
    omega
  | pollCompletes | timesOut => exact nearer_pollExit h (by simp) rfl
  | pollGoesOn =>
    obtain ⟨hlt, hsucc⟩ := h.pollcnt_succ
    refine ⟨.sPDelay, rfl, ?_⟩
    simp only [eventsLeft, State.goto_pollcnt, polled_pollcnt, hsucc, State.goto_cfg, polled_cfg, State.goto_op, polled_op]
    omega
  | timesOutToData =>
    obtain ⟨hlt, -⟩ := h.pollcnt_succ
    have htail := tailEvents_pos s.op
    refine ⟨.sDataRd, rfl, ?_⟩
    simp only [eventsLeft]
    omega
  | timesOutEnds =>
    have htail := tailEvents_pos s.op
    refine ⟨.sResult, rfl, ?_⟩
    simp only [eventsLeft]
    omega
  | data => exact ⟨.sResult, rfl, Nat.zero_lt_one⟩

theorem nearer_writeRow (h : Inv s m) (hr : WriteRow s m t) : Nearer m s t := by
  have hguard := three_le_guardEventsLeft s
  cases hr with
  | @inner m m' hmem =>
    simp only [innerWriteRows, List.mem_cons, List.not_mem_nil, or_false, Prod.mk.injEq] at hmem
    obtain ⟨rfl, rfl⟩ | ⟨rfl, rfl⟩ | ⟨rfl, rfl⟩ | ⟨rfl, rfl⟩ | ⟨rfl, rfl⟩ | ⟨rfl, rfl⟩ | ⟨rfl, rfl⟩ := hmem
    all_goals
      refine ⟨_, State.goto_seq _ _, ?_⟩
      simp only [eventsLeft, guardEventsLeft_goto]
      omega
  | readIsSetUp | writeIsSetUp =>
    refine ⟨.sGStsRd1, rfl, ?_⟩
    simp only [eventsLeft, guardEventsLeft_goto]
    omega
  | starts =>
    refine ⟨.sPDelay, rfl, ?_⟩
    simp only [eventsLeft, State.goto_pollcnt, State.goto_cfg, State.goto_op]
    omega
  | ackToData ho =>
    refine ⟨.sDataRd, rfl, ?_⟩
    simp only [eventsLeft, tailEvents, ho]
    decide
  | ackEnds => exact ⟨.sResult, rfl, tailEvents_pos s.op⟩

theorem nearer_delayRow (h : Inv s .sPDelay) : Nearer .sPDelay s (s.goto .sPStsRd) := by
  obtain ⟨hlt, -⟩ := h.poll
  have hlt' : s.pollcnt.toNat < s.cfg.pollMax.toNat := hlt
  refine ⟨.sPStsRd, rfl, ?_⟩
  simp only [eventsLeft, State.goto_pollcnt, State.goto_cfg, State.goto_op]
  omega

/-! ## The bound at the accept (R158) -/

/-- The bounds of R158 for the three commands, by `OP`. -/
def WithinBound (m : MicroState) (t : State) : Prop :=
  (t.op = 1#2 → eventsLeft m t ≤ 2 * t.cfg.pollMax.toNat + 12) ∧
  (t.op = 2#2 → eventsLeft m t ≤ 2 * t.cfg.pollMax.toNat + 10) ∧
  (t.op = 3#2 → eventsLeft m t ≤ 3)

theorem withinBound_read (ho : t.op = 1#2) : WithinBound .sRAux1Rd t := by
  refine ⟨fun _ => ?_, fun h => absurd (ho.symm.trans h) (by decide), fun h => absurd (ho.symm.trans h) (by decide)⟩
  have htail : tailEvents t.op = 2 := if_pos ho
  rw [eventsLeft, guardEventsLeft_transfer (.inl ho), htail]
  omega

theorem withinBound_write (ho : t.op = 2#2) : WithinBound .sWAddrWr t := by
  refine ⟨fun h => absurd (ho.symm.trans h) (by decide), fun _ => ?_, fun h => absurd (ho.symm.trans h) (by decide)⟩
  have htail : tailEvents t.op = 1 := if_neg (by rw [ho]; decide)
  rw [eventsLeft, guardEventsLeft_transfer (.inr ho), htail]
  omega

theorem withinBound_check (ho : t.op = 3#2) : WithinBound .sGStsRd1 t :=
  ⟨fun h => absurd (ho.symm.trans h) (by decide), fun h => absurd (ho.symm.trans h) (by decide),
    fun _ => (guardEventsLeft_check ho).le⟩

/-- Each entry is the entry of its own command. -/
theorem withinBound_dispatchRow {w : BitVec 32} (hr : DispatchRow w s t) (hop : s.op = cmdOp w) (h' : Inv t m')
    (hne : m' ≠ .sResult) : WithinBound m' t := by
  have hm' {n : MicroState} (hseq : t.seq = n.code) : m' = n := code_inj.mp (h'.seqListed.symm.trans hseq)
  cases hr with
  | illegal | denied => exact absurd (hm' rfl) hne
  | reads ho =>
    obtain rfl := hm' (n := .sRAux1Rd) rfl
    exact withinBound_read (hop.trans ho)
  | writes ho =>
    obtain rfl := hm' (n := .sWAddrWr) rfl
    exact withinBound_write (hop.trans ho)
  | checks ho =>
    obtain rfl := hm' (n := .sGStsRd1) rfl
    exact withinBound_check (hop.trans ho)

/-! ## A move that makes an event -/

theorem nearer_blockMove (h : Inv s m) (hmv : BlockMove s t) (hne : t.trace ≠ s.trace) (h1 : m ≠ .sIdle)
    (h2 : m ≠ .sResult) : Nearer m s t := by
  cases hmv with
  | waits => exact absurd rfl hne
  | accepts w ws hm => exact absurd (h.micro_unique hm).symm h1
  | reads m' off b rest t hm hi hmap hin ha =>
    obtain rfl := h.micro_unique hm
    obtain ⟨n, hseq, hlt⟩ := nearer_readRow (h.readDone off b) (afterRead_row ha)
    exact ⟨n, hseq, hlt.trans_eq (eventsLeft_congr rfl rfl rfl)⟩
  | writes m' off v rest t hm hi hmap hin ha =>
    obtain rfl := h.micro_unique hm
    obtain ⟨n, hseq, hlt⟩ := nearer_writeRow (h.writeDone off v) (afterWrite_row ha)
    exact ⟨n, hseq, hlt.trans_eq (eventsLeft_congr rfl rfl rfl)⟩
  | delays m' us rest t hm hi hmap hin ha =>
    obtain rfl := h.micro_unique hm
    obtain ⟨rfl, rfl⟩ := afterDelay_next ha
    exact nearer_delayRow (h.delayOver us)
  | delivers rest hm => exact absurd (h.micro_unique hm).symm h2

/-- The one event of an idle block is an accept. -/
theorem withinBound_blockMove (h : Inv s .sIdle) (h' : Inv t m') (hmv : BlockMove s t) (hne : t.trace ≠ s.trace)
    (hm' : m' ≠ .sResult) : WithinBound m' t := by
  cases hmv with
  | waits => exact absurd rfl hne
  | accepts w => exact withinBound_dispatchRow (dispatchOf_row w _) rfl h' hm'
  | reads m off b rest t hm hi => exact absurd (h.micro_unique hm) (microOp_some hi).1
  | writes m off v rest t hm hi => exact absurd (h.micro_unique hm) (microOp_some hi).1
  | delays m us rest t hm hi => exact absurd (h.micro_unique hm) (microOp_some hi).1
  | delivers rest hm => cases h.micro_unique hm

/-- Settles O50: row by row, with the entry of each command. A presented word leaves the bound where it is. -/
theorem eventsBringTheResultNearer : Obligations.EventsBringTheResultNearer := by
  intro s t m m' h h' hstep hu hne
  obtain ⟨w, hmv⟩ | hmv := undisturbed_move hu hstep
  · have hp := h.present w
    refine ⟨fun h1 h2 => ?_, ?_⟩
    · exact ((nearer_blockMove hp hmv hne h1 h2).eventsLeft_lt h').trans_eq (eventsLeft_congr rfl rfl rfl)
    · rintro rfl hm'
      exact withinBound_blockMove hp h' hmv hne hm'
  · refine ⟨fun h1 h2 => (nearer_blockMove h hmv hne h1 h2).eventsLeft_lt h', ?_⟩
    rintro rfl hm'
    exact withinBound_blockMove h h' hmv hne hm'

end Sys2Proof.Machine
end

section
/-! The reset step, and runs without their late answers (spec/70_reset_and_hazards.md rules R190, R191, R193): a step looks
at the first of the inputs to come and at no other, and a late answer in front is as nothing. -/

namespace Sys2Proof.Machine

variable {s : State} {i : Instr}

/-! ## A step looks at one input only -/

theorem afterDelay_withInputs (m : MicroState) (l : List EnvEvent) :
    afterDelay m (s.withInputs l) = onNext (State.withInputs l) (afterDelay m s) := by
  cases m <;> rfl

theorem changeMapped_withInputs (b : Bool) (l : List EnvEvent) :
    changeMapped b (s.withInputs l) = onNext (State.withInputs l) (changeMapped b s) := by
  simp only [changeMapped]
  split <;> rfl

theorem applyReset_withInputs (l : List EnvEvent) : applyReset (s.withInputs l) = (applyReset s).withInputs l := by
  simp only [applyReset, outstanding_withInputs]

section OneInput
variable (e : EnvEvent) (l l' : List EnvEvent)

/-- A micro-operation looks at the inputs in what it performs, not in the test whether it is issued. -/
theorem whenIssued_oneInput {perform perform' : MicroState → Host.Outcome State Fault Refusal}
    (hp : ∀ m, perform' m = onNext (State.withInputs l') (perform m)) :
    whenIssued i perform' (s.withInputs (e :: l'))
      = onNext (State.withInputs l') (whenIssued i perform (s.withInputs (e :: l))) := by
  have hm (k : List EnvEvent) : (s.withInputs k).micro = s.micro := rfl
  simp only [whenIssued, microOp_withInputs, hm]
  split
  · rfl
  · split
    · split
      · exact hp _
      · rfl
    · rfl

theorem exec_oneInput {m : MicroState} (hi : microOp m s = some i) :
    exec i (s.withInputs (e :: l')) = onNext (State.withInputs l') (exec i (s.withInputs (e :: l))) := by
  obtain ⟨off, rfl⟩ | ⟨off, v, rfl⟩ | ⟨us, rfl⟩ := microOp_kind hi
  · refine whenIssued_oneInput e l l' fun m => ?_
    cases e with
    | answer b => exact afterRead_withInputs (s := (s.withInputs (.answer b :: l)).readDone off b) m b l'
    | _ => rfl
  · refine whenIssued_oneInput e l l' fun m => ?_
    cases e with
    | written => exact afterWrite_withInputs (s := (s.withInputs (.written :: l)).writeDone off v) m l'
    | _ => rfl
  · refine whenIssued_oneInput e l l' fun m => ?_
    cases e with
    | delayDone => exact afterDelay_withInputs (s := (s.withInputs (.delayDone :: l)).delayOver us) m l'
    | _ => rfl

theorem deliver_oneInput :
    deliver (s.withInputs (e :: l')) = onNext (State.withInputs l') (deliver (s.withInputs (e :: l))) := by
  simp only [deliver]
  split
  · cases e <;> rfl
  · rfl

theorem blockStep_oneInput :
    blockStep (s.withInputs (e :: l')) = onNext (State.withInputs l') (blockStep (s.withInputs (e :: l))) := by
  have hfl (k : List EnvEvent) : fetch (s.withInputs k) = fetch s := fetch_withInputs k
  obtain ⟨-, hf⟩ | ⟨hm, ⟨w, ws, -, hmap, hf⟩ | ⟨-, hf⟩⟩ | ⟨-, hf⟩ | ⟨m, i, -, hi, hf⟩ | ⟨-, -, -, -, -, hf⟩ :=
    fetch_cases s
  · simp only [blockStep, hfl, hf, onNext_refused]
  · rw [blockStep_accepts (s := s.withInputs (e :: l')) hm hmap ((hfl _).trans hf),
      blockStep_accepts (s := s.withInputs (e :: l)) hm hmap ((hfl _).trans hf)]
    dsimp only
    split
    · exact congrArg Host.Outcome.next
        (dispatchOf_withInputs (s := latch w (s.withInputs (e :: l)).takeCommand) w l')
    · rfl
  · simp only [blockStep, hfl, hf]
    rfl
  · simp only [blockStep, hfl, hf]
    exact deliver_oneInput e l l'
  · simp only [blockStep, hfl, hf]
    exact exec_oneInput e l l' hi
  · simp only [blockStep, hfl, hf, onNext_refused]

/-- A step uses up the first input: those behind it are as they were, and nothing else depends on them. -/
theorem step_oneInput :
    step (s.withInputs (e :: l')) = onNext (State.withInputs l') (step (s.withInputs (e :: l))) := by
  cases e with
  | reset => exact congrArg Host.Outcome.next (applyReset_withInputs (s := (s.withInputs (.reset :: l)).useInput) l')
  | mapPin b => exact changeMapped_withInputs (s := (s.withInputs (.mapPin b :: l)).useInput) b l'
  | present w => exact blockStep_oneInput (s := { s with cmds := s.cmds ++ [w] }) .quiet l l'
  | _ => exact blockStep_oneInput _ l l'

end OneInput

/-- The block's own step uses up one input. -/
theorem blockMove_inputs {t : State} (h : BlockMove s t) : t.inputs = s.inputs.tail := by
  cases h with
  | waits => rfl
  | accepts w => rw [(dispatchOf_frame w).inputs]; rfl
  | reads m off b rest t hm hi hmap hin ha => rw [(afterRead_frame ha).inputs]; rfl
  | writes m off v rest t hm hi hmap hin ha => rw [(afterWrite_frame ha).inputs]; rfl
  | delays m us rest t hm hi hmap hin ha => obtain ⟨-, rfl⟩ := afterDelay_next ha; rfl
  | delivers => rfl

theorem step_inputs {t : State} (h : step s = .next t) : t.inputs = s.inputs.tail := by
  obtain ⟨rest, -, rfl⟩ | ⟨b, rest, -, -, rfl⟩ | ⟨w, rest, -, hmv⟩ | ⟨-, hmv⟩ := step_next h
  · rfl
  · rfl
  · exact blockMove_inputs (s := presentWord w s) hmv
  · exact blockMove_inputs hmv

/-! ## Late answers (R193) -/

theorem withoutLate_of_noInputs (hin : s.inputs = []) : s.withoutLate = s := by
  rw [State.withoutLate, hin, List.map_nil, ← hin]

/-- A late answer that is the first input may as well not come. -/
theorem step_firstWithoutLate {e : EnvEvent} {l : List EnvEvent} (hin : s.inputs = e :: l) :
    step (s.withInputs (e.withoutLate :: l)) = step s := by
  cases e with
  | late i b => exact (step_late_eq_quiet hin).symm
  | _ => exact congrArg step (congrArg (State.withInputs · s) hin.symm)

/-- Taking the late answers out before a step or after it comes to the same. -/
theorem step_withoutLate (s : State) : step s.withoutLate = onNext State.withoutLate (step s) := by
  cases hin : s.inputs with
  | nil =>
    rw [withoutLate_of_noInputs hin]
    cases hstep : step s with
    | next t =>
      have ht : t.inputs = [] := by rw [step_inputs hstep, hin, List.tail_nil]
      rw [onNext_next, withoutLate_of_noInputs ht]
    | fault r | refused r => rfl
  | cons e l =>
    calc step s.withoutLate
      _ = step (s.withInputs (e.withoutLate :: l.map EnvEvent.withoutLate)) := by
        rw [State.withoutLate, hin, List.map_cons]
      _ = onNext (State.withInputs (l.map EnvEvent.withoutLate)) (step (s.withInputs (e.withoutLate :: l))) :=
        step_oneInput _ l _
      _ = onNext (State.withInputs (l.map EnvEvent.withoutLate)) (step s) := by rw [step_firstWithoutLate hin]
      _ = onNext State.withoutLate (step s) := onNext_congr fun t ht => by
        rw [State.withoutLate, step_inputs ht, hin, List.tail_cons]

/-- A change of the state that commutes with every step commutes with every run. -/
theorem run_onNext {f : State → State} (hf : ∀ s, step (f s) = onNext f (step s)) (n : Nat) (s : State) :
    core.run n (f s) = onNext f (core.run n s) := by
  induction n generalizing s with
  | zero => rfl
  | succ n ih =>
    simp only [Host.Core.run, Host.Check.core_step, hf s]
    cases step s with
    | next t => exact ih t
    | fault r | refused r => rfl

/-- Settles O33, by induction on the number of steps: a step commutes with taking the late answers out. -/
theorem lateAnswersLeaveNoTrace : Obligations.LateAnswersLeaveNoTrace := by
  intro n s
  exact (congrArg nextOf (run_onNext step_withoutLate n s)).trans (nextOf_onNext _ _)

/-! ## The reset step (R190, R191) -/

/-- After a reset the block is idle, so it is ready where it is mapped. -/
theorem cmdReady_applyReset (s : State) : cmdReady (applyReset s) = s.mapped := rfl

/-- Settles O31: the reset is a step of its own, and it assigns the registers and the record of forgotten requests only. -/
theorem resetClearsTheRegisters : Obligations.ResetClearsTheRegisters := by
  intro s rest hin
  refine ⟨applyReset s.useInput, step_reset hin, ?_⟩
  simp [cmdReady_applyReset, resValidOut, hin]

end Sys2Proof.Machine
end
